-- ==== Sys2Proof/Word.lean ====
section
/-! DEFINITION. The block's data widths (spec/00_scope.md R7; spec/10_state.md R38). -/

namespace Sys2Proof

/-- A byte, bit 0 its least significant bit (R7). -/
abbrev Byte := BitVec 8

/-- A 32-bit register: lengths, counts, cursors, `ERRINFO` (R38). -/
abbrev Word := BitVec 32

end Sys2Proof
end

