-- ==== Sys2Proof/Config.lean ====
section
/-! DEFINITION. What an implementation of the block fixes: the named constants of spec/00_scope.md R5, the open parameters
of R6 as one structure that every operation takes as an argument, and the free values (constants without a body). -/

namespace Sys2Proof

/-- Byte order of a field of several bytes (R5, R6). -/
inductive ByteOrder where
  | little
  | big
  deriving DecidableEq, Repr

end Sys2Proof

namespace Sys2Proof.Config

/-! Constants the source fixes (00_scope.md R5). -/

/-- Smallest match length. -/
@[simp] abbrev minMatch : Nat := 3
/-- Largest match length. -/
@[simp] abbrev maxMatch : Nat := 130
/-- Largest literal run in one token. -/
@[simp] abbrev maxLit : Nat := 127
/-- Command bytes from here on are matches. -/
@[simp] abbrev matchFlag : Nat := 128
/-- Largest back-reference offset: the window. -/
@[simp] abbrev maxOffset : Nat := 65535
/-- Width in bytes of a match's offset field. -/
@[simp] abbrev offsetBytes : Nat := 2
/-- Its byte order. -/
@[simp] abbrev offsetOrder : ByteOrder := .big
/-- Slots of the tokenizer's hash table. -/
@[simp] abbrev htSlots : Nat := 65536
/-- Bytes hashed at a position. -/
@[simp] abbrev hashBytes : Nat := 3
/-- Length of the magic. -/
abbrev magicBytes : Nat := 4
/-- Width in bytes of the key length field. -/
@[simp] abbrev klenBytes : Nat := 1
/-- Width in bytes of the container-kind flag. -/
@[simp] abbrev flagBytes : Nat := 1
/-- Registers of the key file: one for every key byte that a key length field can count (10_state.md R24). -/
@[simp] abbrev keyRegs : Nat := 2 ^ (8 * klenBytes) - 1
/-- Smallest header: magic, key length, no key, flag (30_encoding.md R102). -/
@[simp] abbrev minHeader : Nat := magicBytes + klenBytes + flagBytes
/-- Width in bytes of every length and count field of the payload and the table. -/
@[simp] abbrev lenBytes : Nat := 4
/-- Byte order of the file payload's length field. -/
@[simp] abbrev payloadLenOrder : ByteOrder := .little
/-- Mask of the position term of the keystream. -/
@[simp] abbrev ksPosMask : Nat := 0xFF

end Sys2Proof.Config

namespace Sys2Proof

/-- Which key `DFILE` decrypts with (R6, `DECOMP_KEY_SOURCE`). -/
inductive KeySource where
  | header
  | operand
  deriving DecidableEq, Repr

/-- Places whose content the spec calls unspecified at some moment (10_state.md R46, 60_exceptions.md R316). -/
inductive Place where
  | key | input | output | tok | ent | wrk | tbl | litBuf
  | ip | tp | pp | ecnt | eidx | tokLen | expLen
  | hostRead
  deriving DecidableEq, Repr

/-- The parameters the source leaves open (00_scope.md R6). -/
structure Config where
  /-- `MAGIC[0..3]`. -/
  magic : Fin Config.magicBytes → Byte
  /-- `KEY_OBF`. -/
  keyObf : Byte
  /-- `HASH3`: a total function of exactly three bytes (40_match_codec.md R143). -/
  hash3 : Byte → Byte → Byte → BitVec 16
  /-- `INSERT_SKIPPED` (R148). -/
  insertSkipped : Bool
  /-- `TOC_ORDER` (30_encoding.md R105). -/
  tocOrder : ByteOrder
  /-- `FLAG_DECODE` on the bytes 2 to 255 (43_header_framer.md R207). -/
  flagDecodeHigh : Byte → Bool
  /-- `DECOMP_KEY_SOURCE` (46_api_commands.md R273). -/
  decompKeySource : KeySource
  /-- `BUF_CAP`, at most 2^32 - 1 (20_memory.md R70). -/
  bufCap : Word
  /-- The coder's `EntropyEnc` (41_entropy_adapter.md R171); `none` is `fail`. -/
  entropyEnc : List Byte → Option (List Byte)
  /-- The coder's `EntropyDec` (R171), before the adapter's size check; `none` is `fail`. -/
  entropyDecRaw : List Byte → Nat → Option (List Byte)
  /-- The host's `HostWrite` (10_state.md R42) at each moment: `true` is `ok`. -/
  hostWrite : Nat → List Byte → List Byte → Bool

namespace Config

/-! Free values: the parameters the spec marks OPEN. Nothing constrains them (log 2, 3, 4). -/

opaque openMagic : Fin magicBytes → Byte
opaque openKeyObf : Byte
opaque openHash3 : Byte → Byte → Byte → BitVec 16
opaque openFlagDecode : Byte → Bool
opaque openEntropyEnc : List Byte → Option (List Byte)
opaque openEntropyDec : List Byte → Nat → Option (List Byte)
opaque openHostWrite : Nat → List Byte → List Byte → Bool

/-! Free values: what unspecified places hold (log 5, 6, 10, 22). The first number tells one unspecified moment from
another; for a byte the second is its index. -/

opaque unspecifiedByte : Place → Nat → Nat → Byte
opaque unspecifiedWord : Place → Nat → Word
opaque unspecifiedBytes : Place → Nat → List Byte
opaque unspecifiedSlot : Nat → Nat → Option Word

/-- The block that `step` runs: OPEN parameters free, the others at the spec's defaults (R6; log 1). -/
def block : Config where
  magic := openMagic
  keyObf := openKeyObf
  hash3 := openHash3
  insertSkipped := false
  tocOrder := .little
  flagDecodeHigh := openFlagDecode
  decompKeySource := .header
  bufCap := 0xFFFFFFFF
  entropyEnc := openEntropyEnc
  entropyDecRaw := openEntropyDec
  hostWrite := openHostWrite

end Config
end Sys2Proof
end

