-- ==== Sys2Proof/Syntax.lean ====
section
/-! DEFINITION. The instructions: one constructor for each row of spec/opcode_table.json. -/

namespace Sys2Proof

/-- The two token instructions (spec/30_encoding.md R91, R92) and the sixteen commands (R110). -/
inductive Instr where
  /-- `LIT`: the raw bytes; their number is the count. -/
  | lit (raw : List Byte)
  /-- `MATCH`: `lm3` is the length less 3; `off` the back-reference offset. -/
  | matchRef (lm3 : BitVec 7) (off : BitVec 16)
  /-- `MENC` -/
  | menc
  /-- `MDEC` -/
  | mdec
  /-- `EENC` -/
  | eenc
  /-- `EDEC` -/
  | edec
  /-- `KSX` -/
  | ksx
  /-- `HDRW` -/
  | hdrw
  /-- `HDRR` -/
  | hdrr
  /-- `FPC` -/
  | fpc
  /-- `FPD` -/
  | fpd
  /-- `TBLB` -/
  | tblb
  /-- `TBLX` -/
  | tblx
  /-- `CFILE` -/
  | cfile
  /-- `DFILE` -/
  | dfile
  /-- `BFOLD` -/
  | bfold
  /-- `XFOLD` -/
  | xfold
  /-- `RHDR` -/
  | rhdr
  deriving DecidableEq, Repr

/-- The two encoding spaces of the opcode table: the token stream, fetched at `TP`, and the register `CMD`. -/
inductive Space where
  | token
  | command
  deriving DecidableEq, Repr

/-- Where an instruction is encoded. -/
def Instr.space : Instr → Space
  | .lit _ => .token
  | .matchRef _ _ => .token
  | .menc => .command
  | .mdec => .command
  | .eenc => .command
  | .edec => .command
  | .ksx => .command
  | .hdrw => .command
  | .hdrr => .command
  | .fpc => .command
  | .fpd => .command
  | .tblb => .command
  | .tblx => .command
  | .cfile => .command
  | .dfile => .command
  | .bfold => .command
  | .xfold => .command
  | .rhdr => .command

end Sys2Proof
end

