-- ==== Sys2Proof/Machine/State.lean ====
section
/-! DEFINITION. The block's state as plain data (spec/10_state.md), why a step can stop, and the state after reset (R46). -/

namespace Sys2Proof.Machine

/-- Bytes by address, addresses strictly rising, each at most once: a memory the host writes byte by byte. An unlisted
address has no listed value; what it reads as is `readKey` and `readIn` of Ops.lean (log 10). -/
abbrev Memory := List Host.Cell

/-- `STATUS` (R38, R39). -/
inductive Status where
  | idle
  | busy
  | done
  | error
  deriving DecidableEq, Repr

/-- The error kinds (spec/60_exceptions.md R300). -/
inductive Kind where
  | formatError
  | codecError
  | ioError
  | keyError
  | capacityError
  | commandError
  deriving DecidableEq, Repr

/-- The causes (R301). -/
inductive Cause where
  | headerTooShort
  | invalidMagic
  | headerTruncated
  | notFileArchive
  | notFolderArchive
  | payloadTooShort
  | literalTruncated
  | offsetTruncated
  | badOffset
  | entryCountTruncated
  | pathLengthTruncated
  | pathTruncated
  | origLenTruncated
  | blockLengthTruncated
  | blockTruncated
  | entropyEncodeFailed
  | entropyDecodeFailed
  | hostReadError
  | hostWriteError
  | emptyKey
  | lengthOverflow
  | illegalCommand
  deriving DecidableEq, Repr

/-- What `raise <Kind>(cause, info)` carries; the kind follows from the cause (R301, R315). -/
structure Raise where
  cause : Cause
  info : Nat
  deriving DecidableEq, Repr

/-- The tokenizer's hash table (R25): the written slots, and what the others hold: `EMPTY` when `base` is `none`, an
unspecified value when it is `some k` (after reset and after an abort; log 5, 6). -/
structure HashTable where
  cells : List (Nat × Word)
  base : Option Nat
  deriving DecidableEq, Repr

/-- A record of `FIN` (R41). -/
structure FinRecord where
  path : List Byte
  data : List Byte
  ioerr : Bool
  deriving DecidableEq, Repr

/-- A record of `FOUT` (R42). -/
structure FoutRecord where
  path : List Byte
  data : List Byte
  deriving DecidableEq, Repr

/-- The detokenizer's token buffer `T` (spec/40_match_codec.md R130): `IN` for `MDEC`, `TOK` inside `FPD`. -/
inductive TokenSource where
  | input
  | tok
  deriving DecidableEq, Repr

/-- What follows when the detokenizer halts: the command ends, or a table entry's record is emitted and the table parse
goes on (spec/45_folder_payload.md R257, R258); `path` and `blen` are that entry's. -/
inductive After where
  | command
  | entry (path : List Byte) (blen : Nat)
  deriving DecidableEq, Repr

/-- Where the engine stands while `STATUS = BUSY` (the model's own field; log 7, 21). -/
inductive Run where
  /-- At the start of the command in `CMD`. -/
  | fetch
  /-- At the token at `TP`. -/
  | tokens (src : TokenSource) (next : After)
  deriving DecidableEq, Repr

/-- An access of the host (R38, R41; spec/70_reset_and_hazards.md R340). A write to the window `OUT`, which R38's table gives
the host only to read, is an access that is ignored (log 26). `resetDuring k` is a reset asserted while a command runs, at a
moment when that command has emitted `k` records (log 7). -/
inductive HostAccess where
  | writeReg (no : Nat) (value : Word)
  | readReg (no : Nat)
  | writeIn (index : Word) (value : Byte)
  | readIn (index : Word)
  | writeOut (index : Word) (value : Byte)
  | readOut (index : Word)
  | writeFin (index : Word) (record : FinRecord)
  | reset
  | resetDuring (emitted : Nat)
  deriving DecidableEq, Repr

/-- The block. -/
structure State where
  /-- `CMD` -/
  cmd : Byte
  /-- `STATUS` -/
  status : Status
  /-- `ERRKIND` -/
  errKind : BitVec 3
  /-- `ERRCAUSE` -/
  errCause : Byte
  /-- `ERRINFO` -/
  errInfo : Word
  /-- `KLEN` -/
  klen : Byte
  /-- `FLAG` -/
  flag : BitVec 1
  /-- `FLAGRAW` -/
  flagRaw : Byte
  /-- `EXPLEN` -/
  expLen : Word
  /-- `IN_LEN` -/
  inLen : Word
  /-- `HLEN` -/
  hlen : BitVec 9
  /-- `TOKLEN` -/
  tokLen : Word
  /-- `FIN_CNT` -/
  finCnt : Word
  /-- `FOUT_CNT` -/
  foutCnt : Word
  /-- `KEY[0..254]` -/
  key : Memory
  /-- `IN` -/
  inMem : Memory
  /-- `OUT[0 .. OUT_LEN)` -/
  out : List Byte
  /-- `TOK[0 .. TOK_LEN)` -/
  tok : List Byte
  /-- `ENT[0 .. ENT_LEN)` -/
  ent : List Byte
  /-- `WRK[0 .. WRK_LEN)` -/
  wrk : List Byte
  /-- `TBL[0 .. TBL_LEN)` -/
  tbl : List Byte
  /-- `HT` -/
  ht : HashTable
  /-- `LITBUF[0 .. LITN)` -/
  litBuf : List Byte
  /-- `FIN`, by record index. R44 calls its content no state, R45 keeps `FIN` between commands and R46 gives it a reset value:
  the model holds it here (log 25). -/
  fin : List (Nat × FinRecord)
  /-- `FOUT`: every record emitted so far, oldest first (log 16) -/
  fout : List FoutRecord
  /-- `IP` -/
  ip : Word
  /-- `TP` -/
  tp : Word
  /-- `PP` -/
  pp : Word
  /-- `ECNT` -/
  ecnt : Word
  /-- `EIDX` -/
  eidx : Word
  /-- where the engine stands (the model's own) -/
  run : Run
  /-- the host's accesses still to come, oldest first (the model's own) -/
  pending : List HostAccess
  /-- the value the last host read returned (the model's own) -/
  hostData : Word
  /-- the number of resets so far (the model's own) -/
  epoch : Nat
  /-- the counter of fresh free values (the model's own) -/
  draws : Nat
  /-- the index of the free values that `OUT` holds at or beyond `OUT_LEN`; a command and a reset advance it (the model's
  own; log 22) -/
  outRun : Nat
  deriving DecidableEq, Repr

/-- Why the machine stops. -/
inductive Fault where
  /-- Raised by `step` alone, at the token grain, when `TP` has passed the end of the token buffer: spec/10_state.md R30 says
  no run reaches such a state. Safe: the machine stops where the spec has no behaviour. -/
  | tokenPointerPastEnd
  deriving DecidableEq, Repr

/-- Why something has no meaning. -/
inductive Refusal where
  /-- Raised by `exec` for an instruction that has no meaning yet. Safe. -/
  | notModelled (mnemonic : String)
  /-- Raised by `TBLB` and `BFOLD` when `FIN_CNT` is larger than the records supplied: spec/93_implementation_defined.md I15,
  "a missing `FIN` record is *refuse*". Safe. -/
  | finRecordMissing
  /-- Raised by a host access that supplies a record longer than `BUF_CAP`, which spec/10_state.md R41 excludes. Safe. -/
  | finRecordTooLong
  deriving DecidableEq, Repr

/-- The state after power-on: R46's values, and for every place R46 calls unspecified a free value (log 5). -/
def State.reset : State where
  cmd := 0
  status := .idle
  errKind := 0
  errCause := 0
  errInfo := 0
  klen := 0
  flag := 0
  flagRaw := 0
  expLen := 0
  inLen := 0
  hlen := 0
  tokLen := 0
  finCnt := 0
  foutCnt := 0
  key := []
  inMem := []
  out := []
  tok := (Config.unspecifiedBytes .tok 0).take (2 ^ 32 - 1)
  ent := (Config.unspecifiedBytes .ent 0).take (2 ^ 32 - 1)
  wrk := (Config.unspecifiedBytes .wrk 0).take (2 ^ 32 - 1)
  tbl := (Config.unspecifiedBytes .tbl 0).take (2 ^ 32 - 1)
  ht := { cells := [], base := some 0 }
  litBuf := (Config.unspecifiedBytes .litBuf 0).take 126
  fin := []
  fout := []
  ip := Config.unspecifiedWord .ip 0
  tp := Config.unspecifiedWord .tp 0
  pp := Config.unspecifiedWord .pp 0
  ecnt := Config.unspecifiedWord .ecnt 0
  eidx := Config.unspecifiedWord .eidx 0
  run := .fetch
  pending := []
  hostData := 0
  epoch := 0
  draws := 1
  outRun := 0

end Sys2Proof.Machine
end

