-- ==== Sys2Proof/Machine/Flags.lean ====
section
/-! DEFINITION. The status register and the error registers: their codes (spec/10_state.md R38, spec/60_exceptions.md R300,
R301) and the operations that write them (R39). The block has no other flag (R39). -/

namespace Sys2Proof.Machine

/-- `STATUS` as the host reads it (R38). -/
def Status.code : Status → BitVec 2
  | .idle => 0
  | .busy => 1
  | .done => 2
  | .error => 3

/-- `ERRKIND` of a kind (R300). -/
def Kind.code : Kind → BitVec 3
  | .formatError => 1
  | .codecError => 2
  | .ioError => 3
  | .keyError => 4
  | .capacityError => 5
  | .commandError => 6

/-- `ERRCAUSE` of a cause (R301). -/
def Cause.code : Cause → Byte
  | .headerTooShort => 0x01
  | .invalidMagic => 0x02
  | .headerTruncated => 0x03
  | .notFileArchive => 0x04
  | .notFolderArchive => 0x05
  | .payloadTooShort => 0x06
  | .literalTruncated => 0x07
  | .offsetTruncated => 0x08
  | .badOffset => 0x09
  | .entryCountTruncated => 0x0A
  | .pathLengthTruncated => 0x0B
  | .pathTruncated => 0x0C
  | .origLenTruncated => 0x0D
  | .blockLengthTruncated => 0x0E
  | .blockTruncated => 0x0F
  | .entropyEncodeFailed => 0x20
  | .entropyDecodeFailed => 0x21
  | .hostReadError => 0x30
  | .hostWriteError => 0x31
  | .emptyKey => 0x40
  | .lengthOverflow => 0x50
  | .illegalCommand => 0x60

/-- The kind a cause belongs to (R301). -/
def Cause.kind : Cause → Kind
  | .headerTooShort => .formatError
  | .invalidMagic => .formatError
  | .headerTruncated => .formatError
  | .notFileArchive => .formatError
  | .notFolderArchive => .formatError
  | .payloadTooShort => .formatError
  | .literalTruncated => .formatError
  | .offsetTruncated => .formatError
  | .badOffset => .formatError
  | .entryCountTruncated => .formatError
  | .pathLengthTruncated => .formatError
  | .pathTruncated => .formatError
  | .origLenTruncated => .formatError
  | .blockLengthTruncated => .formatError
  | .blockTruncated => .formatError
  | .entropyEncodeFailed => .codecError
  | .entropyDecodeFailed => .codecError
  | .hostReadError => .ioError
  | .hostWriteError => .ioError
  | .emptyKey => .keyError
  | .lengthOverflow => .capacityError
  | .illegalCommand => .commandError

/-- Every cause (R301: "No other cause exists"). -/
def Cause.all : List Cause :=
  [.headerTooShort, .invalidMagic, .headerTruncated, .notFileArchive, .notFolderArchive, .payloadTooShort,
   .literalTruncated, .offsetTruncated, .badOffset, .entryCountTruncated, .pathLengthTruncated, .pathTruncated,
   .origLenTruncated, .blockLengthTruncated, .blockTruncated, .entropyEncodeFailed, .entropyDecodeFailed,
   .hostReadError, .hostWriteError, .emptyKey, .lengthOverflow, .illegalCommand]

/-- `BUSY -> ERROR`: the three error registers are written together (R39, R315). -/
def setError (r : Raise) (s : State) : State :=
  { s with
    status := .error
    errKind := r.cause.kind.code
    errCause := r.cause.code
    errInfo := BitVec.ofNat 32 r.info }

/-- `-> BUSY`: they are cleared together (R39, R320). -/
def setBusy (s : State) : State :=
  { s with status := .busy, errKind := 0, errCause := 0, errInfo := 0 }

end Sys2Proof.Machine
end

