-- ==== Sys2Proof/Machine/Ops.lean ====
section
/-! DEFINITION. The named operations over memories, buffers and registers (spec/00_scope.md R9, spec/20_memory.md R60 to
R70), the end of a command (spec/70_reset_and_hazards.md R356), its abort (spec/60_exceptions.md R315, R316: what the
checklist calls taking an exception), its acknowledge (R320), and reset (R340). -/

namespace Sys2Proof.Machine

/-! Tables of listed entries: keys strictly rising. `IN`, `KEY`, `FIN` and `HT` are held so. -/

/-- The entry of a key. -/
def getEntry {α : Type} : List (Nat × α) → Nat → Option α
  | [], _ => none
  | (k, v) :: rest, a => if a = k then some v else getEntry rest a

/-- Writing one entry keeps the keys strictly rising. -/
def setEntry {α : Type} : List (Nat × α) → Nat → α → List (Nat × α)
  | [], a, v => [(a, v)]
  | (k, w) :: rest, a, v =>
    if a < k then (a, v) :: (k, w) :: rest
    else if a = k then (a, v) :: rest
    else (k, w) :: setEntry rest a v

/-- The canonical form: keys strictly rising (so no key twice) and below the size of the space. -/
def canonical {α : Type} (size : Nat) : List (Nat × α) → Bool
  | [] => true
  | [(k, _)] => decide (k < size)
  | (k, _) :: (k', v') :: rest => decide (k < k') && canonical size ((k', v') :: rest)

/-- A memory of `size` bytes is in its canonical form. -/
abbrev Memory.wf (size : Nat) (m : Memory) : Bool := canonical size m

/-- Writes bytes at rising addresses from `a` (`MemWrite`, R9). -/
def writeBytes (m : Memory) (a : Nat) : List Byte → Memory
  | [] => m
  | b :: bs => writeBytes (setEntry m a b) (a + 1) bs

/-- `KEY[i]`; a register nothing has written since reset holds an unspecified value (spec/10_state.md R46). -/
def readKey (s : State) (i : Nat) : Byte := (getEntry s.key i).getD (Config.unspecifiedByte .key s.epoch i)

/-- `IN[a]`, whatever `IN_LEN` is (log 28); a byte nothing has written since reset holds an unspecified value (R46;
spec/93_implementation_defined.md I15). -/
def readIn (s : State) (a : Nat) : Byte := (getEntry s.inMem a).getD (Config.unspecifiedByte .input s.epoch a)

/-- `OUT[a]`; at or beyond `OUT_LEN` the byte is unspecified, and the same at every read until the next command or reset
(spec/20_memory.md R64; log 22). -/
def readOut (s : State) (a : Nat) : Byte := (s.out[a]?).getD (Config.unspecifiedByte .output s.outRun a)

/-- `OUT_LEN` (R22). -/
def outLen (s : State) : Word := BitVec.ofNat 32 s.out.length

/-- `s[a .. a + n)` (R8). -/
def slice (bs : List Byte) (a n : Nat) : List Byte := (bs.drop a).take n

/-- A slot of `HT`: `none` is `EMPTY` (R25). -/
def HashTable.slot (t : HashTable) (i : Nat) : Option Word :=
  match getEntry t.cells i with
  | some p => some p
  | none =>
    match t.base with
    | none => none
    | some k => Config.unspecifiedSlot k i

/-- Writes a slot. -/
def HashTable.set (t : HashTable) (i : Nat) (p : Word) : HashTable := { t with cells := setEntry t.cells i p }

/-- `HT[s] <- EMPTY` for every `s` (spec/40_match_codec.md R141). -/
def HashTable.cleared : HashTable := { cells := [], base := none }

/-- `append` of `v` to a buffer of content `buf`, after R70's capacity check; `info` is what the check records. -/
def appendTo (cfg : Config) (info : Nat) (buf v : List Byte) : Except Raise (List Byte) :=
  if buf.length + v.length > cfg.bufCap.toNat then .error ⟨.lengthOverflow, info⟩ else .ok (buf ++ v)

/-! The end of a command. -/

/-- How a command's body ends: normally, or by raising an error in the state it had reached (R39, R315). -/
inductive Body where
  | ok (s : State)
  | raised (r : Raise) (s : State)
  deriving DecidableEq, Repr

/-- What comes next in the pseudocode; an error ends the body (R310). -/
def Body.andThen (b : Body) (f : State → Body) : Body :=
  match b with
  | .ok s => f s
  | .raised r s => .raised r s

/-- `BUSY -> DONE` (R39). -/
def finish (s : State) : State := { s with status := .done, run := .fetch }

/-- Everything an abort leaves unspecified (R316): the bytes of `OUT` (there are none, `OUT_LEN <- 0`), `TOKLEN`,
`EXPLEN`, the internal buffers and cursors. Each is a fresh free value. -/
def forget (s : State) : State :=
  { s with
    out := []
    tokLen := Config.unspecifiedWord .tokLen s.draws
    expLen := Config.unspecifiedWord .expLen s.draws
    tok := (Config.unspecifiedBytes .tok s.draws).take (2 ^ 32 - 1)
    ent := (Config.unspecifiedBytes .ent s.draws).take (2 ^ 32 - 1)
    wrk := (Config.unspecifiedBytes .wrk s.draws).take (2 ^ 32 - 1)
    tbl := (Config.unspecifiedBytes .tbl s.draws).take (2 ^ 32 - 1)
    ht := { cells := [], base := some s.draws }
    litBuf := (Config.unspecifiedBytes .litBuf s.draws).take 126
    ip := Config.unspecifiedWord .ip s.draws
    tp := Config.unspecifiedWord .tp s.draws
    pp := Config.unspecifiedWord .pp s.draws
    ecnt := Config.unspecifiedWord .ecnt s.draws
    eidx := Config.unspecifiedWord .eidx s.draws
    draws := s.draws + 1 }

/-- `raise`: the abort of the running command (R315). Control goes nowhere; nothing is saved; the host acknowledges by
writing `CMD` again (R320). -/
def abort (r : Raise) (s : State) : State := { setError r (forget s) with run := .fetch }

/-- The abort of a command that has written no register by then and whose rule says that an error writes none: `TOKLEN` and
`EXPLEN` keep their values as well (spec/43_header_framer.md R202, of a header that `HDRR` cannot read; log 24). -/
def abortUnwritten (r : Raise) (s : State) : State := { abort r s with tokLen := s.tokLen, expLen := s.expLen }

/-- An illegal `CMD` code ends at once and "changes nothing else but `OUT_LEN <- 0`" (spec/30_encoding.md R112; log 12). -/
def abortIllegal (s : State) : State :=
  { setError ⟨.illegalCommand, s.cmd.toNat⟩ s with out := [], run := .fetch }

/-- The state a command leaves (R356). -/
def Body.settle : Body → State
  | .ok s => finish s
  | .raised r s => abort r s

/-- A pure result as a body: stored on success, raised in the given state on an error. -/
def bodyOf {α : Type} (r : Except Raise α) (s : State) (store : α → State) : Body :=
  match r with
  | .ok a => .ok (store a)
  | .error e => .raised e s

/-- `OUT_LEN <- 0`, with which every command begins (spec/10_state.md R22). -/
def startOut (s : State) : State := { s with out := [] }

/-- `append(OUT, v)`. -/
def appendOut (cfg : Config) (info : Nat) (v : List Byte) (s : State) : Body :=
  bodyOf (appendTo cfg info s.out v) s (fun o => { s with out := o })

/-- A host write of `CMD` (R39, R320): the error registers are cleared and the command starts. -/
def startCommand (code : Byte) (s : State) : State :=
  { setBusy s with cmd := code, run := .fetch, outRun := s.outRun + 1 }

/-- Reset (R340, R46), at any moment: what was emitted on `FOUT` stays emitted, everything else takes the values of R46, the
unspecified ones afresh. `rest` is what the host does after it. -/
def resetTo (rest : List HostAccess) (s : State) : State :=
  { forget s with
    cmd := 0
    status := .idle
    errKind := 0
    errCause := 0
    errInfo := 0
    klen := 0
    flag := 0
    flagRaw := 0
    expLen := 0
    inLen := 0
    hlen := 0
    tokLen := 0
    finCnt := 0
    foutCnt := 0
    key := []
    inMem := []
    fin := []
    run := .fetch
    pending := rest
    hostData := 0
    epoch := s.epoch + 1
    outRun := s.outRun + 1 }

end Sys2Proof.Machine
end

