-- ==== Sys2Proof/Machine/Operands.lean ====
section
/-! DEFINITION. The operand forms: multi-byte fields and their byte orders (spec/00_scope.md R8, spec/20_memory.md R61), and
the operands a command takes from the registers and buffers (spec/30_encoding.md R110). -/

namespace Sys2Proof.Machine

/-- `LE32(v)` (R8). -/
def le32 (v : Nat) : List Byte :=
  [BitVec.ofNat 8 v, BitVec.ofNat 8 (v / 256), BitVec.ofNat 8 (v / 65536), BitVec.ofNat 8 (v / 16777216)]

/-- The big-endian four-byte form (R8). -/
def be32 (v : Nat) : List Byte :=
  [BitVec.ofNat 8 (v / 16777216), BitVec.ofNat 8 (v / 65536), BitVec.ofNat 8 (v / 256), BitVec.ofNat 8 v]

/-- `unLE32(s)` (R8), on the first four bytes. -/
def unLe32 (bs : List Byte) : Nat :=
  (bs.getD 0 0).toNat + 256 * (bs.getD 1 0).toNat + 65536 * (bs.getD 2 0).toNat + 16777216 * (bs.getD 3 0).toNat

/-- The inverse of `be32`. -/
def unBe32 (bs : List Byte) : Nat :=
  (bs.getD 3 0).toNat + 256 * (bs.getD 2 0).toNat + 65536 * (bs.getD 1 0).toNat + 16777216 * (bs.getD 0 0).toNat

/-- A length or count field of `Config.lenBytes` bytes in a byte order (spec/00_scope.md R5). -/
def lenField : ByteOrder → Nat → List Byte
  | .little => le32
  | .big => be32

/-- The inverse of `lenField`. -/
def unLenField : ByteOrder → List Byte → Nat
  | .little => unLe32
  | .big => unBe32

/-- `TOC32(v)` (R8). -/
def toc32 (cfg : Config) (v : Nat) : List Byte := lenField cfg.tocOrder v

/-- `unTOC32(s)` (R8). -/
def unToc32 (cfg : Config) (bs : List Byte) : Nat := unLenField cfg.tocOrder bs

/-- `IN[0 .. IN_LEN)`. -/
def inBytes (s : State) : List Byte := (List.range s.inLen.toNat).map (readIn s)

/-- `KEY[0 .. KLEN)` (spec/10_state.md R24). -/
def keyBytes (s : State) : List Byte := (List.range s.klen.toNat).map (readKey s)

/-- `FIN[0 .. FIN_CNT)`, when the host has supplied every record (R41). -/
def finRecords (s : State) : Option (List FinRecord) := (List.range s.finCnt.toNat).mapM (getEntry s.fin)

/-- The detokenizer's token buffer `T` (spec/40_match_codec.md R130). -/
def tokenBytes (s : State) : TokenSource → List Byte
  | .input => inBytes s
  | .tok => s.tok

/-- Its length `n`. -/
def tokenLen (s : State) : TokenSource → Nat
  | .input => s.inLen.toNat
  | .tok => s.tok.length

/-- The token buffer the engine stands in; `IN` outside a token run. -/
def runSource (s : State) : TokenSource :=
  match s.run with
  | .fetch => .input
  | .tokens src _ => src

/-- The container kind of a flag byte on read (spec/43_header_framer.md R207). -/
def flagDecode (cfg : Config) (b : Byte) : Bool :=
  if b = 0 then false else if b = 1 then true else cfg.flagDecodeHigh b

/-- Stores a key into `KEY` and `KLEN` (R206); `KEY[j]` beyond it is unchanged. -/
def setKey (k : List Byte) (s : State) : State :=
  { s with key := writeBytes s.key 0 k, klen := BitVec.ofNat 8 k.length }

end Sys2Proof.Machine
end

