-- ==== Sys2Proof/Machine/EntropyAdapter.lean ====
section
/-! DEFINITION. The entropy adapter (spec/41_entropy_adapter.md): the coder's port and the commands `EENC` and `EDEC`. -/

namespace Sys2Proof.Machine

/-- `EntropyDec(y, size)` as the adapter takes it: an answer of another size is a mismatch, hence `fail` (R170, R176). So
the law ENT-LEN of R172 holds by construction (log 3). -/
def entropyDec (cfg : Config) (y : List Byte) (size : Nat) : Option (List Byte) :=
  match cfg.entropyDecRaw y size with
  | none => none
  | some z => if z.length = size then some z else none

/-- The law ENT-RT (R172), a premise of the claims that need it, never a fact of the model. -/
def EntRt (cfg : Config) : Prop :=
  ∀ x y, cfg.entropyEnc x = some y → entropyDec cfg y x.length = some x

/-- The encode request with the mapping of its failure (R174). -/
def entropyEncode (cfg : Config) (x : List Byte) : Except Raise (List Byte) :=
  match cfg.entropyEnc x with
  | none => .error ⟨.entropyEncodeFailed, 0⟩
  | some y => .ok y

/-- The decode request: the size must be holdable, a failure is a CodecError that records the size (R176, R226). -/
def entropyDecode (cfg : Config) (y : List Byte) (size : Nat) : Except Raise (List Byte) :=
  if size > cfg.bufCap.toNat then .error ⟨.lengthOverflow, size⟩
  else
    match entropyDec cfg y size with
    | none => .error ⟨.entropyDecodeFailed, size⟩
    | some z => .ok z

/-- `EENC` (R174). -/
def eencWith (cfg : Config) (s : State) : Host.Outcome State Fault Refusal :=
  let s := startOut s
  .next
    (match entropyEncode cfg (inBytes s) with
      | .error r => Body.raised r s
      | .ok y => appendOut cfg 0 y s).settle

/-- `EDEC` (R176). -/
def edecWith (cfg : Config) (s : State) : Host.Outcome State Fault Refusal :=
  let s := startOut s
  .next
    (match entropyDecode cfg (inBytes s) s.expLen.toNat with
      | .error r => Body.raised r s
      | .ok z => appendOut cfg 0 z s).settle

/-- `EENC` of the block. -/
def execEenc (s : State) : Host.Outcome State Fault Refusal := eencWith Config.block s

/-- `EDEC` of the block. -/
def execEdec (s : State) : Host.Outcome State Fault Refusal := edecWith Config.block s

end Sys2Proof.Machine
end

