-- ==== Sys2Proof/Machine/Keystream.lean ====
section
/-! DEFINITION. The keystream cipher (spec/42_keystream_cipher.md) and the command `KSX`. -/

namespace Sys2Proof.Machine

/-- `ks(i)` (R192): the index modulo the key length on the full index, the position term on its low eight bits. -/
def ksByte (key : List Byte) (i : Nat) : Byte :=
  key.getD (i % key.length) 0 ^^^ BitVec.ofNat 8 (i &&& Config.ksPosMask)

/-- The transform of the bytes at indices `i`, `i + 1`, … -/
def keystreamFrom (key : List Byte) : Nat → List Byte → List Byte
  | _, [] => []
  | i, b :: bs => (b ^^^ ksByte key i) :: keystreamFrom key (i + 1) bs

/-- `Keystream(src)` (R191): every call starts again at index 0. -/
def keystream (key data : List Byte) : List Byte := keystreamFrom key 0 data

/-- `KSX` (R190, R193): the empty key is rejected before any byte is touched, for every length. -/
def ksxWith (_cfg : Config) (s : State) : Host.Outcome State Fault Refusal :=
  let s := startOut s
  .next
    (if s.klen = 0 then Body.raised ⟨.emptyKey, 0⟩ s
      else .ok { s with out := keystream (keyBytes s) (inBytes s) }).settle

/-- `KSX` of the block. -/
def execKsx (s : State) : Host.Outcome State Fault Refusal := ksxWith Config.block s

end Sys2Proof.Machine
end

