-- ==== Sys2Proof/WellFormed.lean ====
section
/-! DEFINITION. Which instruction terms stand for an instruction: a literal run has at most 127 bytes (spec/30_encoding.md
R91). Every other field is exactly as wide as its encoding. -/

namespace Sys2Proof

/-- The check. -/
def Instr.wellFormed : Instr → Bool
  | .lit raw => decide (raw.length ≤ Config.maxLit)
  | .matchRef _ _ => true
  | .menc => true
  | .mdec => true
  | .eenc => true
  | .edec => true
  | .ksx => true
  | .hdrw => true
  | .hdrr => true
  | .fpc => true
  | .fpd => true
  | .tblb => true
  | .tblx => true
  | .cfile => true
  | .dfile => true
  | .bfold => true
  | .xfold => true
  | .rhdr => true

end Sys2Proof
end

