-- ==== Sys2Proof/Decode.lean ====
section
/-! DEFINITION. Decoding, total on any bytes; the encoder; the opcode table's own numbering of an instruction's bits; the
pseudo-instructions of the written notation (spec/30_encoding.md R90 to R96, R110 to R115). -/

namespace Sys2Proof

/-- Why bytes are no instruction. -/
inductive DecodeReject where
  /-- There is no byte to read. -/
  | noByte
  /-- Fewer raw bytes follow than the count says (R95). -/
  | literalTruncated
  /-- Fewer than two bytes follow a `MATCH` command byte (R95). -/
  | offsetTruncated
  /-- The code is no command (R112). -/
  | illegalCommand
  deriving DecidableEq, Repr

/-- The offset field at the head of the bytes, in its byte order (R92, R94). -/
def readOffset (bs : List Byte) : BitVec 16 :=
  match Config.offsetOrder with
  | .big => bs.getD 0 0 ++ bs.getD 1 0
  | .little => bs.getD 1 0 ++ bs.getD 0 0

/-- The bytes of an offset field (R92). -/
def offsetField (off : BitVec 16) : List Byte :=
  match Config.offsetOrder with
  | .big => [off.extractLsb' 8 8, off.extractLsb' 0 8]
  | .little => [off.extractLsb' 0 8, off.extractLsb' 8 8]

/-- The token at the head of a stream, with what follows it. Bit 7 of the command byte selects the format (R90, R93); the
operands are those of R94. -/
def decodeToken : List Byte → Except DecodeReject (Instr × List Byte)
  | [] => .error .noByte
  | c :: rest =>
    if c.toNat < Config.matchFlag then
      if rest.length < c.toNat then .error .literalTruncated
      else .ok (.lit (rest.take c.toNat), rest.drop c.toNat)
    else if (rest.take Config.offsetBytes).length < Config.offsetBytes then .error .offsetTruncated
    else .ok (.matchRef (c.extractLsb' 0 7) (readOffset rest), rest.drop Config.offsetBytes)

/-- The command a `CMD` value names (R110); all eight bits are significant (R111). -/
def decodeCommand (code : Byte) : Except DecodeReject Instr :=
  match code.toNat with
  | 0x01 => .ok .menc
  | 0x02 => .ok .mdec
  | 0x03 => .ok .eenc
  | 0x04 => .ok .edec
  | 0x05 => .ok .ksx
  | 0x06 => .ok .hdrw
  | 0x07 => .ok .hdrr
  | 0x08 => .ok .fpc
  | 0x09 => .ok .fpd
  | 0x0A => .ok .tblb
  | 0x0B => .ok .tblx
  | 0x10 => .ok .cfile
  | 0x11 => .ok .dfile
  | 0x12 => .ok .bfold
  | 0x13 => .ok .xfold
  | 0x14 => .ok .rhdr
  | _ => .error .illegalCommand

/-- Decoding in either space. -/
def decode (sp : Space) (bytes : List Byte) : Except DecodeReject (Instr × List Byte) :=
  match sp with
  | .token => decodeToken bytes
  | .command =>
    match bytes with
    | [] => .error .noByte
    | code :: rest => (decodeCommand code).map (fun i => (i, rest))

/-- The bytes of an instruction (R91, R92, R110). -/
def encode : Instr → List Byte
  | .lit raw => BitVec.ofNat 8 raw.length :: raw
  | .matchRef lm3 off => (1#1 ++ lm3) :: offsetField off
  | .menc => [0x01]
  | .mdec => [0x02]
  | .eenc => [0x03]
  | .edec => [0x04]
  | .ksx => [0x05]
  | .hdrw => [0x06]
  | .hdrr => [0x07]
  | .fpc => [0x08]
  | .fpd => [0x09]
  | .tblb => [0x0A]
  | .tblx => [0x0B]
  | .cfile => [0x10]
  | .dfile => [0x11]
  | .bfold => [0x12]
  | .xfold => [0x13]
  | .rhdr => [0x14]

/-- The encoding of a token program: the concatenation (R113). -/
def encodeAll (prog : List Instr) : List Byte := prog.flatMap encode

/-- Byte `k` of a number whose bit 0 is the least significant bit of the first byte. -/
def byteOfWord (w k : Nat) : Byte := BitVec.ofNat 8 (w / 2 ^ (8 * k))

/-- The longest instruction: a `LIT` of 127 bytes. -/
def longestInstr : Nat := 128

/-- An instruction's bytes as the opcode table numbers its bits; the bytes above `nbits` are 0. -/
def tableBytes (nbits w : Nat) : List Byte :=
  (List.range longestInstr).map fun k => if 8 * k < nbits then byteOfWord w k else 0

/-- What a table word stands for. The table has two spaces, whose one-byte words overlap: a one-byte word that is a command
code is the command, every other word is the token at its head (log 15). -/
def decodeTableWord (nbits w : Nat) : Option Instr :=
  let bytes := tableBytes nbits w
  let asToken : Option Instr :=
    match decodeToken bytes with
    | .ok (i, _) => some i
    | .error _ => none
  if nbits ≤ 8 then
    match decodeCommand (byteOfWord w 0) with
    | .ok i => some i
    | .error _ => asToken
  else asToken

/-! Pseudo-instructions (R114). -/

/-- Chunks of at most 127 bytes, one `LIT` each; the first argument bounds the number of chunks. -/
def litChunks : Nat → List Byte → List Instr
  | 0, _ => []
  | fuel + 1, bs =>
    match bs with
    | [] => []
    | _ :: _ => .lit (bs.take Config.maxLit) :: litChunks fuel (bs.drop Config.maxLit)

/-- `LITSTR`: a literal string of any length. -/
def litStr (bs : List Byte) : List Instr := litChunks bs.length bs

/-- `NOPTOK`: the token that produces nothing. -/
def nopTok : Instr := .lit []

/-- `RUN b, k` for `4 ≤ k ≤ 131`: the byte `b` repeated `k` times. -/
def runTok (b : Byte) (k : Nat) : List Instr := [.lit [b], .matchRef (BitVec.ofNat 7 (k - 4)) 1]

end Sys2Proof
end

