-- ==== Sys2Proof/Machine/MatchCodec.lean ====
section
/-! DEFINITION. The match codec (spec/40_match_codec.md): the detokenizer with its two instructions `LIT` and `MATCH`, the
tokenizer, and the commands `MDEC` and `MENC`. -/

namespace Sys2Proof.Machine

/-! The detokenizer (R130 to R137). -/

/-- The detokenizer's moving state: `TP` and `OUT[0 .. OLEN)` (R130). -/
structure Detok where
  tp : Nat
  out : List Byte
  deriving DecidableEq, Repr

/-- `LIT` in a token buffer of length `n` (R133). -/
def litToken (cfg : Config) (n : Nat) (raw : List Byte) (d : Detok) : Except Raise Detok :=
  if d.tp + 1 + raw.length > n then .error ⟨.literalTruncated, d.tp⟩
  else
    match appendTo cfg d.tp d.out raw with
    | .error r => .error r
    | .ok out => .ok { tp := d.tp + 1 + raw.length, out := out }

/-- The back-reference copy, one byte at a time, the read index moving with the growing length (R135). -/
def copyBytes (off : Nat) : Nat → List Byte → List Byte
  | 0, out => out
  | k + 1, out => copyBytes off k (out ++ [out.getD (out.length - off) 0])

/-- The bytes of a `MATCH` token: the command byte and the offset field (spec/30_encoding.md R92, R93). -/
@[simp] abbrev matchBytes : Nat := 1 + Config.offsetBytes

/-- `MATCH` of length `len` and offset `off`: the checks in their order (R134), then the copy (R135). -/
def matchToken (cfg : Config) (n len off : Nat) (d : Detok) : Except Raise Detok :=
  if d.tp + matchBytes > n then .error ⟨.offsetTruncated, d.tp⟩
  else if off = 0 ∨ off > d.out.length then .error ⟨.badOffset, d.tp⟩
  else if d.out.length + len > cfg.bufCap.toNat then .error ⟨.lengthOverflow, d.tp⟩
  else .ok { tp := d.tp + matchBytes, out := copyBytes off len d.out }

/-- The length a `MATCH` token's low seven bits give (spec/30_encoding.md R94). -/
def matchLength (lm3 : BitVec 7) : Nat := lm3.toNat + Config.minMatch

/-- The error of a token the decoder rejects; `tp` is the index of its command byte (R133, R134). The last two cases do not
occur: there is a byte at `TP` (R131), and a token is never looked up as a command. -/
def tokenReject (tp : Nat) : DecodeReject → Raise
  | .literalTruncated => ⟨.literalTruncated, tp⟩
  | .offsetTruncated => ⟨.offsetTruncated, tp⟩
  | .noByte => ⟨.literalTruncated, tp⟩
  | .illegalCommand => ⟨.literalTruncated, tp⟩

/-- One step of the detokenizer on the buffer `T` (R130, R132): the token at `TP` is decoded and executed. -/
def detokStep (cfg : Config) (T : List Byte) (d : Detok) : Except Raise Detok :=
  match decodeToken (T.drop d.tp) with
  | .ok (.lit raw, _) => litToken cfg T.length raw d
  | .ok (.matchRef lm3 off, _) => matchToken cfg T.length (matchLength lm3) off.toNat d
  | .ok (_, _) => .ok d
  | .error e => .error (tokenReject d.tp e)

/-- The detokenizer runs until `TP` reaches the end (R131); `fuel` bounds the number of tokens (R137: at most `n`). -/
def detokRun (cfg : Config) (T : List Byte) : Nat → Detok → Except Raise Detok
  | 0, d => .ok d
  | fuel + 1, d =>
    if d.tp < T.length then
      match detokStep cfg T d with
      | .ok d' => detokRun cfg T fuel d'
      | .error r => .error r
    else .ok d

/-- The function `Decode` (R137). -/
def matchDecode (cfg : Config) (T : List Byte) : Except Raise (List Byte) :=
  match detokRun cfg T T.length { tp := 0, out := [] } with
  | .ok d => .ok d.out
  | .error r => .error r

/-! The tokenizer (R141 to R149). -/

/-- The tokenizer's moving state: `HT`, `LITBUF`, `IP` and its destination (R141). -/
structure Tokenizer where
  ht : HashTable
  litBuf : List Byte
  ip : Nat
  dst : List Byte
  deriving DecidableEq, Repr

/-- R141: the table cleared, no pending literal, at the start, nothing written. -/
def tokenizerStart : Tokenizer := { ht := HashTable.cleared, litBuf := [], ip := 0, dst := [] }

/-- `H` at a position (R142, R143). -/
def hashAt (cfg : Config) (src : List Byte) (i : Nat) : Nat :=
  (cfg.hash3 (src.getD i 0) (src.getD (i + 1) 0) (src.getD (i + 2) 0)).toNat

/-- The extension (R144): how many bytes from `k` on are equal at `cand` and at `ip`, at most `lim` more. -/
def extendMatch (src : List Byte) (cand ip : Nat) : Nat → Nat → Nat
  | 0, k => k
  | lim + 1, k => if src.getD (cand + k) 0 = src.getD (ip + k) 0 then extendMatch src cand ip lim (k + 1) else k

/-- The search at `IP` (R142 to R144): `MLEN`, `MOFF` and the updated table. A candidate is usable when
`1 ≤ IP - CAND ≤ 65535`. -/
def searchMatch (cfg : Config) (src : List Byte) (t : Tokenizer) : Nat × Nat × HashTable :=
  if t.ip + Config.hashBytes ≤ src.length then
    let h := hashAt cfg src t.ip
    let ht := t.ht.set h (BitVec.ofNat 32 t.ip)
    match t.ht.slot h with
    | none => (0, 0, ht)
    | some cand =>
      let dist := t.ip - cand.toNat
      if 1 ≤ dist ∧ dist ≤ Config.maxOffset then
        (extendMatch src cand.toNat t.ip (min Config.maxMatch (src.length - t.ip)) 0, dist, ht)
      else (0, 0, ht)
  else (0, 0, t.ht)

/-- `flush()` (R147): the pending run as one `LIT`, nothing when there is none. -/
def flushLits (cfg : Config) (t : Tokenizer) : Except Raise Tokenizer :=
  match t.litBuf with
  | [] => .ok t
  | _ :: _ =>
    match appendTo cfg 0 t.dst (encode (.lit t.litBuf)) with
    | .error r => .error r
    | .ok dst => .ok { t with litBuf := [], dst := dst }

/-- The skipped positions entered into the table, `n` of them from `j` on (R145, R148). -/
def enterSkipped (cfg : Config) (src : List Byte) : Nat → Nat → HashTable → HashTable
  | 0, _, ht => ht
  | n + 1, j, ht =>
    enterSkipped cfg src n (j + 1)
      (if j + Config.hashBytes ≤ src.length then ht.set (hashAt cfg src j) (BitVec.ofNat 32 j) else ht)

/-- Match emission (R145). -/
def emitMatch (cfg : Config) (src : List Byte) (mlen moff : Nat) (t : Tokenizer) : Except Raise Tokenizer :=
  match flushLits cfg t with
  | .error r => .error r
  | .ok t =>
    match appendTo cfg 0 t.dst (encode (.matchRef (BitVec.ofNat 7 (mlen - Config.minMatch)) (BitVec.ofNat 16 moff))) with
    | .error r => .error r
    | .ok dst =>
      .ok
        { t with
          dst := dst
          ht := if cfg.insertSkipped then enterSkipped cfg src (mlen - 1) (t.ip + 1) t.ht else t.ht
          ip := t.ip + mlen }

/-- Literal accumulation (R146). -/
def takeLiteral (cfg : Config) (src : List Byte) (t : Tokenizer) : Except Raise Tokenizer :=
  let t' := { t with litBuf := t.litBuf ++ [src.getD t.ip 0], ip := t.ip + 1 }
  if t'.litBuf.length = Config.maxLit then flushLits cfg t' else .ok t'

/-- One step of the tokenizer, `IP < n` (R142). -/
def tokenizerStep (cfg : Config) (src : List Byte) (t : Tokenizer) : Except Raise Tokenizer :=
  match searchMatch cfg src t with
  | (mlen, moff, ht) =>
    if mlen ≥ Config.minMatch then emitMatch cfg src mlen moff { t with ht := ht }
    else takeLiteral cfg src { t with ht := ht }

/-- The loop of R142; `fuel` bounds the number of positions visited (spec/70_reset_and_hazards.md R354: at most `n`). -/
def tokenizerRun (cfg : Config) (src : List Byte) : Nat → Tokenizer → Except Raise Tokenizer
  | 0, t => .ok t
  | fuel + 1, t =>
    if t.ip < src.length then
      match tokenizerStep cfg src t with
      | .ok t' => tokenizerRun cfg src fuel t'
      | .error r => .error r
    else .ok t

/-- `Tokenize` (R141 to R147). -/
def tokenize (cfg : Config) (src : List Byte) : Except Raise Tokenizer :=
  match tokenizerRun cfg src src.length tokenizerStart with
  | .ok t => flushLits cfg t
  | .error r => .error r

/-- The function `Encode` (R149). -/
def matchEncode (cfg : Config) (src : List Byte) : Except Raise (List Byte) :=
  match tokenize cfg src with
  | .ok t => .ok t.dst
  | .error r => .error r

/-! On the state. -/

/-- The detokenizer's moving state in the registers. -/
def detokOf (s : State) : Detok := { tp := s.tp.toNat, out := s.out }

/-- Stored back. -/
def storeDetok (s : State) (d : Detok) : State := { s with tp := BitVec.ofNat 32 d.tp, out := d.out }

/-- `ERRINFO` of an error inside the detokenizer: the token's index, or the entry's while a table is being extracted
(spec/60_exceptions.md R303). -/
def tokenInfo (s : State) (info : Nat) : Nat :=
  match s.run with
  | .tokens _ (.entry _ _) => s.eidx.toNat
  | .tokens _ .command => info
  | .fetch => info

/-- A detokenizer result as a body. -/
def detokBody (s : State) : Except Raise Detok → Body
  | .ok d => .ok (storeDetok s d)
  | .error r => .raised ⟨r.cause, tokenInfo s r.info⟩ s

/-- The state a token leaves: the run goes on, or the command is aborted (R133, R134, R315). -/
def Body.resume : Body → State
  | .ok s => s
  | .raised r s => abort r s

/-- The detokenizer starts (R130): nothing produced, at token 0 of `src`. -/
def startTokens (src : TokenSource) (next : After) (s : State) : State :=
  { s with out := [], tp := 0, run := .tokens src next }

/-- The detokenizer runs to its halt (R131). -/
def detokenize (cfg : Config) (s : State) : Body :=
  let T := tokenBytes s (runSource s)
  detokBody s (detokRun cfg T T.length (detokOf s))

/-- `HT`, `LITBUF` and `IP` as the tokenizer leaves them. -/
def storeTokenizer (t : Tokenizer) (s : State) : State :=
  { s with ht := t.ht, litBuf := t.litBuf, ip := BitVec.ofNat 32 t.ip }

/-- `LIT` (R133). -/
def litWith (cfg : Config) (raw : List Byte) (s : State) : Host.Outcome State Fault Refusal :=
  .next (detokBody s (litToken cfg (tokenLen s (runSource s)) raw (detokOf s))).resume

/-- `MATCH` (R134 to R136). -/
def matchWith (cfg : Config) (lm3 : BitVec 7) (off : BitVec 16) (s : State) : Host.Outcome State Fault Refusal :=
  .next (detokBody s (matchToken cfg (tokenLen s (runSource s)) (matchLength lm3) off.toNat (detokOf s))).resume

/-- `MENC` (R140). -/
def mencWith (cfg : Config) (s : State) : Host.Outcome State Fault Refusal :=
  let s := startOut s
  .next (bodyOf (tokenize cfg (inBytes s)) s (fun t => storeTokenizer t { s with out := t.dst })).settle

/-- `MDEC` (R150): the detokenizer over `IN`, run to its halt (log 7). -/
def mdecWith (cfg : Config) (s : State) : Host.Outcome State Fault Refusal :=
  .next (detokenize cfg (startTokens .input .command s)).settle

/-- `LIT` of the block. -/
def execLit (raw : List Byte) (s : State) : Host.Outcome State Fault Refusal := litWith Config.block raw s

/-- `MATCH` of the block. -/
def execMatch (lm3 : BitVec 7) (off : BitVec 16) (s : State) : Host.Outcome State Fault Refusal :=
  matchWith Config.block lm3 off s

/-- `MENC` of the block. -/
def execMenc (s : State) : Host.Outcome State Fault Refusal := mencWith Config.block s

/-- `MDEC` of the block. -/
def execMdec (s : State) : Host.Outcome State Fault Refusal := mdecWith Config.block s

end Sys2Proof.Machine
end

