-- ==== Sys2Proof/Machine/FilePayload.lean ====
section
/-! DEFINITION. The file payload codec (spec/44_file_payload.md; format: spec/30_encoding.md R103) and the commands `FPC` and
`FPD`. -/

namespace Sys2Proof.Machine

/-- What `PayloadCompress` leaves: the tokenizer with `TOK` its destination, `ENT`, `WRK` (R221). -/
structure Payload where
  tz : Tokenizer
  ent : List Byte
  wrk : List Byte
  deriving DecidableEq, Repr

/-- `PayloadCompress` (R221, R222): the empty key first; tokens, entropy coding, the token-stream length in front, keystream
over all of it. -/
def payloadCompress (cfg : Config) (key src : List Byte) : Except Raise Payload :=
  if key.length = 0 then .error ⟨.emptyKey, 0⟩
  else
    match tokenize cfg src with
    | .error r => .error r
    | .ok t =>
      match entropyEncode cfg t.dst with
      | .error r => .error r
      | .ok ent =>
        if Config.lenBytes + ent.length > cfg.bufCap.toNat then .error ⟨.lengthOverflow, 0⟩
        else .ok { tz := t, ent := ent, wrk := keystream key (lenField Config.payloadLenOrder t.dst.length ++ ent) }

/-- The registers and buffers `PayloadCompress` writes. -/
def storePayload (p : Payload) (s : State) : State :=
  { storeTokenizer p.tz s with
    tok := p.tz.dst
    tokLen := BitVec.ofNat 32 p.tz.dst.length
    ent := p.ent
    wrk := p.wrk }

/-- What `PayloadDecompress` has before the detokenizer runs: `WRK`, the length field, `TOK` (R226). -/
structure Unpacked where
  wrk : List Byte
  len : Nat
  tok : List Byte
  deriving DecidableEq, Repr

/-- `PayloadDecompress` up to the detokenizer (R226), its errors in the order of R227. -/
def payloadUnpack (cfg : Config) (key payload : List Byte) : Except Raise Unpacked :=
  if key.length = 0 then .error ⟨.emptyKey, 0⟩
  else
    let wrk := keystream key payload
    if wrk.length < Config.lenBytes then .error ⟨.payloadTooShort, wrk.length⟩
    else
      let len := unLenField Config.payloadLenOrder (slice wrk 0 Config.lenBytes)
      match entropyDecode cfg (wrk.drop Config.lenBytes) len with
      | .error r => .error r
      | .ok tok => .ok { wrk := wrk, len := len, tok := tok }

/-- The registers and buffers it writes. -/
def storeUnpacked (u : Unpacked) (s : State) : State :=
  { s with wrk := u.wrk, tokLen := BitVec.ofNat 32 u.len, expLen := BitVec.ofNat 32 u.len, tok := u.tok }

/-- `PayloadDecompress` into `OUT` (R226). -/
def payloadDecompress (cfg : Config) (payload : List Byte) (s : State) : Body :=
  (bodyOf (payloadUnpack cfg (keyBytes s) payload) s
      (fun u => startTokens .tok .command (storeUnpacked u s))).andThen (detokenize cfg)

/-- `FPC` (R220). -/
def fpcWith (cfg : Config) (s : State) : Host.Outcome State Fault Refusal :=
  let s := startOut s
  .next
    ((bodyOf (payloadCompress cfg (keyBytes s) (inBytes s)) s (fun p => storePayload p s)).andThen fun s =>
      appendOut cfg 0 s.wrk s).settle

/-- `FPD` (R224). -/
def fpdWith (cfg : Config) (s : State) : Host.Outcome State Fault Refusal :=
  .next (payloadDecompress cfg (inBytes s) (startOut s)).settle

/-- `FPC` of the block. -/
def execFpc (s : State) : Host.Outcome State Fault Refusal := fpcWith Config.block s

/-- `FPD` of the block. -/
def execFpd (s : State) : Host.Outcome State Fault Refusal := fpdWith Config.block s

end Sys2Proof.Machine
end

