-- ==== Sys2Proof/Machine/FolderPayload.lean ====
section
/-! DEFINITION. The folder payload codec (spec/45_folder_payload.md; format: spec/30_encoding.md R105, R106) and the commands
`TBLB` and `TBLX`. -/

namespace Sys2Proof.Machine

/-! Building (R240 to R245). -/

/-- An error raised while entry `e` is worked on records the entry index (spec/60_exceptions.md R303). -/
def inEntry {α : Type} (e : Nat) : Except Raise α → Except Raise α
  | .ok a => .ok a
  | .error r => .error ⟨r.cause, e⟩

/-- A length appended as a four-byte field, if it fits one (spec/20_memory.md R70). -/
def appendField (cfg : Config) (buf : List Byte) (v : Nat) : Except Raise (List Byte) :=
  if v > 2 ^ (8 * Config.lenBytes) - 1 then .error ⟨.lengthOverflow, 0⟩ else appendTo cfg 0 buf (toc32 cfg v)

/-- The table so far and what the last entry's `PayloadCompress` left. -/
structure Built where
  tbl : List Byte
  last : Option Payload
  deriving DecidableEq, Repr

/-- One entry appended to the table (R241): path length, path, token-stream length, block length, block. -/
def buildEntry (cfg : Config) (key : List Byte) (rec : FinRecord) (tbl : List Byte) : Except Raise Built := do
  let p ← payloadCompress cfg key rec.data
  let tbl ← appendField cfg tbl rec.path.length
  let tbl ← appendTo cfg 0 tbl rec.path
  let tbl ← appendField cfg tbl p.tz.dst.length
  let tbl ← appendField cfg tbl p.wrk.length
  let tbl ← appendTo cfg 0 tbl p.wrk
  return { tbl := tbl, last := some p }

/-- The entries in `FIN`'s order (R241, R243), from index `e` on. -/
def buildLoop (cfg : Config) (key : List Byte) : Nat → List FinRecord → Built → Except Raise Built
  | _, [], b => .ok b
  | e, rec :: rest, b =>
    match inEntry e (buildEntry cfg key rec b.tbl) with
    | .ok b' => buildLoop cfg key (e + 1) rest b'
    | .error r => .error r

/-- The lowest record whose reading failed, from index `e` on (R242). -/
def firstIoerr : Nat → List FinRecord → Option Nat
  | _, [] => none
  | e, rec :: rest => if rec.ioerr then some e else firstIoerr (e + 1) rest

/-- `TableBuild` (R241): read errors before anything, then the empty key, the entries, the second keystream pass. -/
def tableBuild (cfg : Config) (key : List Byte) (recs : List FinRecord) : Except Raise Built :=
  match firstIoerr 0 recs with
  | some e => .error ⟨.hostReadError, e⟩
  | none =>
    if key.length = 0 then .error ⟨.emptyKey, 0⟩
    else
      match buildLoop cfg key 0 recs { tbl := toc32 cfg recs.length, last := none } with
      | .error r => .error r
      | .ok b => .ok { b with tbl := keystream key b.tbl }

/-- The registers and buffers `TableBuild` writes; with no entry `TOKLEN` and the tokenizer's places are not written
(R240; log 17). -/
def storeBuilt (count : Nat) (b : Built) (s : State) : State :=
  { (match b.last with
      | none => s
      | some p => storePayload p s) with
    tbl := b.tbl
    eidx := BitVec.ofNat 32 count }

/-- `TableBuild` on the state, the folder payload left in `TBL`. -/
def buildBody (cfg : Config) (recs : List FinRecord) (s : State) : Body :=
  bodyOf (tableBuild cfg (keyBytes s) recs) s (fun b => storeBuilt recs.length b s)

/-- `TBLB` (R240). -/
def tblbWith (cfg : Config) (s : State) : Host.Outcome State Fault Refusal :=
  match finRecords s with
  | none => .refused .finRecordMissing
  | some recs => .next ((buildBody cfg recs (startOut s)).andThen fun s => appendOut cfg 0 s.tbl s).settle

/-! Extracting (R250 to R262). -/

/-- The next `n` bytes of the table and the position after them; `c` names the field when it is truncated (R251 to R256). -/
def takeField (tbl : List Byte) (pp n : Nat) (c : Cause) : Except Cause (List Byte × Nat) :=
  if pp + n > tbl.length then .error c else .ok (slice tbl pp n, pp + n)

/-- A parsed entry: its path, the table's copy of the token-stream length (parsed and not used, R254), its block and where
the block starts. -/
structure Entry where
  path : List Byte
  origLen : Nat
  block : List Byte
  start : Nat
  deriving DecidableEq, Repr

/-- The fields of the entry at `pp` in their order (R252 to R256). -/
def parseEntry (cfg : Config) (tbl : List Byte) (pp : Nat) : Except Cause Entry := do
  let (plen, pp) ← takeField tbl pp Config.lenBytes .pathLengthTruncated
  let (path, pp) ← takeField tbl pp (unToc32 cfg plen) .pathTruncated
  let (olen, pp) ← takeField tbl pp Config.lenBytes .origLenTruncated
  let (blen, pp) ← takeField tbl pp Config.lenBytes .blockLengthTruncated
  let (block, _) ← takeField tbl pp (unToc32 cfg blen) .blockTruncated
  return { path := path, origLen := unToc32 cfg olen, block := block, start := pp }

/-- The entry at `PP` is parsed and its block unpacked, up to the detokenizer (R252 to R257). -/
def entryStart (cfg : Config) (s : State) : Body :=
  match parseEntry cfg s.tbl s.pp.toNat with
  | .error c => .raised ⟨c, s.eidx.toNat⟩ s
  | .ok e =>
    bodyOf (inEntry s.eidx.toNat (payloadUnpack cfg (keyBytes s) e.block)) s fun u =>
      startTokens .tok (.entry e.path e.block.length) (storeUnpacked u { s with pp := BitVec.ofNat 32 e.start })

/-- The entry's record is emitted once its block has decompressed (R257, R258). -/
def entryFinish (cfg : Config) (path : List Byte) (blen : Nat) (s : State) : Body :=
  let s' := { s with pp := BitVec.ofNat 32 (s.pp.toNat + blen), run := .fetch, draws := s.draws + 1 }
  if cfg.hostWrite s.draws path s.out then
    .ok { s' with
      fout := s.fout ++ [{ path := path, data := s.out }]
      foutCnt := s.foutCnt + 1
      eidx := s.eidx + 1 }
  else .raised ⟨.hostWriteError, s.eidx.toNat⟩ s'

/-- What follows the detokenizer's halt inside a command. -/
def afterTokens (cfg : Config) (s : State) : Body :=
  match s.run with
  | .tokens _ (.entry path blen) => entryFinish cfg path blen s
  | .tokens _ .command => .ok s
  | .fetch => .ok s

/-- One entry, parsed, decompressed and emitted before the next is parsed (R257). -/
def entryBody (cfg : Config) (s : State) : Body :=
  ((entryStart cfg s).andThen (detokenize cfg)).andThen (afterTokens cfg)

/-- The remaining entries (R251, R259): the parse stops after the last. -/
def extractLoop (cfg : Config) : Nat → State → Body
  | 0, s => .ok s
  | n + 1, s => (entryBody cfg s).andThen (extractLoop cfg n)

/-- `TableExtract` on the table's bytes (R251 to R258). -/
def tableExtract (cfg : Config) (payload : List Byte) (s : State) : Body :=
  if s.klen = 0 then .raised ⟨.emptyKey, 0⟩ s
  else
    let tbl := keystream (keyBytes s) payload
    let s := { s with tbl := tbl, pp := 0, ecnt := 0, eidx := 0 }
    if tbl.length < Config.lenBytes then .raised ⟨.entryCountTruncated, tbl.length⟩ s
    else
      let count := unToc32 cfg (slice tbl 0 Config.lenBytes)
      extractLoop cfg count { s with ecnt := BitVec.ofNat 32 count, pp := BitVec.ofNat 32 Config.lenBytes }

/-- The end of an extracting command: `OUT_LEN <- 0` (R250, spec/46_api_commands.md R276). -/
def endExtract (s : State) : Body := .ok { s with out := [] }

/-- The start of an extracting command: `OUT_LEN <- 0; FOUT_CNT <- 0` (R250). -/
def startExtract (s : State) : State := { startOut s with foutCnt := 0 }

/-- What is left of a table extraction when the detokenizer halts inside an entry. -/
def resumeExtract (cfg : Config) (s : State) : Body :=
  ((afterTokens cfg s).andThen fun s => extractLoop cfg (s.ecnt.toNat - s.eidx.toNat) s).andThen endExtract

/-- `TBLX` (R250). -/
def tblxWith (cfg : Config) (s : State) : Host.Outcome State Fault Refusal :=
  .next ((tableExtract cfg (inBytes s) (startExtract s)).andThen endExtract).settle

/-- `TBLB` of the block. -/
def execTblb (s : State) : Host.Outcome State Fault Refusal := tblbWith Config.block s

/-- `TBLX` of the block. -/
def execTblx (s : State) : Host.Outcome State Fault Refusal := tblxWith Config.block s

end Sys2Proof.Machine
end

