-- ==== Sys2Proof/Machine/HeaderFramer.lean ====
section
/-! DEFINITION. The header framer (spec/43_header_framer.md; format: spec/30_encoding.md R100 to R102) and the commands
`HDRW` and `HDRR`. -/

namespace Sys2Proof.Machine

/-- `MAGIC[0], MAGIC[1], MAGIC[2], MAGIC[3]` (spec/20_memory.md R61). -/
def magicList (cfg : Config) : List Byte := [cfg.magic 0, cfg.magic 1, cfg.magic 2, cfg.magic 3]

/-- The key obfuscation, its own inverse (R201). -/
def obfuscate (cfg : Config) (k : List Byte) : List Byte := k.map (fun b => b ^^^ cfg.keyObf)

/-- The header of a key and a flag byte (R100, R200). -/
def headerBytes (cfg : Config) (k : List Byte) (flag : Byte) : List Byte :=
  magicList cfg ++ BitVec.ofNat 8 k.length :: (obfuscate cfg k ++ [flag])

/-- What a header read gives (R206). -/
structure Header where
  key : List Byte
  flagRaw : Byte
  hlen : Nat
  deriving DecidableEq, Repr

/-- The index of the first byte that differs, if one does (R203). -/
def firstDiff : Nat → List Byte → List Byte → Option Nat
  | j, a :: as, b :: bs => if a = b then firstDiff (j + 1) as bs else some j
  | _, _, _ => none

/-- `ReadHeader` (R203, R206): three checks in this order, then the fields. -/
def readHeader (cfg : Config) (src : List Byte) : Except Raise Header :=
  if src.length < Config.minHeader then .error ⟨.headerTooShort, src.length⟩
  else
    match firstDiff 0 (magicList cfg) src with
    | some j => .error ⟨.invalidMagic, j⟩
    | none =>
      let klen := (src.getD Config.magicBytes 0).toNat
      if src.length < Config.minHeader + klen then .error ⟨.headerTruncated, Config.minHeader + klen⟩
      else
        .ok
          { key := obfuscate cfg (slice src (Config.magicBytes + Config.klenBytes) klen)
            flagRaw := src.getD (Config.magicBytes + Config.klenBytes + klen) 0
            hlen := Config.minHeader + klen }

/-- The registers a successful header read writes (R206). -/
def storeHeader (cfg : Config) (h : Header) (s : State) : State :=
  { setKey h.key s with
    flagRaw := h.flagRaw
    flag := BitVec.ofBool (flagDecode cfg h.flagRaw)
    hlen := BitVec.ofNat 9 h.hlen }

/-- `ReadHeader` on `IN`: nothing is written until all three checks have passed (R205). -/
def loadHeader (cfg : Config) (s : State) : Body :=
  bodyOf (readHeader cfg (inBytes s)) s (fun h => storeHeader cfg h s)

/-- Writes the header of the key in `KEY` with a flag byte to `OUT`, and its length to `HLEN` (R200; spec/46_api_commands.md
R271, R275). -/
def writeHeader (cfg : Config) (flag : Byte) (s : State) : Body :=
  (appendOut cfg 0 (headerBytes cfg (keyBytes s) flag) s).andThen fun s =>
    .ok { s with hlen := BitVec.ofNat 9 (Config.minHeader + s.klen.toNat) }

/-- `HDRW` (R200); the empty key is accepted. -/
def hdrwWith (cfg : Config) (s : State) : Host.Outcome State Fault Refusal :=
  .next (writeHeader cfg (s.flag.setWidth 8) (startOut s)).settle

/-- `HDRR` (R202): the bytes after the header are delivered in `OUT`; a header that does not read writes no operand and no
result register. -/
def hdrrWith (cfg : Config) (s : State) : Host.Outcome State Fault Refusal :=
  .next
    (match readHeader cfg (inBytes s) with
      | .error r => abortUnwritten r (startOut s)
      | .ok h => (appendOut cfg 0 ((inBytes s).drop h.hlen) (storeHeader cfg h (startOut s))).settle)

/-- `HDRW` of the block. -/
def execHdrw (s : State) : Host.Outcome State Fault Refusal := hdrwWith Config.block s

/-- `HDRR` of the block. -/
def execHdrr (s : State) : Host.Outcome State Fault Refusal := hdrrWith Config.block s

end Sys2Proof.Machine
end

