-- ==== Sys2Proof/Machine/Api.lean ====
section
/-! DEFINITION. The API commands (spec/46_api_commands.md): `CFILE`, `DFILE`, `BFOLD`, `XFOLD`, `RHDR`. -/

namespace Sys2Proof.Machine

/-- An archive from the header's flag byte and a payload: header, `HLEN`, payload (R271, R275). -/
def archiveBody (cfg : Config) (flag : Byte) (payload : List Byte) (s : State) : Body :=
  if Config.minHeader + s.klen.toNat + payload.length > cfg.bufCap.toNat then .raised ⟨.lengthOverflow, 0⟩ s
  else (writeHeader cfg flag s).andThen (appendOut cfg 0 payload)

/-- `CFILE` (R270, R271). -/
def cfileWith (cfg : Config) (s : State) : Host.Outcome State Fault Refusal :=
  let s := startOut s
  .next
    ((bodyOf (payloadCompress cfg (keyBytes s) (inBytes s)) s (fun p => storePayload p s)).andThen fun s =>
      archiveBody cfg 0x00 s.wrk s).settle

/-- The key `DFILE` decrypts with (R272, R273): the header's, or the operand's put back, where R272's pseudocode has it. An error
raised after it leaves that key in `KEY` and `KLEN`, although spec/60_exceptions.md R316 speaks of the header's (log 27). -/
def chooseKey (cfg : Config) (operand : List Byte) (s : State) : State :=
  match cfg.decompKeySource with
  | .header => s
  | .operand => setKey operand s

/-- `DFILE` (R272). -/
def dfileWith (cfg : Config) (s : State) : Host.Outcome State Fault Refusal :=
  let kop := keyBytes s
  .next
    ((loadHeader cfg (startOut s)).andThen fun s =>
      if s.flag = 1 then .raised ⟨.notFileArchive, s.flagRaw.toNat⟩ s
      else
        let s := chooseKey cfg kop s
        payloadDecompress cfg ((inBytes s).drop s.hlen.toNat) s).settle

/-- `BFOLD` (R274, R275). -/
def bfoldWith (cfg : Config) (s : State) : Host.Outcome State Fault Refusal :=
  match finRecords s with
  | none => .refused .finRecordMissing
  | some recs =>
    .next ((buildBody cfg recs (startOut s)).andThen fun s => archiveBody cfg 0x01 s.tbl s).settle

/-- `XFOLD` (R276). -/
def xfoldWith (cfg : Config) (s : State) : Host.Outcome State Fault Refusal :=
  .next
    (((loadHeader cfg (startExtract s)).andThen fun s =>
        if s.flag = 0 then .raised ⟨.notFolderArchive, s.flagRaw.toNat⟩ s
        else tableExtract cfg ((inBytes s).drop s.hlen.toNat) s).andThen endExtract).settle

/-- `RHDR` (R278): the header registers, nothing in `OUT`. -/
def rhdrWith (cfg : Config) (s : State) : Host.Outcome State Fault Refusal :=
  .next (loadHeader cfg (startOut s)).settle

/-- `CFILE` of the block. -/
def execCfile (s : State) : Host.Outcome State Fault Refusal := cfileWith Config.block s

/-- `DFILE` of the block. -/
def execDfile (s : State) : Host.Outcome State Fault Refusal := dfileWith Config.block s

/-- `BFOLD` of the block. -/
def execBfold (s : State) : Host.Outcome State Fault Refusal := bfoldWith Config.block s

/-- `XFOLD` of the block. -/
def execXfold (s : State) : Host.Outcome State Fault Refusal := xfoldWith Config.block s

/-- `RHDR` of the block. -/
def execRhdr (s : State) : Host.Outcome State Fault Refusal := rhdrWith Config.block s

end Sys2Proof.Machine
end

