-- ==== Sys2Proof/Machine/Dispatch.lean ====
section
/-! DEFINITION. One arm for each instruction. -/

namespace Sys2Proof.Machine

def exec (i : Instr) (s : State) : Host.Outcome State Fault Refusal :=
  match i with
  -- token instructions (spec/40_match_codec.md R133 to R136)
  | .lit raw => Sys2Proof.Machine.execLit raw s
  | .matchRef lm3 off => Sys2Proof.Machine.execMatch lm3 off s
  -- component commands (spec/30_encoding.md R110)
  | .menc => Sys2Proof.Machine.execMenc s
  | .mdec => Sys2Proof.Machine.execMdec s
  | .eenc => Sys2Proof.Machine.execEenc s
  | .edec => Sys2Proof.Machine.execEdec s
  | .ksx => Sys2Proof.Machine.execKsx s
  | .hdrw => Sys2Proof.Machine.execHdrw s
  | .hdrr => Sys2Proof.Machine.execHdrr s
  | .fpc => Sys2Proof.Machine.execFpc s
  | .fpd => Sys2Proof.Machine.execFpd s
  | .tblb => Sys2Proof.Machine.execTblb s
  | .tblx => Sys2Proof.Machine.execTblx s
  -- API commands (spec/46_api_commands.md)
  | .cfile => Sys2Proof.Machine.execCfile s
  | .dfile => Sys2Proof.Machine.execDfile s
  | .bfold => Sys2Proof.Machine.execBfold s
  | .xfold => Sys2Proof.Machine.execXfold s
  | .rhdr => Sys2Proof.Machine.execRhdr s

end Sys2Proof.Machine
end

