-- ==== Sys2Proof/Machine/HostPort.lean ====
section
/-! DEFINITION. The host's accesses to registers, windows, `FIN` records and reset (spec/10_state.md R38, R40 to R42;
spec/70_reset_and_hazards.md R340, R347). -/

namespace Sys2Proof.Machine

/-- The register number of `STATUS` (R38). -/
def statusReg : Nat := 1

/-- Whether a number is one of `KEY[0..254]` (R38: 256 to 510). -/
def isKeyReg (no : Nat) : Bool := decide (256 ≤ no ∧ no < 256 + Config.keyRegs)

/-- What a register holds, by its number (R38); `none` for a number the table does not list. -/
def regValue (s : State) (no : Nat) : Option Word :=
  match no with
  | 0 => some (s.cmd.setWidth 32)
  | 1 => some (s.status.code.setWidth 32)
  | 2 => some (s.errKind.setWidth 32)
  | 3 => some (s.errCause.setWidth 32)
  | 4 => some s.errInfo
  | 5 => some (s.klen.setWidth 32)
  | 6 => some (s.flag.setWidth 32)
  | 7 => some (s.flagRaw.setWidth 32)
  | 8 => some s.expLen
  | 9 => some s.inLen
  | 10 => some (outLen s)
  | 11 => some (s.hlen.setWidth 32)
  | 12 => some s.tokLen
  | 13 => some s.finCnt
  | 14 => some s.foutCnt
  | no => if isKeyReg no then some ((readKey s (no - 256)).setWidth 32) else none

/-- A host write of a register (R38): a write of `CMD` starts a command (R39); a register the host may only read and an
unlisted number ignore the write. A value wider than its register keeps its low bits (log 8). -/
def hostWriteReg (no : Nat) (v : Word) (s : State) : State :=
  match no with
  | 0 => startCommand (v.setWidth 8) s
  | 5 => { s with klen := v.setWidth 8 }
  | 6 => { s with flag := v.setWidth 1 }
  | 8 => { s with expLen := v }
  | 9 => { s with inLen := v }
  | 13 => { s with finCnt := v }
  | no => if isKeyReg no then { s with key := setEntry s.key (no - 256) (v.setWidth 8) } else s

/-- A host read of a register; an unlisted number returns an unspecified value (R38), a fresh one each time (log 22). -/
def hostReadReg (no : Nat) (s : State) : State :=
  match regValue s no with
  | some v => { s with hostData := v }
  | none => { s with hostData := Config.unspecifiedWord .hostRead s.draws, draws := s.draws + 1 }

/-- A host read of the window `OUT` (R38). -/
def hostReadOut (a : Nat) (s : State) : State := { s with hostData := (readOut s a).setWidth 32 }

/-- What one access of the host does; the records that a running command has emitted when a reset lands inside it are
`emittedBefore` of Fetch.lean. A byte of `IN` is stored and read at every index, below `IN_LEN` or not (log 28). A record longer than `BUF_CAP` cannot be supplied (R41; log 13). -/
def hostAccess (a : HostAccess) (s : State) : Host.Outcome State Fault Refusal :=
  match a with
  | .writeReg no v => .next (hostWriteReg no v s)
  | .readReg no => .next (hostReadReg no s)
  | .writeIn i b => .next { s with inMem := setEntry s.inMem i.toNat b }
  | .readIn i => .next { s with hostData := (readIn s i.toNat).setWidth 32 }
  | .writeOut _ _ => .next s
  | .readOut i => .next (hostReadOut i.toNat s)
  | .writeFin i r =>
    if r.path.length > Config.block.bufCap.toNat ∨ r.data.length > Config.block.bufCap.toNat then
      .refused .finRecordTooLong
    else .next { s with fin := setEntry s.fin i.toNat r }
  | .reset => .next (resetTo s.pending s)
  | .resetDuring _ => .next (resetTo s.pending s)

/-- The accesses that are served at any moment, `BUSY` or not: reset (R340) and a read of `STATUS` (R347). -/
def servedWhileBusy : HostAccess → Bool
  | .reset => true
  | .resetDuring _ => true
  | .readReg no => decide (no = statusReg)
  | .writeReg _ _ => false
  | .writeIn _ _ => false
  | .readIn _ => false
  | .writeOut _ _ => false
  | .readOut _ => false
  | .writeFin _ _ => false

/-- The access the host makes now, if it may make one: any when the engine is not busy, else only one of those (R347: the
others wait). -/
def nextAccess (s : State) : Option (HostAccess × List HostAccess) :=
  match s.pending with
  | [] => none
  | a :: rest =>
    if s.status = .busy then (if servedWhileBusy a then some (a, rest) else none) else some (a, rest)

end Sys2Proof.Machine
end

