-- ==== Sys2Proof/Machine/Fetch.lean ====
section
/-! DEFINITION. The engine's fetch: a command from `CMD` (spec/30_encoding.md R110 to R112), a token at `TP`
(spec/40_match_codec.md R131, R132), and what the engine does with it. -/

namespace Sys2Proof.Machine

/-- The command in `CMD`. -/
def fetchCommand (s : State) : Except DecodeReject Instr := decodeCommand s.cmd

/-- The token at `TP` of a token buffer. -/
def fetchToken (s : State) (src : TokenSource) : Except DecodeReject (Instr × List Byte) :=
  decodeToken ((tokenBytes s src).drop s.tp.toNat)

/-- The engine at a command: its meaning, or the abort of an illegal code (R112). -/
def stepCommand (s : State) : Host.Outcome State Fault Refusal :=
  match fetchCommand s with
  | .ok i => exec i s
  | .error _ => .next (abortIllegal s)

/-- The detokenizer's halt (R131): the command ends, or the table extraction goes on. -/
def haltTokens (next : After) (s : State) : State :=
  match next with
  | .command => finish s
  | .entry _ _ => (resumeExtract Config.block s).settle

/-- The engine at the token grain (R131): the halt at the end of the buffer, else the token at `TP`, or its error when it is
truncated. A `TP` beyond the end is a state R30 excludes. -/
def stepTokens (src : TokenSource) (next : After) (s : State) : Host.Outcome State Fault Refusal :=
  let n := tokenLen s src
  if s.tp.toNat = n then .next (haltTokens next s)
  else if s.tp.toNat > n then .fault .tokenPointerPastEnd
  else
    match fetchToken s src with
    | .ok (i, _) => exec i s
    | .error e => .next (detokBody s (.error (tokenReject s.tp.toNat e))).resume

/-- The engine's step while `STATUS = BUSY`. -/
def engineStep (s : State) : Host.Outcome State Fault Refusal :=
  match s.run with
  | .fetch => stepCommand s
  | .tokens src next => stepTokens src next s

/-- The records emitted so far when a reset lands inside the running command at the moment it has emitted `k` of its own, or
at its end when it emits fewer (spec/70_reset_and_hazards.md R340: "records it already emitted on `FOUT` stay emitted"). -/
def emittedBefore (k : Nat) (s : State) : List FoutRecord :=
  if s.status = .busy then
    match engineStep s with
    | .next t => t.fout.take (s.fout.length + k)
    | .fault _ => s.fout
    | .refused _ => s.fout
  else s.fout

/-- An access is served: what the running command did before it, then the access. A reset inside a command leaves behind the
free values that the command may have drawn for its emissions. -/
def serveAccess (a : HostAccess) (rest : List HostAccess) (s : State) : Host.Outcome State Fault Refusal :=
  match a with
  | .resetDuring k => hostAccess a { s with pending := rest, fout := emittedBefore k s, draws := s.draws + k }
  | a => hostAccess a { s with pending := rest }

/-- The command code at `CMD`, ready to run. -/
def placeCommand (code : Byte) (s : State) : State :=
  { s with
    cmd := code
    status := .busy
    run := .fetch
    pending := s.pending.dropWhile servedWhileBusy }

/-- Token bytes at `TP = 0` of `IN`, ready to run. -/
def placeToken (bytes : List Byte) (s : State) : State :=
  { s with
    inMem := writeBytes s.inMem 0 bytes
    inLen := if s.inLen.toNat < bytes.length then BitVec.ofNat 32 bytes.length else s.inLen
    tp := 0
    status := .busy
    run := .tokens .input .command
    pending := s.pending.dropWhile servedWhileBusy }

/-- The bytes of the instruction a table word stands for, and the state in which it runs next (log 15). -/
def placeTableWord (nbits w : Nat) (s : State) : State :=
  match decodeTableWord nbits w with
  | some i =>
    match i.space with
    | .command => placeCommand (byteOfWord w 0) s
    | .token => placeToken (encode i) s
  | none => placeCommand (byteOfWord w 0) s

end Sys2Proof.Machine
end

