-- ==== Sys2Proof/Machine/Step.lean ====
section
/-! DEFINITION. One step of the machine. -/

namespace Sys2Proof.Machine

/-- One step: a host access that may be made now (spec/70_reset_and_hazards.md R340, R347), else the engine's step while it
is busy; otherwise the engine waits (spec/10_state.md R47). -/
def step (s : State) : Host.Outcome State Fault Refusal :=
  match nextAccess s with
  | some (a, rest) => serveAccess a rest s
  | none => if s.status = .busy then engineStep s else .next s

/-- `s` with an instruction stored where `step` fetches next: a command in `CMD`, a token at `TP` of `IN` (log 15). -/
def State.withFetchWord (s : State) (nbits w : Nat) : State := placeTableWord nbits w s

end Sys2Proof.Machine
end

