-- ==== Sys2Proof/Safety.lean ====
section
/-! DEFINITION. What the claims are stated in: how a command ends (spec/70_reset_and_hazards.md R356), what an abort leaves
(spec/60_exceptions.md R315, R316), the causes each command can raise (R302), what a token program produces, what a table
extraction gives, what the block keeps between commands, and the invariant of the machine. -/

namespace Sys2Proof.Machine

/-- A run of a command ended well: then, and only then, its result stands (R356). -/
def EndedWell (s : State) : Prop := s.status = .done

/-- It ended badly (R356). -/
def EndedBadly (s : State) : Prop := s.status = .error

/-- `t` is the state an abort leaves when the error `c` with datum `info` was raised and the registers the command does not
take back stood as in `s` (R315, R316): the status and error registers, `OUT_LEN = 0`, and what keeps its value. What R316
calls unspecified (`TOKLEN`, `EXPLEN`, the internal buffers and cursors) is left open. -/
structure Aborted (c : Cause) (info : Nat) (s t : State) : Prop where
  status : t.status = .error
  errKind : t.errKind = c.kind.code
  errCause : t.errCause = c.code
  errInfo : t.errInfo = BitVec.ofNat 32 info
  out : t.out = []
  run : t.run = .fetch
  cmd : t.cmd = s.cmd
  inMem : t.inMem = s.inMem
  inLen : t.inLen = s.inLen
  fin : t.fin = s.fin
  finCnt : t.finCnt = s.finCnt
  key : t.key = s.key
  klen : t.klen = s.klen
  flag : t.flag = s.flag
  flagRaw : t.flagRaw = s.flagRaw
  hlen : t.hlen = s.hlen
  foutCnt : t.foutCnt = s.foutCnt
  fout : t.fout = s.fout
  pending : t.pending = s.pending
  hostData : t.hostData = s.hostData
  epoch : t.epoch = s.epoch
  outRun : t.outRun = s.outRun

/-- Executing `i` in `s` aborts with that cause and datum. -/
def Aborts (i : Instr) (s : State) (c : Cause) (info : Nat) : Prop := ∃ t, exec i s = .next t ∧ Aborted c info s t

/-- The step from `s` aborts with that cause and datum. -/
def StepAborts (s : State) (c : Cause) (info : Nat) : Prop := ∃ t, step s = .next t ∧ Aborted c info s t

/-- What the block keeps between commands (spec/10_state.md R45): the internal buffers, the cursors and the tokenizer's
places are put out of sight. -/
def State.kept (s : State) : State :=
  { s with
    tok := []
    ent := []
    wrk := []
    tbl := []
    ht := HashTable.cleared
    litBuf := []
    ip := 0
    tp := 0
    pp := 0
    ecnt := 0
    eidx := 0
    run := .fetch }

/-- The causes each command can raise: the table of R302. A token instruction raises what the detokenizer raises (R133,
R134). -/
def allowedCauses : Instr → List Cause
  | .lit _ => [.literalTruncated, .lengthOverflow]
  | .matchRef _ _ => [.offsetTruncated, .badOffset, .lengthOverflow]
  | .menc => [.lengthOverflow]
  | .mdec => [.literalTruncated, .offsetTruncated, .badOffset, .lengthOverflow]
  | .eenc => [.entropyEncodeFailed, .lengthOverflow]
  | .edec => [.entropyDecodeFailed, .lengthOverflow]
  | .ksx => [.emptyKey]
  | .hdrw => []
  | .hdrr => [.headerTooShort, .invalidMagic, .headerTruncated]
  | .rhdr => [.headerTooShort, .invalidMagic, .headerTruncated]
  | .fpc => [.entropyEncodeFailed, .emptyKey, .lengthOverflow]
  | .fpd =>
    [.payloadTooShort, .literalTruncated, .offsetTruncated, .badOffset, .entropyDecodeFailed, .emptyKey, .lengthOverflow]
  | .tblb => [.entropyEncodeFailed, .hostReadError, .emptyKey, .lengthOverflow]
  | .tblx =>
    [.payloadTooShort, .literalTruncated, .offsetTruncated, .badOffset, .entryCountTruncated, .pathLengthTruncated,
     .pathTruncated, .origLenTruncated, .blockLengthTruncated, .blockTruncated, .entropyDecodeFailed, .hostWriteError,
     .emptyKey, .lengthOverflow]
  | .cfile => [.entropyEncodeFailed, .emptyKey, .lengthOverflow]
  | .dfile =>
    [.headerTooShort, .invalidMagic, .headerTruncated, .notFileArchive, .payloadTooShort, .literalTruncated,
     .offsetTruncated, .badOffset, .entropyDecodeFailed, .emptyKey, .lengthOverflow]
  | .bfold => [.entropyEncodeFailed, .hostReadError, .emptyKey, .lengthOverflow]
  | .xfold =>
    [.headerTooShort, .invalidMagic, .headerTruncated, .notFolderArchive, .payloadTooShort, .literalTruncated,
     .offsetTruncated, .badOffset, .entryCountTruncated, .pathLengthTruncated, .pathTruncated, .origLenTruncated,
     .blockLengthTruncated, .blockTruncated, .entropyDecodeFailed, .hostWriteError, .emptyKey, .lengthOverflow]

/-- How many bytes a token program produces (spec/40_match_codec.md R133, R135). -/
def produced : List Instr → Nat
  | [] => 0
  | .lit raw :: rest => raw.length + produced rest
  | .matchRef lm3 _ :: rest => lm3.toNat + 3 + produced rest
  | _ :: rest => produced rest

/-- A token program that a tokenizer can emit after `p` bytes (spec/40_match_codec.md R149, spec/30_encoding.md R96): no empty
`LIT`, no two `LIT`s in a row unless the first is full, every offset from 1 to the bytes produced before it. -/
def emittable : Nat → List Instr → Prop
  | _, [] => True
  | p, .lit raw :: rest =>
    1 ≤ raw.length ∧ raw.length ≤ 127 ∧ (∀ next tail, rest = .lit next :: tail → raw.length = 127) ∧
      emittable (p + raw.length) rest
  | p, .matchRef lm3 off :: rest => 1 ≤ off.toNat ∧ off.toNat ≤ p ∧ emittable (p + (lm3.toNat + 3)) rest
  | _, _ :: _ => False

/-- `PayloadDecompress` as a function of the key and the payload (spec/44_file_payload.md R226): the length field and the file. -/
def fileOf (cfg : Config) (key payload : List Byte) : Except Raise (Nat × List Byte) :=
  match payloadUnpack cfg key payload with
  | .error r => .error r
  | .ok u =>
    match matchDecode cfg u.tok with
    | .error r => .error r
    | .ok data => .ok (u.len, data)

/-- A folder table in clear (spec/30_encoding.md R105): the count, then for each record, with what its compression left, its
path's length, its path, its token-stream length, its block's length and its block. -/
def clearTable (cfg : Config) (recs : List FinRecord) (ps : List Payload) : List Byte :=
  toc32 cfg recs.length ++
    (List.zipWith
      (fun (rec : FinRecord) (p : Payload) =>
        toc32 cfg rec.path.length ++ rec.path ++ toc32 cfg p.tz.dst.length ++ toc32 cfg p.wrk.length ++ p.wrk)
      recs ps).flatten

/-- What a table extraction gives: the records the host took, the last length field read, the error that stopped it. -/
structure Extraction where
  records : List FoutRecord
  lastLen : Option Nat
  stop : Option Raise
  deriving DecidableEq, Repr

/-- The extraction of the `n` entries from index `e` on at position `pp` of a table in clear, entry by entry
(spec/45_folder_payload.md R252 to R258, R260); the `k`-th emission asks the host at moment `draw + k`. -/
def extraction (cfg : Config) (key tbl : List Byte) : Nat → Nat → Nat → Nat → Option Nat → Extraction
  | 0, _, _, _, last => { records := [], lastLen := last, stop := none }
  | n + 1, e, pp, draw, last =>
    match parseEntry cfg tbl pp with
    | .error c => { records := [], lastLen := last, stop := some ⟨c, e⟩ }
    | .ok entry =>
      match fileOf cfg key entry.block with
      | .error r => { records := [], lastLen := last, stop := some ⟨r.cause, e⟩ }
      | .ok (len, data) =>
        if cfg.hostWrite draw entry.path data then
          let x := extraction cfg key tbl n (e + 1) (entry.start + entry.block.length) (draw + 1) (some len)
          { x with records := { path := entry.path, data := data } :: x.records }
        else { records := [], lastLen := some len, stop := some ⟨.hostWriteError, e⟩ }

/-- `t` is what an extracting command leaves when the table gave `x` and the registers stood as in `s`
(spec/45_folder_payload.md R250, R260): the records emitted and counted, no output, and either `DONE` with the last entry's
lengths in `TOKLEN` and `EXPLEN`, or the abort. -/
structure Extracted (x : Extraction) (s t : State) : Prop where
  fout : t.fout = s.fout ++ x.records
  foutCnt : t.foutCnt = BitVec.ofNat 32 x.records.length
  out : t.out = []
  ends :
    match x.stop with
    | some r => Aborted r.cause r.info { s with fout := t.fout, foutCnt := t.foutCnt } t
    | none =>
      t.kept =
        State.kept
          { s with
            status := .done
            out := []
            fout := t.fout
            foutCnt := t.foutCnt
            tokLen := (x.lastLen.map (BitVec.ofNat 32)).getD s.tokLen
            expLen := (x.lastLen.map (BitVec.ofNat 32)).getD s.expLen
            draws := s.draws + x.records.length }

/-- The invariant of the machine: every memory and table is in its canonical form within its space, every buffer within its
capacity (spec/20_memory.md R60), the error registers agree with `STATUS` (spec/10_state.md R39), `HLEN` is 0 or a header's
length (R36), the emitted records are at least those counted, and at the token grain the engine is busy, `TP` has not
passed the end (R30) and an entry being decompressed lies inside the table (R31). -/
structure State.Inv (s : State) : Prop where
  keyCanonical : Memory.wf Config.keyRegs s.key = true
  inCanonical : Memory.wf (2 ^ 32) s.inMem = true
  finCanonical : canonical (2 ^ 32) s.fin = true
  finBounded : ∀ e ∈ s.fin, e.2.path.length ≤ 2 ^ 32 - 1 ∧ e.2.data.length ≤ 2 ^ 32 - 1
  htCanonical : canonical Config.htSlots s.ht.cells = true
  outBounded : s.out.length ≤ 2 ^ 32 - 1
  tokBounded : s.tok.length ≤ 2 ^ 32 - 1
  entBounded : s.ent.length ≤ 2 ^ 32 - 1
  wrkBounded : s.wrk.length ≤ 2 ^ 32 - 1
  tblBounded : s.tbl.length ≤ 2 ^ 32 - 1
  litBufBounded : s.litBuf.length ≤ 126
  hlenRange : s.hlen = 0 ∨ (6 ≤ s.hlen.toNat ∧ s.hlen.toNat ≤ 261)
  errorRegs :
    (s.status = .error ∧ ∃ c : Cause, s.errKind = c.kind.code ∧ s.errCause = c.code) ∨
      (s.status ≠ .error ∧ s.errKind = 0 ∧ s.errCause = 0 ∧ s.errInfo = 0)
  foutCounted : s.foutCnt.toNat ≤ s.fout.length
  tokensBusy : s.run = .fetch ∨ s.status = .busy
  tpInside : ∀ src next, s.run = .tokens src next → s.tp.toNat ≤ tokenLen s src
  entryInside :
    ∀ src path blen, s.run = .tokens src (.entry path blen) →
      s.eidx.toNat < s.ecnt.toNat ∧ s.pp.toNat + blen ≤ s.tbl.length

end Sys2Proof.Machine
end

