-- ==== Sys2Proof/Certificates/Slice0/Obligations.lean ====
section
/-! DEFINITION. The statements for the provers. -/

open Sys2Proof Sys2Proof.Machine

/-! Encodings. -/

/-- A few encodings written out from spec/30_encoding.md R91, R92, R110 and R112 decode to what they stand for. -/
def Obligations.WrittenWordsDecode : Prop :=
  decodeToken [0x03, 0x61, 0x62, 0x63] = .ok (.lit [0x61, 0x62, 0x63], []) ∧
  decodeToken [0x00, 0x41] = .ok (.lit [], [0x41]) ∧
  decodeToken [0x86, 0x00, 0x01] = .ok (.matchRef 6 1, []) ∧
  decodeToken [0xFF, 0x12, 0x34, 0x56] = .ok (.matchRef 127 0x1234, [0x56]) ∧
  decodeCommand 0x01 = .ok .menc ∧ decodeCommand 0x0B = .ok .tblx ∧
  decodeCommand 0x10 = .ok .cfile ∧ decodeCommand 0x14 = .ok .rhdr ∧
  decodeCommand 0x00 = .error .illegalCommand ∧ decodeCommand 0x0C = .error .illegalCommand ∧
  decodeCommand 0x15 = .error .illegalCommand

/-- Decoding the encoding of a well-formed instruction gives it back, whatever follows. -/
def Obligations.DecodeOfEncodeIsIdentity : Prop :=
  ∀ (i : Instr) (rest : List Byte), i.wellFormed = true → decode i.space (encode i ++ rest) = .ok (i, rest)

/-- Whatever decodes is the encoding of the instruction it decodes to, which is well formed and of that space. -/
def Obligations.EncodeOfDecodeIsIdentity : Prop :=
  ∀ (sp : Space) (bytes rest : List Byte) (i : Instr), decode sp bytes = .ok (i, rest) →
    bytes = encode i ++ rest ∧ i.wellFormed = true ∧ i.space = sp

/-- R93: the length of a token follows from its command byte alone; R94: its operands; R95: every command byte is decoded when
its bytes are there, and the truncation is named when they are not. -/
def Obligations.TokenLengthAndOperands : Prop :=
  ∀ (c : Byte) (rest : List Byte),
    let len := if c.toNat < 128 then 1 + c.toNat else 3
    if len ≤ 1 + rest.length then
      ∃ i, decodeToken (c :: rest) = .ok (i, rest.drop (len - 1)) ∧ (encode i).length = len ∧
        (c.toNat < 128 → i = .lit (rest.take c.toNat)) ∧
        (128 ≤ c.toNat → ∃ lm3 off, i = .matchRef lm3 off ∧ matchLength lm3 = c.toNat - 128 + 3 ∧
          off.toNat = 256 * (rest.getD 0 0).toNat + (rest.getD 1 0).toNat)
    else decodeToken (c :: rest) = .error (if c.toNat < 128 then .literalTruncated else .offsetTruncated)

/-- R114: `LITSTR` produces its bytes, `NOPTOK` nothing, `RUN b, k` the byte `b` repeated `k` times. -/
def Obligations.PseudoInstructionsExpand : Prop :=
  (∀ bs : List Byte, bs.length ≤ Config.block.bufCap.toNat →
    matchDecode Config.block (encodeAll (litStr bs)) = .ok bs ∧
      (litStr bs).length = bs.length / 127 + (if bs.length % 127 = 0 then 0 else 1)) ∧
  encode nopTok = [0x00] ∧ matchDecode Config.block [0x00] = .ok [] ∧
  (∀ (b : Byte) (k : Nat), 4 ≤ k → k ≤ 131 →
    matchDecode Config.block (encodeAll (runTok b k)) = .ok (List.replicate k b))

/-! Fetch, the host, reset. -/

/-- While the engine is busy and no access of the host is served, the step is the execution of the instruction fetched: the
command in `CMD`, or the token at `TP`. -/
def Obligations.StepRunsDecodedInstruction : Prop :=
  (∀ (s : State) (i : Instr), s.status = .busy → nextAccess s = none → s.run = .fetch →
    decode .command [s.cmd] = .ok (i, []) → step s = exec i s) ∧
  (∀ (s : State) (src : TokenSource) (next : After) (i : Instr) (rest : List Byte),
    s.status = .busy → nextAccess s = none → s.run = .tokens src next →
    decode .token ((tokenBytes s src).drop s.tp.toNat) = .ok (i, rest) → step s = exec i s)

/-- R112: a code outside the table aborts at once and changes nothing else but `OUT_LEN`. -/
def Obligations.IllegalCommandAborts : Prop :=
  ∀ s : State, s.status = .busy → nextAccess s = none → s.run = .fetch →
    (s.cmd = 0x00 ∨ (0x0C ≤ s.cmd.toNat ∧ s.cmd.toNat ≤ 0x0F) ∨ 0x15 ≤ s.cmd.toNat) →
      step s =
        .next
          { s with
            status := .error
            errKind := 6
            errCause := 0x60
            errInfo := s.cmd.setWidth 32
            out := [] }

/-- R320: the host acknowledges by writing `CMD`, which clears the error registers and starts the command (`outRun` is the
model's own, log 22). With no access pending the engine stays as it is, and every other access of the host but a reset leaves
`STATUS`, `CMD` and the error registers alone. -/
def Obligations.CommandWriteAcknowledges : Prop :=
  (∀ (s : State) (code : Byte) (rest : List HostAccess), s.status ≠ .busy →
    s.pending = .writeReg 0 (code.setWidth 32) :: rest →
      step s =
        .next
          { s with
            cmd := code
            status := .busy
            errKind := 0
            errCause := 0
            errInfo := 0
            run := .fetch
            pending := rest
            outRun := s.outRun + 1 }) ∧
  (∀ s : State, s.status ≠ .busy → s.pending = [] → step s = .next s) ∧
  (∀ (s t : State) (a : HostAccess) (rest : List HostAccess), s.status ≠ .busy → s.pending = a :: rest →
    (∀ v, a ≠ .writeReg 0 v) → a ≠ .reset → (∀ k, a ≠ .resetDuring k) → step s = .next t →
      t.status = s.status ∧ t.cmd = s.cmd ∧ t.errKind = s.errKind ∧ t.errCause = s.errCause ∧ t.errInfo = s.errInfo)

/-- R38: a host write to a register the host may only read, or to an unlisted number, is ignored; an operand register the host
writes reads back as written, cut to its width (the cut is the model's, log 8), and no other register of the table changes,
nor any buffer. R38, R64, R68, R345: a host read of a listed register returns what the table says it holds and changes nothing
but the value last read; of an unlisted number it returns some value and the model's counter of draws alone advances (log 22).
Windows and records (R38, R41, R68): a byte written to `IN` reads back and nothing else changes, at every index, below `IN_LEN`
or not (the model's reading, log 28); `OUT` reads its
byte below `OUT_LEN`, and at every index the same byte twice (R64), with nothing else changed; a write to `OUT` is ignored (the
model's reading, log 26); a record is stored under its index. -/
def Obligations.HostRegisterWrites : Prop :=
  (∀ (s : State) (no : Nat) (v : Word) (rest : List HostAccess), s.status ≠ .busy →
    s.pending = .writeReg no v :: rest →
    (no ∈ [1, 2, 3, 4, 7, 10, 11, 12, 14] ∨ (15 ≤ no ∧ no ≤ 255) ∨ 511 ≤ no) →
      step s = .next { s with pending := rest }) ∧
  (∀ (s : State) (no width : Nat) (v : Word) (rest : List HostAccess), s.status ≠ .busy →
    s.pending = .writeReg no v :: .readReg no :: rest →
    ((no = 5 ∧ width = 8) ∨ (no = 6 ∧ width = 1) ∨ (no = 8 ∧ width = 32) ∨ (no = 9 ∧ width = 32) ∨
      (no = 13 ∧ width = 32) ∨ (256 ≤ no ∧ no ≤ 510 ∧ width = 8)) →
      ∃ t, core.run 2 s = .next t ∧ t.hostData.toNat = v.toNat % 2 ^ width ∧ t.pending = rest ∧
        (∀ other, other ≠ no → regValue t other = regValue s other) ∧
        (∀ a, readIn t a = readIn s a) ∧ t.out = s.out ∧ t.fin = s.fin ∧ t.fout = s.fout ∧
        t =
          { s with
            klen := t.klen
            flag := t.flag
            expLen := t.expLen
            inLen := t.inLen
            finCnt := t.finCnt
            key := t.key
            hostData := t.hostData
            pending := rest }) ∧
  (∀ (s : State) (no : Nat) (v : Word) (rest : List HostAccess), s.status ≠ .busy → s.pending = .readReg no :: rest →
    ((no, v) ∈
        [(0, s.cmd.setWidth 32),
         (1, match s.status with
          | .idle => 0
          | .busy => 1
          | .done => 2
          | .error => 3),
         (2, s.errKind.setWidth 32), (3, s.errCause.setWidth 32), (4, s.errInfo), (5, s.klen.setWidth 32),
         (6, s.flag.setWidth 32), (7, s.flagRaw.setWidth 32), (8, s.expLen), (9, s.inLen),
         (10, BitVec.ofNat 32 s.out.length), (11, s.hlen.setWidth 32), (12, s.tokLen), (13, s.finCnt), (14, s.foutCnt)] ∨
      (256 ≤ no ∧ no ≤ 510 ∧ v = (readKey s (no - 256)).setWidth 32)) →
      step s = .next { s with pending := rest, hostData := v }) ∧
  (∀ (s : State) (no : Nat) (rest : List HostAccess), s.status ≠ .busy → s.pending = .readReg no :: rest →
    ((15 ≤ no ∧ no ≤ 255) ∨ 511 ≤ no) →
      ∃ v, step s = .next { s with pending := rest, hostData := v, draws := s.draws + 1 }) ∧
  (∀ (s : State) (i : Word) (b : Byte) (rest : List HostAccess), s.status ≠ .busy →
    s.pending = .writeIn i b :: .readIn i :: rest →
      ∃ t, core.run 2 s = .next t ∧ t.hostData = b.setWidth 32 ∧
        t = { s with inMem := t.inMem, hostData := t.hostData, pending := rest } ∧
        ∀ a, readIn t a = if a = i.toNat then b else readIn s a) ∧
  (∀ (s : State) (i : Word) (rest : List HostAccess), s.status ≠ .busy →
    s.pending = .readOut i :: .readOut i :: rest →
      ∃ t u, step s = .next t ∧ step t = .next u ∧ u.hostData = t.hostData ∧
        (∀ b, s.out[i.toNat]? = some b → t.hostData = b.setWidth 32) ∧
        u = { s with hostData := u.hostData, pending := rest }) ∧
  (∀ (s : State) (i : Word) (b : Byte) (rest : List HostAccess), s.status ≠ .busy →
    s.pending = .writeOut i b :: rest → step s = .next { s with pending := rest }) ∧
  (∀ (s : State) (i : Word) (r : FinRecord) (rest : List HostAccess), s.status ≠ .busy →
    s.pending = .writeFin i r :: rest → r.path.length ≤ Config.block.bufCap.toNat →
    r.data.length ≤ Config.block.bufCap.toNat →
      ∃ t, step s = .next t ∧ t = { s with fin := t.fin, pending := rest } ∧
        ∀ e, getEntry t.fin e = if e = i.toNat then some r else getEntry s.fin e)

/-- R340, R46: reset at any moment, `BUSY` or not, puts the block in `IDLE` with every register R46 gives a value at that
value, and takes back no record already emitted. What R46 calls unspecified is left open. A reset that lands inside the
running command when it has emitted `k` records keeps the first `k` of those that the command emits, no more. -/
def Obligations.ResetAtAnyMoment : Prop :=
  ∀ (s : State) (a : HostAccess) (rest : List HostAccess), s.pending = a :: rest →
    (a = .reset ∨ ∃ k, a = .resetDuring k) →
    ∃ t, step s = .next t ∧ t.status = .idle ∧ t.cmd = 0 ∧ t.errKind = 0 ∧ t.errCause = 0 ∧ t.errInfo = 0 ∧
      t.klen = 0 ∧ t.flag = 0 ∧ t.flagRaw = 0 ∧ t.expLen = 0 ∧ t.hlen = 0 ∧ t.tokLen = 0 ∧ t.inLen = 0 ∧
      outLen t = 0 ∧ t.finCnt = 0 ∧ t.foutCnt = 0 ∧ t.fin = [] ∧ t.pending = rest ∧
      s.fout <+: t.fout ∧ (a = .reset → t.fout = s.fout) ∧
      (∀ k, a = .resetDuring k →
        (s.status ≠ .busy → t.fout = s.fout) ∧
        (s.status = .busy → s.run = .fetch → ∀ (i : Instr) (u : State), decodeCommand s.cmd = .ok i →
          exec i s = .next u → t.fout = u.fout.take (s.fout.length + k))) ∧
      (rest = [] → step t = .next t)

/-- R341, R47: the state after power-on holds the values R46 gives, and the engine waits for the host (no access is pending
there: log 21). -/
def Obligations.PowerOnValues : Prop :=
  State.reset.status = .idle ∧ State.reset.cmd = 0 ∧ State.reset.errKind = 0 ∧ State.reset.errCause = 0 ∧
  State.reset.errInfo = 0 ∧ State.reset.klen = 0 ∧ State.reset.flag = 0 ∧ State.reset.flagRaw = 0 ∧
  State.reset.expLen = 0 ∧ State.reset.hlen = 0 ∧ State.reset.tokLen = 0 ∧ State.reset.inLen = 0 ∧
  outLen State.reset = 0 ∧ State.reset.finCnt = 0 ∧ State.reset.foutCnt = 0 ∧ State.reset.fin = [] ∧
  step State.reset = .next State.reset

/-- R39: the only transitions of `STATUS` (R340 adds the way back to `IDLE`, which clears the error registers); they are cleared
at every `-> BUSY`, written at `BUSY -> ERROR` and otherwise left alone. -/
def Obligations.StatusTransitions : Prop :=
  ∀ s t : State, step s = .next t →
    (t.status = .idle ∧ (∃ a rest, s.pending = a :: rest ∧ (a = .reset ∨ ∃ k, a = .resetDuring k)) ∧
      t.errKind = 0 ∧ t.errCause = 0 ∧ t.errInfo = 0) ∨
    (t.status = .idle ∧ s.status = .idle ∧
      t.errKind = s.errKind ∧ t.errCause = s.errCause ∧ t.errInfo = s.errInfo) ∨
    (t.status = .busy ∧ s.status = .busy ∧ t.errKind = s.errKind ∧ t.errCause = s.errCause ∧ t.errInfo = s.errInfo) ∨
    (t.status = .busy ∧ s.status ≠ .busy ∧ (∃ v rest, s.pending = .writeReg 0 v :: rest) ∧
      t.errKind = 0 ∧ t.errCause = 0 ∧ t.errInfo = 0) ∨
    (t.status = .done ∧ (s.status = .busy ∨ s.status = .done) ∧
      t.errKind = s.errKind ∧ t.errCause = s.errCause ∧ t.errInfo = s.errInfo) ∨
    (t.status = .error ∧ s.status = .error ∧
      t.errKind = s.errKind ∧ t.errCause = s.errCause ∧ t.errInfo = s.errInfo) ∨
    (t.status = .error ∧ s.status = .busy ∧ ∃ c : Cause, t.errKind = c.kind.code ∧ t.errCause = c.code)

/-- R347: while `BUSY` a host access other than a read of `STATUS` (and reset, R340) has no move: it stays where it was. A read of
`STATUS` is served at any moment and returns its code (R38). -/
def Obligations.BusyAccessHasNoMove : Prop :=
  (∀ (s t : State) (a : HostAccess) (rest : List HostAccess), s.status = .busy → s.pending = a :: rest →
    a ≠ .reset → (∀ k, a ≠ .resetDuring k) → a ≠ .readReg 1 → step s = .next t →
      t.pending = s.pending ∧ t.hostData = s.hostData) ∧
  (∀ (s : State) (rest : List HostAccess), s.pending = .readReg 1 :: rest →
    step s =
      .next
        { s with
          pending := rest
          hostData :=
            (match s.status with
              | .idle => 0
              | .busy => 1
              | .done => 2
              | .error => 3) })

/-! Tokens. -/

/-- R133: the step at a `LIT` while the detokenizer runs for a command of its own. -/
def Obligations.LitStep : Prop :=
  ∀ (s : State) (src : TokenSource) (c : Byte), s.status = .busy → nextAccess s = none → s.run = .tokens src .command →
    (tokenBytes s src)[s.tp.toNat]? = some c → c.toNat < 128 →
      if s.tp.toNat + 1 + c.toNat > tokenLen s src then StepAborts s .literalTruncated s.tp.toNat
      else if s.out.length + c.toNat > Config.block.bufCap.toNat then StepAborts s .lengthOverflow s.tp.toNat
      else
        step s =
          .next
            { s with
              out := s.out ++ slice (tokenBytes s src) (s.tp.toNat + 1) c.toNat
              tp := BitVec.ofNat 32 (s.tp.toNat + 1 + c.toNat) }

/-- R134, R135, R136: the step at a `MATCH`: the checks in their order, then the copy in its closed form. -/
def Obligations.MatchStep : Prop :=
  ∀ (s : State) (src : TokenSource) (c : Byte), s.status = .busy → nextAccess s = none → s.run = .tokens src .command →
    (tokenBytes s src)[s.tp.toNat]? = some c → 128 ≤ c.toNat →
      let len := c.toNat - 128 + 3
      let off := 256 * ((tokenBytes s src).getD (s.tp.toNat + 1) 0).toNat +
        ((tokenBytes s src).getD (s.tp.toNat + 2) 0).toNat
      let o := s.out.length
      if s.tp.toNat + 3 > tokenLen s src then StepAborts s .offsetTruncated s.tp.toNat
      else if off = 0 ∨ off > o then StepAborts s .badOffset s.tp.toNat
      else if o + len > Config.block.bufCap.toNat then StepAborts s .lengthOverflow s.tp.toNat
      else
        step s =
          .next
            { s with
              out := s.out ++ (List.range len).map (fun k => s.out.getD (o - off + k % off) 0)
              tp := BitVec.ofNat 32 (s.tp.toNat + 3) }

/-- R133, R303: executing `LIT`: its result and frame, or its error; inside a table entry the datum is the entry's index. -/
def Obligations.LitExecutes : Prop :=
  ∀ (s : State) (raw : List Byte) (info : Nat),
    info = (match s.run with
      | .tokens _ (.entry _ _) => s.eidx.toNat
      | _ => s.tp.toNat) →
    if s.tp.toNat + 1 + raw.length > tokenLen s (runSource s) then Aborts (.lit raw) s .literalTruncated info
    else if s.out.length + raw.length > Config.block.bufCap.toNat then Aborts (.lit raw) s .lengthOverflow info
    else
      exec (.lit raw) s =
        .next { s with out := s.out ++ raw, tp := BitVec.ofNat 32 (s.tp.toNat + 1 + raw.length) }

/-- R134 to R136, R303: executing `MATCH`: its result in closed form and its frame, or its error. -/
def Obligations.MatchExecutes : Prop :=
  ∀ (s : State) (lm3 : BitVec 7) (off : BitVec 16) (info : Nat),
    info = (match s.run with
      | .tokens _ (.entry _ _) => s.eidx.toNat
      | _ => s.tp.toNat) →
    let len := lm3.toNat + 3
    let o := s.out.length
    if s.tp.toNat + 3 > tokenLen s (runSource s) then Aborts (.matchRef lm3 off) s .offsetTruncated info
    else if off.toNat = 0 ∨ off.toNat > o then Aborts (.matchRef lm3 off) s .badOffset info
    else if o + len > Config.block.bufCap.toNat then Aborts (.matchRef lm3 off) s .lengthOverflow info
    else
      exec (.matchRef lm3 off) s =
        .next
          { s with
            out := s.out ++ (List.range len).map (fun k => s.out.getD (o - off.toNat + k % off.toNat) 0)
            tp := BitVec.ofNat 32 (s.tp.toNat + 3) }

/-- R131, R356: the detokenizer ends well exactly when `TP` is the length of the token buffer. -/
def Obligations.DetokenizerEndsExactlyAtTheEnd : Prop :=
  ∀ (s : State) (src : TokenSource), s.status = .busy → nextAccess s = none → s.run = .tokens src .command →
    s.tp.toNat ≤ tokenLen s src →
      (s.tp.toNat = tokenLen s src → step s = .next { s with status := .done, run := .fetch }) ∧
      (s.tp.toNat < tokenLen s src → ∀ t, step s = .next t → t.status ≠ .done)

/-- R130, R131, R150: `MDEC` as one step is the token steps from `TP = 0` to their end. -/
def Obligations.MdecIsItsTokenSteps : Prop :=
  ∀ s : State, s.status = .busy → s.pending = [] →
    core.run (s.inLen.toNat + 1) { s with out := [], tp := 0, run := .tokens .input .command } = exec .mdec s

/-- R150: `MDEC` answers `Decode(IN)`, or the error of the first failing token. -/
def Obligations.MdecAnswersDecode : Prop :=
  ∀ s : State,
    match matchDecode Config.block (inBytes s) with
    | .ok bytes =>
      exec .mdec s = .next { s with out := bytes, tp := s.inLen, status := .done, run := .fetch }
    | .error r => Aborts .mdec s r.cause r.info

/-- R137: the decoded length is at most 130/3 of the stream's, and the stream `01 b` with `m` tokens `FF 00 01` reaches
`1 + 130 m`. -/
def Obligations.DecodedLengthBound : Prop :=
  (∀ (cfg : Config) (T bytes : List Byte), matchDecode cfg T = .ok bytes → 3 * bytes.length ≤ 130 * T.length) ∧
  (∀ (b : Byte) (m : Nat), 1 + 130 * m ≤ Config.block.bufCap.toNat →
    matchDecode Config.block ([0x01, b] ++ (List.replicate m [0xFF, 0x00, 0x01]).flatten) =
      .ok (List.replicate (1 + 130 * m) b))

/-! The tokenizer. -/

/-- R140, R149: `MENC` on an input whose doubled length fits emits a stream of at most twice the input's length; on any input it
emits its stream or raises the capacity error; and that error is raised exactly when the stream would exceed `BUF_CAP`,
whatever the capacity. -/
def Obligations.MencCompletes : Prop :=
  (∀ s : State, 2 * s.inLen.toNat ≤ Config.block.bufCap.toNat →
    ∃ T ht, matchEncode Config.block (inBytes s) = .ok T ∧ T.length ≤ 2 * s.inLen.toNat ∧
      exec .menc s =
        .next { s with out := T, ht := ht, litBuf := [], ip := s.inLen, status := .done, run := .fetch }) ∧
  (∀ s : State,
    match matchEncode Config.block (inBytes s) with
    | .error _ => Aborts .menc s .lengthOverflow 0
    | .ok T =>
      ∃ ht,
        exec .menc s =
          .next { s with out := T, ht := ht, litBuf := [], ip := s.inLen, status := .done, run := .fetch }) ∧
  (∀ (cfg : Config) (cap : Word) (B T : List Byte), matchEncode { cfg with bufCap := cap } B = .ok T →
    matchEncode cfg B = if T.length ≤ cfg.bufCap.toNat then .ok T else .error ⟨.lengthOverflow, 0⟩)

/-- R149, R96: what the tokenizer emits, whatever the hash function and the treatment of skipped positions; R153: the example of
ten equal bytes. R142 to R148, R154: its step. The slot of the three bytes at `IP` is read and then holds `IP`; its candidate is used when it lies 1 to
65535 back; the match is the longest that is equal, at most 130 and inside the input; a `MATCH` is emitted exactly when it
reaches 3, behind the pending literals, else one literal is taken, a run of 127 being emitted; the skipped positions enter
the table, the last of each slot staying, when `INSERT_SKIPPED` says so. -/
def Obligations.EncodeEmitsLegalStream : Prop :=
  (∀ (cfg : Config) (B T : List Byte), matchEncode cfg B = .ok T →
    ∃ prog, T = encodeAll prog ∧ emittable 0 prog ∧ produced prog = B.length ∧ T.length ≤ 2 * B.length) ∧
  (∀ (cfg : Config) (b : Byte), 5 ≤ cfg.bufCap.toNat →
    matchEncode cfg (List.replicate 10 b) = .ok [0x01, b, 0x86, 0x00, 0x01]) ∧
  (∀ (cfg : Config) (src : List Byte) (t : Tokenizer), t.ip < src.length →
    let n := src.length
    let h := hashAt cfg src t.ip
    let len := (searchMatch cfg src t).1
    let off := (searchMatch cfg src t).2.1
    let ht := (searchMatch cfg src t).2.2
    (n < t.ip + 3 → len = 0 ∧ ht = t.ht) ∧
    (t.ip + 3 ≤ n →
      (∀ i, ht.slot i = if i = h then some (BitVec.ofNat 32 t.ip) else t.ht.slot i) ∧
      match t.ht.slot h with
      | none => len = 0
      | some cand =>
        if 1 ≤ t.ip - cand.toNat ∧ t.ip - cand.toNat ≤ 65535 then
          off = t.ip - cand.toNat ∧ len ≤ min 130 (n - t.ip) ∧
            (∀ k, k < len → src.getD (cand.toNat + k) 0 = src.getD (t.ip + k) 0) ∧
            (len < min 130 (n - t.ip) → src.getD (cand.toNat + len) 0 ≠ src.getD (t.ip + len) 0)
        else len = 0) ∧
    (t.dst.length + t.litBuf.length + 4 ≤ cfg.bufCap.toNat → ∃ t', tokenizerStep cfg src t = .ok t') ∧
    (∀ t', tokenizerStep cfg src t = .ok t' →
      if 3 ≤ len then
        t'.dst = t.dst ++ (if t.litBuf = [] then [] else encode (.lit t.litBuf)) ++
          encode (.matchRef (BitVec.ofNat 7 (len - 3)) (BitVec.ofNat 16 off)) ∧
        t'.litBuf = [] ∧ t'.ip = t.ip + len ∧
        (cfg.insertSkipped = false → t'.ht = ht) ∧
        (cfg.insertSkipped = true →
          let skipped := fun j => t.ip < j ∧ j < t.ip + len ∧ j + 3 ≤ n
          (∀ i, (∀ j, skipped j → hashAt cfg src j ≠ i) → t'.ht.slot i = ht.slot i) ∧
          (∀ j, skipped j → (∀ j', skipped j' → j < j' → hashAt cfg src j' ≠ hashAt cfg src j) →
            t'.ht.slot (hashAt cfg src j) = some (BitVec.ofNat 32 j)))
      else
        t'.ip = t.ip + 1 ∧ t'.ht = ht ∧
        let run := t.litBuf ++ [src.getD t.ip 0]
        if run.length = 127 then t'.dst = t.dst ++ encode (.lit run) ∧ t'.litBuf = []
        else t'.dst = t.dst ∧ t'.litBuf = run))

/-- R152: decoding an encoding gives the bytes back, for every hash function and either treatment of skipped positions; so
`MENC` and then `MDEC` on its output restore the input. -/
def Obligations.DecodeOfEncodeRestoresBytes : Prop :=
  (∀ (cfg : Config) (B T : List Byte), B.length ≤ cfg.bufCap.toNat → matchEncode cfg B = .ok T →
    matchDecode cfg T = .ok B) ∧
  (∀ s t u : State, exec .menc s = .next t → t.status = .done → inBytes u = t.out →
    ∃ v, exec .mdec u = .next v ∧ v.status = .done ∧ v.out = inBytes s)

/-! The entropy adapter. -/

/-- R174: `EENC` delivers exactly the coder's answer. -/
def Obligations.EencDeliversCodersAnswer : Prop :=
  ∀ s : State,
    match Config.block.entropyEnc (inBytes s) with
    | none => Aborts .eenc s .entropyEncodeFailed 0
    | some y =>
      if y.length > Config.block.bufCap.toNat then Aborts .eenc s .lengthOverflow 0
      else exec .eenc s = .next { s with out := y, status := .done, run := .fetch }

/-- R176: `EDEC` asks for exactly `EXPLEN` bytes and delivers exactly them. -/
def Obligations.EdecDeliversExactSize : Prop :=
  ∀ s : State,
    if s.expLen.toNat > Config.block.bufCap.toNat then Aborts .edec s .lengthOverflow s.expLen.toNat
    else
      match entropyDec Config.block (inBytes s) s.expLen.toNat with
      | none => Aborts .edec s .entropyDecodeFailed s.expLen.toNat
      | some z =>
        z.length = s.expLen.toNat ∧ exec .edec s = .next { s with out := z, status := .done, run := .fetch }

/-! The keystream. -/

/-- R190, R191: each byte of `KSX`; the empty key is the only failure (R193, R196). -/
def Obligations.KsxTransformsEachByte : Prop :=
  ∀ s : State,
    if s.klen = 0 then Aborts .ksx s .emptyKey 0
    else
      exec .ksx s =
        .next
          { s with
            out := (List.range s.inLen.toNat).map
              (fun i => readIn s i ^^^ readKey s (i % s.klen.toNat) ^^^ BitVec.ofNat 8 (i % 256))
            status := .done
            run := .fetch }

/-- R194: `KSX` is its own inverse. -/
def Obligations.KsxIsSelfInverse : Prop :=
  ∀ s t u : State, s.klen ≠ 0 → exec .ksx s = .next t → inBytes u = t.out → keyBytes u = keyBytes s →
    ∃ v, exec .ksx u = .next v ∧ v.status = .done ∧ v.out = inBytes s

/-- R192: the keystream alone has the period `lcm(KLEN, 256)`, and the transform is the exclusive or with it. -/
def Obligations.KeystreamIsPeriodic : Prop :=
  ∀ key : List Byte, key ≠ [] →
    (∀ i, ksByte key (i + Nat.lcm key.length 256) = ksByte key i) ∧
    (∀ (data : List Byte) (i : Nat), (keystream key data)[i]? = data[i]?.map (· ^^^ ksByte key i))

/-- R193, R222: the empty key is rejected whatever the data are; `TBLX` has then cleared `FOUT_CNT` (R250). -/
def Obligations.EmptyKeyRejected : Prop :=
  ∀ s : State, s.klen = 0 →
    Aborts .ksx s .emptyKey 0 ∧ Aborts .fpc s .emptyKey 0 ∧ Aborts .fpd s .emptyKey 0 ∧ Aborts .cfile s .emptyKey 0 ∧
      (∃ t, exec .tblx s = .next t ∧ Aborted .emptyKey 0 { s with foutCnt := 0 } t)

/-! The header. -/

/-- R200: the bytes of `HDRW`. -/
def Obligations.HdrwWritesHeader : Prop :=
  ∀ s : State,
    exec .hdrw s =
      .next
        { s with
          out :=
            [Config.block.magic 0, Config.block.magic 1, Config.block.magic 2, Config.block.magic 3] ++ [s.klen] ++
              (List.range s.klen.toNat).map (fun j => readKey s j ^^^ Config.block.keyObf) ++ [s.flag.setWidth 8]
          hlen := BitVec.ofNat 9 (6 + s.klen.toNat)
          status := .done
          run := .fetch }

/-- R202, R206, R207, R278: a header that passes the checks: `RHDR` writes the header registers, `HDRR` delivers the remainder
as well; the flag byte 0 reads as a file, 1 as a folder. -/
def Obligations.HeaderReadWritesRegisters : Prop :=
  ∀ s : State, 6 ≤ s.inLen.toNat → (∀ j : Fin 4, readIn s j = Config.block.magic j) →
    6 + (readIn s 4).toNat ≤ s.inLen.toNat →
      let k := (readIn s 4).toNat
      ∃ key',
        (∀ j, readKey { s with key := key' } j =
          if j < k then readIn s (5 + j) ^^^ Config.block.keyObf else readKey s j) ∧
        (let r : State :=
          { s with
            key := key'
            klen := readIn s 4
            flagRaw := readIn s (5 + k)
            flag := BitVec.ofBool (flagDecode Config.block (readIn s (5 + k)))
            hlen := BitVec.ofNat 9 (6 + k)
            out := []
            status := .done
            run := .fetch }
        exec .rhdr s = .next r ∧ exec .hdrr s = .next { r with out := (inBytes s).drop (6 + k) } ∧
          (r.flagRaw = 0 → r.flag = 0) ∧ (r.flagRaw = 1 → r.flag = 1))

/-- R203, R205: the header checks in their order, in all four commands that read a header; the abort leaves the key, flag and
header length registers as they were. R202: a failing `HDRR` leaves `TOKLEN` and `EXPLEN` too (the model's reading beside R316,
log 24). -/
def Obligations.HeaderChecksInOrder : Prop :=
  ∀ (s : State) (i : Instr), i = .hdrr ∨ i = .rhdr ∨ i = .dfile ∨ i = .xfold →
    let s' := if i = .xfold then { s with foutCnt := 0 } else s
    (s.inLen.toNat < 6 → ∃ t, exec i s = .next t ∧ Aborted .headerTooShort s.inLen.toNat s' t) ∧
    (6 ≤ s.inLen.toNat → ∀ j : Fin 4, (∀ j' : Fin 4, j' < j → readIn s j' = Config.block.magic j') →
      readIn s j ≠ Config.block.magic j → ∃ t, exec i s = .next t ∧ Aborted .invalidMagic j s' t) ∧
    (6 ≤ s.inLen.toNat → (∀ j : Fin 4, readIn s j = Config.block.magic j) →
      s.inLen.toNat < 6 + (readIn s 4).toNat →
        ∃ t, exec i s = .next t ∧ Aborted .headerTruncated (6 + (readIn s 4).toNat) s' t) ∧
    (∀ t, i = .hdrr → exec i s = .next t → t.status = .error → t.tokLen = s.tokLen ∧ t.expLen = s.expLen)

/-- R208: the header round trip, for every key of at most 255 bytes, both kinds and every remainder. -/
def Obligations.HeaderRoundTrip : Prop :=
  ∀ (cfg : Config) (K R : List Byte) (folder : Bool), K.length ≤ 255 →
    let H := headerBytes cfg K (if folder then 1 else 0)
    ∃ h, readHeader cfg (H ++ R) = .ok h ∧ h.key = K ∧ flagDecode cfg h.flagRaw = folder ∧
      h.hlen = 6 + K.length ∧ h.hlen = H.length ∧ (H ++ R).drop h.hlen = R

/-! The file payload. -/

/-- R220, R221: `FPC`: tokens, entropy coding, the token-stream length in front, one keystream pass over all of it. -/
def Obligations.FpcBuildsPayload : Prop :=
  ∀ s : State,
    if s.klen = 0 then Aborts .fpc s .emptyKey 0
    else
      match matchEncode Config.block (inBytes s) with
      | .error _ => Aborts .fpc s .lengthOverflow 0
      | .ok T =>
        match Config.block.entropyEnc T with
        | none => Aborts .fpc s .entropyEncodeFailed 0
        | some y =>
          if 4 + y.length > Config.block.bufCap.toNat then Aborts .fpc s .lengthOverflow 0
          else
            ∃ t, exec .fpc s = .next t ∧ t.tok = T ∧ t.ent = y ∧ t.wrk = t.out ∧
              t.kept =
                State.kept
                  { s with
                    out := keystream (keyBytes s) (le32 T.length ++ y)
                    tokLen := BitVec.ofNat 32 T.length
                    status := .done }

/-- R224, R226, R227: `FPD`: its tests in their order, then the decoded file. -/
def Obligations.FpdUnpacksPayload : Prop :=
  ∀ s : State,
    let clear := keystream (keyBytes s) (inBytes s)
    let len := unLe32 (slice clear 0 4)
    if s.klen = 0 then Aborts .fpd s .emptyKey 0
    else if s.inLen.toNat < 4 then Aborts .fpd s .payloadTooShort s.inLen.toNat
    else if len > Config.block.bufCap.toNat then Aborts .fpd s .lengthOverflow len
    else
      match entropyDec Config.block (clear.drop 4) len with
      | none => Aborts .fpd s .entropyDecodeFailed len
      | some T =>
        match matchDecode Config.block T with
        | .error r => Aborts .fpd s r.cause r.info
        | .ok bytes =>
          ∃ t, exec .fpd s = .next t ∧ t.wrk = clear ∧ t.tok = T ∧
            t.kept =
              State.kept
                { s with
                  out := bytes
                  tokLen := BitVec.ofNat 32 len
                  expLen := BitVec.ofNat 32 len
                  status := .done }

/-- R228, under `ENT-RT` (R172) and for an input within the capacity (R21): what `FPC` makes, `FPD` undoes. -/
def Obligations.PayloadRoundTrip : Prop :=
  ∀ (cfg : Config) (s t u : State), EntRt cfg → s.inLen.toNat ≤ cfg.bufCap.toNat →
    fpcWith cfg s = .next t → t.status = .done → inBytes u = t.out → keyBytes u = keyBytes s →
      ∃ v, fpdWith cfg u = .next v ∧ v.status = .done ∧ v.out = inBytes s

/-! The folder payload. -/

/-- R242, R310: `TBLB` and `BFOLD` test the read errors of all records first, the lowest first, then the key. -/
def Obligations.ReadErrorsComeFirst : Prop :=
  ∀ (s : State) (recs : List FinRecord) (i : Instr), i = .tblb ∨ i = .bfold → finRecords s = some recs →
    (∀ (e : Nat) (rec : FinRecord), recs[e]? = some rec → rec.ioerr = true →
      (∀ e' rec', e' < e → recs[e']? = some rec' → rec'.ioerr = false) → Aborts i s .hostReadError e) ∧
    ((∀ rec ∈ recs, rec.ioerr = false) → s.klen = 0 → Aborts i s .emptyKey 0)

/-- 93_implementation_defined.md I15: a record that the host has not supplied is refused, and that is the only stop of any
instruction. -/
def Obligations.OnlyMissingRecordsRefused : Prop :=
  (∀ (s : State) (i : Instr) (e : Nat), i = .tblb ∨ i = .bfold → e < s.finCnt.toNat → getEntry s.fin e = none →
    exec i s = .refused .finRecordMissing) ∧
  (∀ (s : State) (i : Instr),
    (∃ t, exec i s = .next t) ∨
      ((i = .tblb ∨ i = .bfold) ∧ exec i s = .refused .finRecordMissing ∧
        ∃ e, e < s.finCnt.toNat ∧ getEntry s.fin e = none))

/-- R240, R241: `TBLB` with every record supplied answers a next state: the table built from the records, or its first
error; with no record it always ends well, `TOKLEN` unchanged (the model's reading, log 17). -/
def Obligations.TblbBuildsTable : Prop :=
  ∀ (s : State) (recs : List FinRecord), finRecords s = some recs →
    (match tableBuild Config.block (keyBytes s) recs with
      | .error r => Aborts .tblb s r.cause r.info
      | .ok b =>
        ∃ t, exec .tblb s = .next t ∧
          t.kept =
            State.kept
              { s with
                out := b.tbl
                tokLen := (b.last.map (fun p => BitVec.ofNat 32 p.tz.dst.length)).getD s.tokLen
                status := .done }) ∧
    (recs = [] → s.klen ≠ 0 →
      ∃ t, exec .tblb s = .next t ∧
        t.kept = State.kept { s with out := keystream (keyBytes s) [0, 0, 0, 0], status := .done })

/-- R241, R245, R105, R106: the table that `TableBuild` makes, in either byte order: every file compressed with the one key, the
table's fields in their order, one keystream pass over it all; and it is made whenever the key is not empty, no record
failed, every file compresses and the table fits. R240, R242, R303: when it is not made, the error is that of the first record
that failed to be read, else of the empty key, else of the first entry whose file does not compress or whose fields do not fit
behind the entries before it, with that entry's index as the datum. -/
def Obligations.TableHasTheFormat : Prop :=
  ∀ (cfg : Config) (key : List Byte) (recs : List FinRecord),
    (∀ b, tableBuild cfg key recs = .ok b →
      key ≠ [] ∧ (∀ rec ∈ recs, rec.ioerr = false) ∧
      ∃ ps : List Payload,
        List.Forall₂ (fun rec p => payloadCompress cfg key rec.data = .ok p) recs ps ∧
        b.last = ps.getLast? ∧ b.tbl = keystream key (clearTable cfg recs ps)) ∧
    (key ≠ [] → (∀ rec ∈ recs, rec.ioerr = false) → ∀ ps : List Payload,
      List.Forall₂ (fun rec p => payloadCompress cfg key rec.data = .ok p) recs ps →
      (clearTable cfg recs ps).length ≤ cfg.bufCap.toNat → ∃ b, tableBuild cfg key recs = .ok b) ∧
    (∀ r, tableBuild cfg key recs = .error r →
      (∃ e rec, recs[e]? = some rec ∧ rec.ioerr = true ∧ r = ⟨.hostReadError, e⟩ ∧
        ∀ e' rec', e' < e → recs[e']? = some rec' → rec'.ioerr = false) ∨
      ((∀ rec ∈ recs, rec.ioerr = false) ∧ key = [] ∧ r = ⟨.emptyKey, 0⟩) ∨
      ((∀ rec ∈ recs, rec.ioerr = false) ∧ key ≠ [] ∧
        ∃ (e : Nat) (rec : FinRecord) (ps : List Payload), recs[e]? = some rec ∧
          List.Forall₂ (fun rec p => payloadCompress cfg key rec.data = .ok p) (recs.take e) ps ∧
          (e = 0 ∨ (clearTable cfg (recs.take e) ps).length ≤ cfg.bufCap.toNat) ∧
          ((∃ r', payloadCompress cfg key rec.data = .error r' ∧ r = ⟨r'.cause, e⟩) ∨
            ∃ p, payloadCompress cfg key rec.data = .ok p ∧
              cfg.bufCap.toNat < (clearTable cfg (recs.take (e + 1)) (ps ++ [p])).length ∧
              r = ⟨.lengthOverflow, e⟩)))

/-- R252 to R256: the fields of an entry in their order, each truncation named. -/
def Obligations.EntryFieldsInOrder : Prop :=
  ∀ (cfg : Config) (tbl : List Byte) (pp : Nat),
    let plen := unToc32 cfg (slice tbl pp 4)
    let blen := unToc32 cfg (slice tbl (pp + 8 + plen) 4)
    parseEntry cfg tbl pp =
      if pp + 4 > tbl.length then .error .pathLengthTruncated
      else if pp + 4 + plen > tbl.length then .error .pathTruncated
      else if pp + 8 + plen > tbl.length then .error .origLenTruncated
      else if pp + 12 + plen > tbl.length then .error .blockLengthTruncated
      else if pp + 12 + plen + blen > tbl.length then .error .blockTruncated
      else
        .ok
          { path := slice tbl (pp + 4) plen
            origLen := unToc32 cfg (slice tbl (pp + 4 + plen) 4)
            block := slice tbl (pp + 12 + plen) blen
            start := pp + 12 + plen }

/-- R250 to R259: `TBLX`: a table of fewer than four bytes is truncated; any other is emitted entry after entry and the command
ends as the extraction of the table says; a table of no entry always ends well, `TOKLEN` and `EXPLEN` unchanged (the model's
reading, log 17: the rule says only that they are the last entry's). -/
def Obligations.TblxEmitsEntries : Prop :=
  ∀ s : State, s.klen ≠ 0 →
    let tbl := keystream (keyBytes s) (inBytes s)
    let count := unLe32 (slice tbl 0 4)
    (s.inLen.toNat < 4 →
      ∃ t, exec .tblx s = .next t ∧ Aborted .entryCountTruncated s.inLen.toNat { s with foutCnt := 0 } t) ∧
    (4 ≤ s.inLen.toNat →
      ∃ t, exec .tblx s = .next t ∧
        Extracted (extraction Config.block (keyBytes s) tbl count 0 4 s.draws none) s t ∧
        (count = 0 → t.kept = State.kept { s with out := [], foutCnt := 0, status := .done }))

/-- R260: an extraction stopped inside entry `e` has emitted the records of the entries before it, as an extraction of just
those entries does. -/
def Obligations.PartialExtraction : Prop :=
  ∀ (cfg : Config) (key tbl : List Byte) (n e pp draw : Nat) (last : Option Nat) (r : Raise),
    (extraction cfg key tbl n e pp draw last).stop = some r →
      let done := (extraction cfg key tbl n e pp draw last).records
      r.info = e + done.length ∧ done.length < n ∧
        (extraction cfg key tbl done.length e pp draw last).records = done ∧
        (extraction cfg key tbl done.length e pp draw last).stop = none

/-- R261, under `ENT-RT`, for files within the capacity (R41) and a host that takes every record: `TBLX` emits exactly the
records `TBLB` was given, in their order. -/
def Obligations.FolderRoundTrip : Prop :=
  ∀ (cfg : Config) (s t u : State) (recs : List FinRecord), EntRt cfg → (∀ k p d, cfg.hostWrite k p d = true) →
    finRecords s = some recs → (∀ rec ∈ recs, rec.data.length ≤ cfg.bufCap.toNat) →
    tblbWith cfg s = .next t → t.status = .done → inBytes u = t.out → keyBytes u = keyBytes s →
      ∃ v, tblxWith cfg u = .next v ∧ v.status = .done ∧
        v.fout = u.fout ++ recs.map (fun rec => { path := rec.path, data := rec.data }) ∧
        v.foutCnt.toNat = recs.length

/-! The API commands. -/

/-- R271: `CFILE` is `HDRW` with flag 0 followed by `FPC`, with the errors of `FPC`. -/
def Obligations.CfileIsHeaderThenPayload : Prop :=
  ∀ s : State, ∃ w t, exec .hdrw { s with flag := 0 } = .next w ∧ exec .fpc s = .next t ∧
    (t.status ≠ .done → exec .cfile s = .next t) ∧
    (t.status = .done →
      if 6 + s.klen.toNat + t.out.length > Config.block.bufCap.toNat then Aborts .cfile s .lengthOverflow 0
      else exec .cfile s = .next { t with out := w.out ++ t.out, hlen := w.hlen })

/-- R275: `BFOLD` is `HDRW` with flag 1 followed by `TBLB`, with the errors of `TBLB`. -/
def Obligations.BfoldIsHeaderThenTable : Prop :=
  ∀ (s : State) (recs : List FinRecord), finRecords s = some recs →
    ∃ w t, exec .hdrw { s with flag := 1 } = .next w ∧ exec .tblb s = .next t ∧
      (t.status ≠ .done → exec .bfold s = .next t) ∧
      (t.status = .done →
        if 6 + s.klen.toNat + t.out.length > Config.block.bufCap.toNat then Aborts .bfold s .lengthOverflow 0
        else exec .bfold s = .next { t with out := w.out ++ t.out, hlen := w.hlen })

/-- R272, R273, R280: `DFILE` is `RHDR`, the flag test, the key test, then `FPD` on the bytes after the header with the
header's key. -/
def Obligations.DfileIsHeaderThenPayload : Prop :=
  ∀ s : State, ∃ r, exec .rhdr s = .next r ∧
    (r.status ≠ .done → exec .dfile s = .next r) ∧
    (r.status = .done → r.flag = 1 → ∃ t, exec .dfile s = .next t ∧ Aborted .notFileArchive r.flagRaw.toNat r t) ∧
    (r.status = .done → r.flag = 0 → r.klen = 0 → ∃ t, exec .dfile s = .next t ∧ Aborted .emptyKey 0 r t) ∧
    (r.status = .done → r.flag = 0 → ∀ (m : Memory) (n : Word),
      inBytes { r with inMem := m, inLen := n } = (inBytes s).drop r.hlen.toNat →
        ∃ t, exec .fpd { r with inMem := m, inLen := n } = .next t ∧
          exec .dfile s = .next { t with inMem := s.inMem, inLen := s.inLen })

/-- R276, R280: `XFOLD` is `RHDR`, the flag test, then the table extraction of the bytes after the header with the header's
key. With no entry `Extracted` leaves `TOKLEN` and `EXPLEN` unchanged: the model's reading, log 17. -/
def Obligations.XfoldIsHeaderThenTable : Prop :=
  ∀ s : State, ∃ r, exec .rhdr s = .next r ∧
    (r.status = .done → r.flag = 0 →
      ∃ t, exec .xfold s = .next t ∧ Aborted .notFolderArchive r.flagRaw.toNat { r with foutCnt := 0 } t) ∧
    (r.status = .done → r.flag = 1 →
      let clear := keystream (keyBytes r) ((inBytes s).drop r.hlen.toNat)
      ∃ t, exec .xfold s = .next t ∧
        (r.klen = 0 → Aborted .emptyKey 0 { r with foutCnt := 0 } t) ∧
        (r.klen ≠ 0 → clear.length < 4 → Aborted .entryCountTruncated clear.length { r with foutCnt := 0 } t) ∧
        (r.klen ≠ 0 → 4 ≤ clear.length →
          Extracted
            (extraction Config.block (keyBytes r) clear (unLe32 (slice clear 0 4)) 0 4 s.draws none) r t))

/-- R281 (a) and (c), under `ENT-RT`: `DFILE` restores the file that `CFILE` archived, with the header's key or with the
same operand key, and `RHDR` reads the archive's key and kind. -/
def Obligations.FileArchiveRoundTrip : Prop :=
  ∀ (cfg : Config) (s t u : State), EntRt cfg → s.inLen.toNat ≤ cfg.bufCap.toNat →
    cfileWith cfg s = .next t → t.status = .done → inBytes u = t.out →
      (∃ r, rhdrWith cfg u = .next r ∧ r.status = .done ∧ keyBytes r = keyBytes s ∧ r.flag = 0) ∧
      ((cfg.decompKeySource = .operand → keyBytes u = keyBytes s) →
        ∃ v, dfileWith cfg u = .next v ∧ v.status = .done ∧ v.out = inBytes s ∧ keyBytes v = keyBytes s)

/-- R281 (b) and (c), under `ENT-RT` and a host that takes every record: `XFOLD` emits the records that `BFOLD` archived, and
`RHDR` reads the archive's key and kind. -/
def Obligations.FolderArchiveRoundTrip : Prop :=
  ∀ (cfg : Config) (s t u : State) (recs : List FinRecord), EntRt cfg → (∀ k p d, cfg.hostWrite k p d = true) →
    finRecords s = some recs → (∀ rec ∈ recs, rec.data.length ≤ cfg.bufCap.toNat) →
    bfoldWith cfg s = .next t → t.status = .done → inBytes u = t.out →
      (∃ r, rhdrWith cfg u = .next r ∧ r.status = .done ∧ keyBytes r = keyBytes s ∧ r.flag = 1) ∧
      (∃ v, xfoldWith cfg u = .next v ∧ v.status = .done ∧
        v.fout = u.fout ++ recs.map (fun rec => { path := rec.path, data := rec.data }) ∧
        v.foutCnt.toNat = recs.length ∧ keyBytes v = keyBytes s)

/-- R270 to R276: the four archive commands complete. `CFILE` when the coder answers and the archive fits; `BFOLD` when the table
is built and the archive fits; `DFILE` when the header reads as a file's and the payload gives a file; `XFOLD` when the header
reads as a folder's with a key and the extraction of its table meets no error, as that of a table without entries never does
(`TOKLEN` and `EXPLEN` are then unchanged: the model's reading, log 17). Where the coder's answer decides, both ends are stated. -/
def Obligations.ArchiveCommandsComplete : Prop :=
  (∀ s : State, s.klen ≠ 0 →
    match matchEncode Config.block (inBytes s) with
    | .error _ => Aborts .cfile s .lengthOverflow 0
    | .ok T =>
      match Config.block.entropyEnc T with
      | none => Aborts .cfile s .entropyEncodeFailed 0
      | some y =>
        if 6 + s.klen.toNat + (4 + y.length) > Config.block.bufCap.toNat then Aborts .cfile s .lengthOverflow 0
        else
          ∃ t, exec .cfile s = .next t ∧
            t.kept =
              State.kept
                { s with
                  out := headerBytes Config.block (keyBytes s) 0 ++ keystream (keyBytes s) (le32 T.length ++ y)
                  hlen := BitVec.ofNat 9 (6 + s.klen.toNat)
                  tokLen := BitVec.ofNat 32 T.length
                  status := .done }) ∧
  (∀ (s : State) (recs : List FinRecord) (b : Built), finRecords s = some recs →
    tableBuild Config.block (keyBytes s) recs = .ok b →
    6 + s.klen.toNat + b.tbl.length ≤ Config.block.bufCap.toNat →
      ∃ t, exec .bfold s = .next t ∧
        t.kept =
          State.kept
            { s with
              out := headerBytes Config.block (keyBytes s) 1 ++ b.tbl
              hlen := BitVec.ofNat 9 (6 + s.klen.toNat)
              tokLen := (b.last.map (fun p => BitVec.ofNat 32 p.tz.dst.length)).getD s.tokLen
              status := .done }) ∧
  (∀ (s : State) (h : Header), readHeader Config.block (inBytes s) = .ok h →
    flagDecode Config.block h.flagRaw = false →
      match fileOf Config.block h.key ((inBytes s).drop h.hlen) with
      | .error r => ∃ t, exec .dfile s = .next t ∧ Aborted r.cause r.info (storeHeader Config.block h s) t
      | .ok (len, data) =>
        ∃ t, exec .dfile s = .next t ∧
          t.kept =
            State.kept
              { storeHeader Config.block h s with
                out := data
                tokLen := BitVec.ofNat 32 len
                expLen := BitVec.ofNat 32 len
                status := .done }) ∧
  (∀ (s : State) (h : Header), readHeader Config.block (inBytes s) = .ok h →
    flagDecode Config.block h.flagRaw = true → h.key ≠ [] → h.hlen + 4 ≤ s.inLen.toNat →
      let clear := keystream h.key ((inBytes s).drop h.hlen)
      let x := extraction Config.block h.key clear (unLe32 (slice clear 0 4)) 0 4 s.draws none
      (unLe32 (slice clear 0 4) = 0 → x.stop = none) ∧
      (x.stop = none →
        ∃ t, exec .xfold s = .next t ∧ t.status = .done ∧ Extracted x (storeHeader Config.block h s) t))

/-! The whole machine. -/

/-- R21, R24, R33, R34, R36, R76, R282, R316: no instruction writes `IN`, `IN_LEN`, `FIN`, `FIN_CNT` or `CMD`, only those
that read a header write the key and the flag, and only they and the archive writers write the header length. -/
def Obligations.RegisterWriters : Prop :=
  ∀ (i : Instr) (s t : State), exec i s = .next t →
    (t.inMem = s.inMem ∧ t.inLen = s.inLen ∧ t.fin = s.fin ∧ t.finCnt = s.finCnt ∧ t.cmd = s.cmd ∧
      ∀ a, readIn t a = readIn s a) ∧
    (i ∉ [.hdrr, .rhdr, .dfile, .xfold] →
      t.klen = s.klen ∧ t.flag = s.flag ∧ t.flagRaw = s.flagRaw ∧ ∀ j, readKey t j = readKey s j) ∧
    (i ∉ [.hdrr, .rhdr, .dfile, .xfold, .hdrw, .cfile, .bfold] → t.hlen = s.hlen)

/-- R35, R37, R25, R26, R76: which commands write the length registers, the tokenizer's places and the internal buffers when
they end well. -/
def Obligations.FrameOfCompletedCommands : Prop :=
  ∀ (i : Instr) (s t : State), i.space = .command → exec i s = .next t → t.status = .done →
    t.errKind = s.errKind ∧ t.errCause = s.errCause ∧ t.errInfo = s.errInfo ∧
    t.pending = s.pending ∧ t.hostData = s.hostData ∧
    (i ∉ [.fpc, .cfile, .fpd, .dfile, .tblb, .bfold, .tblx, .xfold] → t.tokLen = s.tokLen) ∧
    (i ∉ [.fpd, .dfile, .tblx, .xfold] → t.expLen = s.expLen) ∧
    (i ∉ [.menc, .fpc, .cfile, .tblb, .bfold] → t.ht = s.ht ∧ t.litBuf = s.litBuf ∧ t.ip = s.ip) ∧
    (i ∉ [.fpc, .cfile, .tblb, .bfold] → t.ent = s.ent) ∧
    (i ∉ [.fpc, .cfile, .fpd, .dfile, .tblb, .bfold, .tblx, .xfold] → t.tok = s.tok ∧ t.wrk = s.wrk) ∧
    (i ∉ [.tblb, .bfold, .tblx, .xfold] → t.tbl = s.tbl)

/-- R42, R260, R318: only `TBLX` and `XFOLD` emit records; what was emitted stays, and `FOUT_CNT` counts what the command
emitted, also after an error. -/
def Obligations.FoutOnlyGrows : Prop :=
  ∀ (i : Instr) (s t : State), exec i s = .next t →
    s.fout <+: t.fout ∧
    (i ∉ [.tblx, .xfold] → t.fout = s.fout ∧ t.foutCnt = s.foutCnt) ∧
    (i ∈ [.tblx, .xfold] → t.foutCnt.toNat = t.fout.length - s.fout.length)

/-- R302: the causes each instruction can raise; the three error registers then agree. -/
def Obligations.CausesOfEachInstruction : Prop :=
  ∀ (i : Instr) (s t : State), exec i s = .next t → s.status ≠ .error → t.status = .error →
    ∃ c ∈ allowedCauses i, t.errCause = c.code ∧ t.errKind = c.kind.code ∧ t.out = []

/-- R45: what a command leaves to be seen depends on what was kept, not on anything else an earlier command left. -/
def Obligations.ResultsIgnoreInternals : Prop :=
  ∀ (i : Instr) (s s' t : State), i.space = .command → s.kept = s'.kept → exec i s = .next t →
    ∃ t', exec i s' = .next t' ∧ t'.kept = t.kept

/-- The invariant holds after power-on. -/
def Obligations.InvariantAtReset : Prop := State.reset.Inv

/-- Every step keeps the invariant. -/
def Obligations.InvariantKept : Prop := ∀ s t : State, s.Inv → step s = .next t → t.Inv

/-- R30: from a state that meets the invariant no step faults. -/
def Obligations.NoFaultFromInvariant : Prop := ∀ (s : State) (r : Fault), s.Inv → step s ≠ .fault r
end

