-- ==== Sys2Proof/Laws/State.lean ====
section
/-! SUPPORT. One lemma for each field of each update of the state: what it holds afterwards. -/

namespace Sys2Proof.Machine

/-! setError -/
@[simp] theorem setError_cmd (r : Raise) (s : State) : (setError r s).cmd = s.cmd := rfl
@[simp] theorem setError_status (r : Raise) (s : State) : (setError r s).status = .error := rfl
@[simp] theorem setError_errKind (r : Raise) (s : State) : (setError r s).errKind = r.cause.kind.code := rfl
@[simp] theorem setError_errCause (r : Raise) (s : State) : (setError r s).errCause = r.cause.code := rfl
@[simp] theorem setError_errInfo (r : Raise) (s : State) : (setError r s).errInfo = BitVec.ofNat 32 r.info := rfl
@[simp] theorem setError_klen (r : Raise) (s : State) : (setError r s).klen = s.klen := rfl
@[simp] theorem setError_flag (r : Raise) (s : State) : (setError r s).flag = s.flag := rfl
@[simp] theorem setError_flagRaw (r : Raise) (s : State) : (setError r s).flagRaw = s.flagRaw := rfl
@[simp] theorem setError_expLen (r : Raise) (s : State) : (setError r s).expLen = s.expLen := rfl
@[simp] theorem setError_inLen (r : Raise) (s : State) : (setError r s).inLen = s.inLen := rfl
@[simp] theorem setError_hlen (r : Raise) (s : State) : (setError r s).hlen = s.hlen := rfl
@[simp] theorem setError_tokLen (r : Raise) (s : State) : (setError r s).tokLen = s.tokLen := rfl
@[simp] theorem setError_finCnt (r : Raise) (s : State) : (setError r s).finCnt = s.finCnt := rfl
@[simp] theorem setError_foutCnt (r : Raise) (s : State) : (setError r s).foutCnt = s.foutCnt := rfl
@[simp] theorem setError_key (r : Raise) (s : State) : (setError r s).key = s.key := rfl
@[simp] theorem setError_inMem (r : Raise) (s : State) : (setError r s).inMem = s.inMem := rfl
@[simp] theorem setError_out (r : Raise) (s : State) : (setError r s).out = s.out := rfl
@[simp] theorem setError_tok (r : Raise) (s : State) : (setError r s).tok = s.tok := rfl
@[simp] theorem setError_ent (r : Raise) (s : State) : (setError r s).ent = s.ent := rfl
@[simp] theorem setError_wrk (r : Raise) (s : State) : (setError r s).wrk = s.wrk := rfl
@[simp] theorem setError_tbl (r : Raise) (s : State) : (setError r s).tbl = s.tbl := rfl
@[simp] theorem setError_ht (r : Raise) (s : State) : (setError r s).ht = s.ht := rfl
@[simp] theorem setError_litBuf (r : Raise) (s : State) : (setError r s).litBuf = s.litBuf := rfl
@[simp] theorem setError_fin (r : Raise) (s : State) : (setError r s).fin = s.fin := rfl
@[simp] theorem setError_fout (r : Raise) (s : State) : (setError r s).fout = s.fout := rfl
@[simp] theorem setError_ip (r : Raise) (s : State) : (setError r s).ip = s.ip := rfl
@[simp] theorem setError_tp (r : Raise) (s : State) : (setError r s).tp = s.tp := rfl
@[simp] theorem setError_pp (r : Raise) (s : State) : (setError r s).pp = s.pp := rfl
@[simp] theorem setError_ecnt (r : Raise) (s : State) : (setError r s).ecnt = s.ecnt := rfl
@[simp] theorem setError_eidx (r : Raise) (s : State) : (setError r s).eidx = s.eidx := rfl
@[simp] theorem setError_run (r : Raise) (s : State) : (setError r s).run = s.run := rfl
@[simp] theorem setError_pending (r : Raise) (s : State) : (setError r s).pending = s.pending := rfl
@[simp] theorem setError_hostData (r : Raise) (s : State) : (setError r s).hostData = s.hostData := rfl
@[simp] theorem setError_epoch (r : Raise) (s : State) : (setError r s).epoch = s.epoch := rfl
@[simp] theorem setError_outRun (r : Raise) (s : State) : (setError r s).outRun = s.outRun := rfl
@[simp] theorem setError_draws (r : Raise) (s : State) : (setError r s).draws = s.draws := rfl

/-! setBusy -/
@[simp] theorem setBusy_cmd (s : State) : (setBusy s).cmd = s.cmd := rfl
@[simp] theorem setBusy_status (s : State) : (setBusy s).status = .busy := rfl
@[simp] theorem setBusy_errKind (s : State) : (setBusy s).errKind = 0 := rfl
@[simp] theorem setBusy_errCause (s : State) : (setBusy s).errCause = 0 := rfl
@[simp] theorem setBusy_errInfo (s : State) : (setBusy s).errInfo = 0 := rfl
@[simp] theorem setBusy_klen (s : State) : (setBusy s).klen = s.klen := rfl
@[simp] theorem setBusy_flag (s : State) : (setBusy s).flag = s.flag := rfl
@[simp] theorem setBusy_flagRaw (s : State) : (setBusy s).flagRaw = s.flagRaw := rfl
@[simp] theorem setBusy_expLen (s : State) : (setBusy s).expLen = s.expLen := rfl
@[simp] theorem setBusy_inLen (s : State) : (setBusy s).inLen = s.inLen := rfl
@[simp] theorem setBusy_hlen (s : State) : (setBusy s).hlen = s.hlen := rfl
@[simp] theorem setBusy_tokLen (s : State) : (setBusy s).tokLen = s.tokLen := rfl
@[simp] theorem setBusy_finCnt (s : State) : (setBusy s).finCnt = s.finCnt := rfl
@[simp] theorem setBusy_foutCnt (s : State) : (setBusy s).foutCnt = s.foutCnt := rfl
@[simp] theorem setBusy_key (s : State) : (setBusy s).key = s.key := rfl
@[simp] theorem setBusy_inMem (s : State) : (setBusy s).inMem = s.inMem := rfl
@[simp] theorem setBusy_out (s : State) : (setBusy s).out = s.out := rfl
@[simp] theorem setBusy_tok (s : State) : (setBusy s).tok = s.tok := rfl
@[simp] theorem setBusy_ent (s : State) : (setBusy s).ent = s.ent := rfl
@[simp] theorem setBusy_wrk (s : State) : (setBusy s).wrk = s.wrk := rfl
@[simp] theorem setBusy_tbl (s : State) : (setBusy s).tbl = s.tbl := rfl
@[simp] theorem setBusy_ht (s : State) : (setBusy s).ht = s.ht := rfl
@[simp] theorem setBusy_litBuf (s : State) : (setBusy s).litBuf = s.litBuf := rfl
@[simp] theorem setBusy_fin (s : State) : (setBusy s).fin = s.fin := rfl
@[simp] theorem setBusy_fout (s : State) : (setBusy s).fout = s.fout := rfl
@[simp] theorem setBusy_ip (s : State) : (setBusy s).ip = s.ip := rfl
@[simp] theorem setBusy_tp (s : State) : (setBusy s).tp = s.tp := rfl
@[simp] theorem setBusy_pp (s : State) : (setBusy s).pp = s.pp := rfl
@[simp] theorem setBusy_ecnt (s : State) : (setBusy s).ecnt = s.ecnt := rfl
@[simp] theorem setBusy_eidx (s : State) : (setBusy s).eidx = s.eidx := rfl
@[simp] theorem setBusy_run (s : State) : (setBusy s).run = s.run := rfl
@[simp] theorem setBusy_pending (s : State) : (setBusy s).pending = s.pending := rfl
@[simp] theorem setBusy_hostData (s : State) : (setBusy s).hostData = s.hostData := rfl
@[simp] theorem setBusy_epoch (s : State) : (setBusy s).epoch = s.epoch := rfl
@[simp] theorem setBusy_outRun (s : State) : (setBusy s).outRun = s.outRun := rfl
@[simp] theorem setBusy_draws (s : State) : (setBusy s).draws = s.draws := rfl

/-! finish -/
@[simp] theorem finish_cmd (s : State) : (finish s).cmd = s.cmd := rfl
@[simp] theorem finish_status (s : State) : (finish s).status = .done := rfl
@[simp] theorem finish_errKind (s : State) : (finish s).errKind = s.errKind := rfl
@[simp] theorem finish_errCause (s : State) : (finish s).errCause = s.errCause := rfl
@[simp] theorem finish_errInfo (s : State) : (finish s).errInfo = s.errInfo := rfl
@[simp] theorem finish_klen (s : State) : (finish s).klen = s.klen := rfl
@[simp] theorem finish_flag (s : State) : (finish s).flag = s.flag := rfl
@[simp] theorem finish_flagRaw (s : State) : (finish s).flagRaw = s.flagRaw := rfl
@[simp] theorem finish_expLen (s : State) : (finish s).expLen = s.expLen := rfl
@[simp] theorem finish_inLen (s : State) : (finish s).inLen = s.inLen := rfl
@[simp] theorem finish_hlen (s : State) : (finish s).hlen = s.hlen := rfl
@[simp] theorem finish_tokLen (s : State) : (finish s).tokLen = s.tokLen := rfl
@[simp] theorem finish_finCnt (s : State) : (finish s).finCnt = s.finCnt := rfl
@[simp] theorem finish_foutCnt (s : State) : (finish s).foutCnt = s.foutCnt := rfl
@[simp] theorem finish_key (s : State) : (finish s).key = s.key := rfl
@[simp] theorem finish_inMem (s : State) : (finish s).inMem = s.inMem := rfl
@[simp] theorem finish_out (s : State) : (finish s).out = s.out := rfl
@[simp] theorem finish_tok (s : State) : (finish s).tok = s.tok := rfl
@[simp] theorem finish_ent (s : State) : (finish s).ent = s.ent := rfl
@[simp] theorem finish_wrk (s : State) : (finish s).wrk = s.wrk := rfl
@[simp] theorem finish_tbl (s : State) : (finish s).tbl = s.tbl := rfl
@[simp] theorem finish_ht (s : State) : (finish s).ht = s.ht := rfl
@[simp] theorem finish_litBuf (s : State) : (finish s).litBuf = s.litBuf := rfl
@[simp] theorem finish_fin (s : State) : (finish s).fin = s.fin := rfl
@[simp] theorem finish_fout (s : State) : (finish s).fout = s.fout := rfl
@[simp] theorem finish_ip (s : State) : (finish s).ip = s.ip := rfl
@[simp] theorem finish_tp (s : State) : (finish s).tp = s.tp := rfl
@[simp] theorem finish_pp (s : State) : (finish s).pp = s.pp := rfl
@[simp] theorem finish_ecnt (s : State) : (finish s).ecnt = s.ecnt := rfl
@[simp] theorem finish_eidx (s : State) : (finish s).eidx = s.eidx := rfl
@[simp] theorem finish_run (s : State) : (finish s).run = .fetch := rfl
@[simp] theorem finish_pending (s : State) : (finish s).pending = s.pending := rfl
@[simp] theorem finish_hostData (s : State) : (finish s).hostData = s.hostData := rfl
@[simp] theorem finish_epoch (s : State) : (finish s).epoch = s.epoch := rfl
@[simp] theorem finish_outRun (s : State) : (finish s).outRun = s.outRun := rfl
@[simp] theorem finish_draws (s : State) : (finish s).draws = s.draws := rfl

/-! startOut -/
@[simp] theorem startOut_cmd (s : State) : (startOut s).cmd = s.cmd := rfl
@[simp] theorem startOut_status (s : State) : (startOut s).status = s.status := rfl
@[simp] theorem startOut_errKind (s : State) : (startOut s).errKind = s.errKind := rfl
@[simp] theorem startOut_errCause (s : State) : (startOut s).errCause = s.errCause := rfl
@[simp] theorem startOut_errInfo (s : State) : (startOut s).errInfo = s.errInfo := rfl
@[simp] theorem startOut_klen (s : State) : (startOut s).klen = s.klen := rfl
@[simp] theorem startOut_flag (s : State) : (startOut s).flag = s.flag := rfl
@[simp] theorem startOut_flagRaw (s : State) : (startOut s).flagRaw = s.flagRaw := rfl
@[simp] theorem startOut_expLen (s : State) : (startOut s).expLen = s.expLen := rfl
@[simp] theorem startOut_inLen (s : State) : (startOut s).inLen = s.inLen := rfl
@[simp] theorem startOut_hlen (s : State) : (startOut s).hlen = s.hlen := rfl
@[simp] theorem startOut_tokLen (s : State) : (startOut s).tokLen = s.tokLen := rfl
@[simp] theorem startOut_finCnt (s : State) : (startOut s).finCnt = s.finCnt := rfl
@[simp] theorem startOut_foutCnt (s : State) : (startOut s).foutCnt = s.foutCnt := rfl
@[simp] theorem startOut_key (s : State) : (startOut s).key = s.key := rfl
@[simp] theorem startOut_inMem (s : State) : (startOut s).inMem = s.inMem := rfl
@[simp] theorem startOut_out (s : State) : (startOut s).out = [] := rfl
@[simp] theorem startOut_tok (s : State) : (startOut s).tok = s.tok := rfl
@[simp] theorem startOut_ent (s : State) : (startOut s).ent = s.ent := rfl
@[simp] theorem startOut_wrk (s : State) : (startOut s).wrk = s.wrk := rfl
@[simp] theorem startOut_tbl (s : State) : (startOut s).tbl = s.tbl := rfl
@[simp] theorem startOut_ht (s : State) : (startOut s).ht = s.ht := rfl
@[simp] theorem startOut_litBuf (s : State) : (startOut s).litBuf = s.litBuf := rfl
@[simp] theorem startOut_fin (s : State) : (startOut s).fin = s.fin := rfl
@[simp] theorem startOut_fout (s : State) : (startOut s).fout = s.fout := rfl
@[simp] theorem startOut_ip (s : State) : (startOut s).ip = s.ip := rfl
@[simp] theorem startOut_tp (s : State) : (startOut s).tp = s.tp := rfl
@[simp] theorem startOut_pp (s : State) : (startOut s).pp = s.pp := rfl
@[simp] theorem startOut_ecnt (s : State) : (startOut s).ecnt = s.ecnt := rfl
@[simp] theorem startOut_eidx (s : State) : (startOut s).eidx = s.eidx := rfl
@[simp] theorem startOut_run (s : State) : (startOut s).run = s.run := rfl
@[simp] theorem startOut_pending (s : State) : (startOut s).pending = s.pending := rfl
@[simp] theorem startOut_hostData (s : State) : (startOut s).hostData = s.hostData := rfl
@[simp] theorem startOut_epoch (s : State) : (startOut s).epoch = s.epoch := rfl
@[simp] theorem startOut_outRun (s : State) : (startOut s).outRun = s.outRun := rfl
@[simp] theorem startOut_draws (s : State) : (startOut s).draws = s.draws := rfl

/-! startExtract -/
@[simp] theorem startExtract_cmd (s : State) : (startExtract s).cmd = s.cmd := rfl
@[simp] theorem startExtract_status (s : State) : (startExtract s).status = s.status := rfl
@[simp] theorem startExtract_errKind (s : State) : (startExtract s).errKind = s.errKind := rfl
@[simp] theorem startExtract_errCause (s : State) : (startExtract s).errCause = s.errCause := rfl
@[simp] theorem startExtract_errInfo (s : State) : (startExtract s).errInfo = s.errInfo := rfl
@[simp] theorem startExtract_klen (s : State) : (startExtract s).klen = s.klen := rfl
@[simp] theorem startExtract_flag (s : State) : (startExtract s).flag = s.flag := rfl
@[simp] theorem startExtract_flagRaw (s : State) : (startExtract s).flagRaw = s.flagRaw := rfl
@[simp] theorem startExtract_expLen (s : State) : (startExtract s).expLen = s.expLen := rfl
@[simp] theorem startExtract_inLen (s : State) : (startExtract s).inLen = s.inLen := rfl
@[simp] theorem startExtract_hlen (s : State) : (startExtract s).hlen = s.hlen := rfl
@[simp] theorem startExtract_tokLen (s : State) : (startExtract s).tokLen = s.tokLen := rfl
@[simp] theorem startExtract_finCnt (s : State) : (startExtract s).finCnt = s.finCnt := rfl
@[simp] theorem startExtract_foutCnt (s : State) : (startExtract s).foutCnt = 0 := rfl
@[simp] theorem startExtract_key (s : State) : (startExtract s).key = s.key := rfl
@[simp] theorem startExtract_inMem (s : State) : (startExtract s).inMem = s.inMem := rfl
@[simp] theorem startExtract_out (s : State) : (startExtract s).out = [] := rfl
@[simp] theorem startExtract_tok (s : State) : (startExtract s).tok = s.tok := rfl
@[simp] theorem startExtract_ent (s : State) : (startExtract s).ent = s.ent := rfl
@[simp] theorem startExtract_wrk (s : State) : (startExtract s).wrk = s.wrk := rfl
@[simp] theorem startExtract_tbl (s : State) : (startExtract s).tbl = s.tbl := rfl
@[simp] theorem startExtract_ht (s : State) : (startExtract s).ht = s.ht := rfl
@[simp] theorem startExtract_litBuf (s : State) : (startExtract s).litBuf = s.litBuf := rfl
@[simp] theorem startExtract_fin (s : State) : (startExtract s).fin = s.fin := rfl
@[simp] theorem startExtract_fout (s : State) : (startExtract s).fout = s.fout := rfl
@[simp] theorem startExtract_ip (s : State) : (startExtract s).ip = s.ip := rfl
@[simp] theorem startExtract_tp (s : State) : (startExtract s).tp = s.tp := rfl
@[simp] theorem startExtract_pp (s : State) : (startExtract s).pp = s.pp := rfl
@[simp] theorem startExtract_ecnt (s : State) : (startExtract s).ecnt = s.ecnt := rfl
@[simp] theorem startExtract_eidx (s : State) : (startExtract s).eidx = s.eidx := rfl
@[simp] theorem startExtract_run (s : State) : (startExtract s).run = s.run := rfl
@[simp] theorem startExtract_pending (s : State) : (startExtract s).pending = s.pending := rfl
@[simp] theorem startExtract_hostData (s : State) : (startExtract s).hostData = s.hostData := rfl
@[simp] theorem startExtract_epoch (s : State) : (startExtract s).epoch = s.epoch := rfl
@[simp] theorem startExtract_outRun (s : State) : (startExtract s).outRun = s.outRun := rfl
@[simp] theorem startExtract_draws (s : State) : (startExtract s).draws = s.draws := rfl

/-! startTokens -/
@[simp] theorem startTokens_cmd (src : TokenSource) (next : After) (s : State) : (startTokens src next s).cmd = s.cmd := rfl
@[simp] theorem startTokens_status (src : TokenSource) (next : After) (s : State) : (startTokens src next s).status = s.status := rfl
@[simp] theorem startTokens_errKind (src : TokenSource) (next : After) (s : State) : (startTokens src next s).errKind = s.errKind := rfl
@[simp] theorem startTokens_errCause (src : TokenSource) (next : After) (s : State) : (startTokens src next s).errCause = s.errCause := rfl
@[simp] theorem startTokens_errInfo (src : TokenSource) (next : After) (s : State) : (startTokens src next s).errInfo = s.errInfo := rfl
@[simp] theorem startTokens_klen (src : TokenSource) (next : After) (s : State) : (startTokens src next s).klen = s.klen := rfl
@[simp] theorem startTokens_flag (src : TokenSource) (next : After) (s : State) : (startTokens src next s).flag = s.flag := rfl
@[simp] theorem startTokens_flagRaw (src : TokenSource) (next : After) (s : State) : (startTokens src next s).flagRaw = s.flagRaw := rfl
@[simp] theorem startTokens_expLen (src : TokenSource) (next : After) (s : State) : (startTokens src next s).expLen = s.expLen := rfl
@[simp] theorem startTokens_inLen (src : TokenSource) (next : After) (s : State) : (startTokens src next s).inLen = s.inLen := rfl
@[simp] theorem startTokens_hlen (src : TokenSource) (next : After) (s : State) : (startTokens src next s).hlen = s.hlen := rfl
@[simp] theorem startTokens_tokLen (src : TokenSource) (next : After) (s : State) : (startTokens src next s).tokLen = s.tokLen := rfl
@[simp] theorem startTokens_finCnt (src : TokenSource) (next : After) (s : State) : (startTokens src next s).finCnt = s.finCnt := rfl
@[simp] theorem startTokens_foutCnt (src : TokenSource) (next : After) (s : State) : (startTokens src next s).foutCnt = s.foutCnt := rfl
@[simp] theorem startTokens_key (src : TokenSource) (next : After) (s : State) : (startTokens src next s).key = s.key := rfl
@[simp] theorem startTokens_inMem (src : TokenSource) (next : After) (s : State) : (startTokens src next s).inMem = s.inMem := rfl
@[simp] theorem startTokens_out (src : TokenSource) (next : After) (s : State) : (startTokens src next s).out = [] := rfl
@[simp] theorem startTokens_tok (src : TokenSource) (next : After) (s : State) : (startTokens src next s).tok = s.tok := rfl
@[simp] theorem startTokens_ent (src : TokenSource) (next : After) (s : State) : (startTokens src next s).ent = s.ent := rfl
@[simp] theorem startTokens_wrk (src : TokenSource) (next : After) (s : State) : (startTokens src next s).wrk = s.wrk := rfl
@[simp] theorem startTokens_tbl (src : TokenSource) (next : After) (s : State) : (startTokens src next s).tbl = s.tbl := rfl
@[simp] theorem startTokens_ht (src : TokenSource) (next : After) (s : State) : (startTokens src next s).ht = s.ht := rfl
@[simp] theorem startTokens_litBuf (src : TokenSource) (next : After) (s : State) : (startTokens src next s).litBuf = s.litBuf := rfl
@[simp] theorem startTokens_fin (src : TokenSource) (next : After) (s : State) : (startTokens src next s).fin = s.fin := rfl
@[simp] theorem startTokens_fout (src : TokenSource) (next : After) (s : State) : (startTokens src next s).fout = s.fout := rfl
@[simp] theorem startTokens_ip (src : TokenSource) (next : After) (s : State) : (startTokens src next s).ip = s.ip := rfl
@[simp] theorem startTokens_tp (src : TokenSource) (next : After) (s : State) : (startTokens src next s).tp = 0 := rfl
@[simp] theorem startTokens_pp (src : TokenSource) (next : After) (s : State) : (startTokens src next s).pp = s.pp := rfl
@[simp] theorem startTokens_ecnt (src : TokenSource) (next : After) (s : State) : (startTokens src next s).ecnt = s.ecnt := rfl
@[simp] theorem startTokens_eidx (src : TokenSource) (next : After) (s : State) : (startTokens src next s).eidx = s.eidx := rfl
@[simp] theorem startTokens_run (src : TokenSource) (next : After) (s : State) : (startTokens src next s).run = .tokens src next := rfl
@[simp] theorem startTokens_pending (src : TokenSource) (next : After) (s : State) : (startTokens src next s).pending = s.pending := rfl
@[simp] theorem startTokens_hostData (src : TokenSource) (next : After) (s : State) : (startTokens src next s).hostData = s.hostData := rfl
@[simp] theorem startTokens_epoch (src : TokenSource) (next : After) (s : State) : (startTokens src next s).epoch = s.epoch := rfl
@[simp] theorem startTokens_outRun (src : TokenSource) (next : After) (s : State) : (startTokens src next s).outRun = s.outRun := rfl
@[simp] theorem startTokens_draws (src : TokenSource) (next : After) (s : State) : (startTokens src next s).draws = s.draws := rfl

/-! storeDetok -/
@[simp] theorem storeDetok_cmd (s : State) (d : Detok) : (storeDetok s d).cmd = s.cmd := rfl
@[simp] theorem storeDetok_status (s : State) (d : Detok) : (storeDetok s d).status = s.status := rfl
@[simp] theorem storeDetok_errKind (s : State) (d : Detok) : (storeDetok s d).errKind = s.errKind := rfl
@[simp] theorem storeDetok_errCause (s : State) (d : Detok) : (storeDetok s d).errCause = s.errCause := rfl
@[simp] theorem storeDetok_errInfo (s : State) (d : Detok) : (storeDetok s d).errInfo = s.errInfo := rfl
@[simp] theorem storeDetok_klen (s : State) (d : Detok) : (storeDetok s d).klen = s.klen := rfl
@[simp] theorem storeDetok_flag (s : State) (d : Detok) : (storeDetok s d).flag = s.flag := rfl
@[simp] theorem storeDetok_flagRaw (s : State) (d : Detok) : (storeDetok s d).flagRaw = s.flagRaw := rfl
@[simp] theorem storeDetok_expLen (s : State) (d : Detok) : (storeDetok s d).expLen = s.expLen := rfl
@[simp] theorem storeDetok_inLen (s : State) (d : Detok) : (storeDetok s d).inLen = s.inLen := rfl
@[simp] theorem storeDetok_hlen (s : State) (d : Detok) : (storeDetok s d).hlen = s.hlen := rfl
@[simp] theorem storeDetok_tokLen (s : State) (d : Detok) : (storeDetok s d).tokLen = s.tokLen := rfl
@[simp] theorem storeDetok_finCnt (s : State) (d : Detok) : (storeDetok s d).finCnt = s.finCnt := rfl
@[simp] theorem storeDetok_foutCnt (s : State) (d : Detok) : (storeDetok s d).foutCnt = s.foutCnt := rfl
@[simp] theorem storeDetok_key (s : State) (d : Detok) : (storeDetok s d).key = s.key := rfl
@[simp] theorem storeDetok_inMem (s : State) (d : Detok) : (storeDetok s d).inMem = s.inMem := rfl
@[simp] theorem storeDetok_out (s : State) (d : Detok) : (storeDetok s d).out = d.out := rfl
@[simp] theorem storeDetok_tok (s : State) (d : Detok) : (storeDetok s d).tok = s.tok := rfl
@[simp] theorem storeDetok_ent (s : State) (d : Detok) : (storeDetok s d).ent = s.ent := rfl
@[simp] theorem storeDetok_wrk (s : State) (d : Detok) : (storeDetok s d).wrk = s.wrk := rfl
@[simp] theorem storeDetok_tbl (s : State) (d : Detok) : (storeDetok s d).tbl = s.tbl := rfl
@[simp] theorem storeDetok_ht (s : State) (d : Detok) : (storeDetok s d).ht = s.ht := rfl
@[simp] theorem storeDetok_litBuf (s : State) (d : Detok) : (storeDetok s d).litBuf = s.litBuf := rfl
@[simp] theorem storeDetok_fin (s : State) (d : Detok) : (storeDetok s d).fin = s.fin := rfl
@[simp] theorem storeDetok_fout (s : State) (d : Detok) : (storeDetok s d).fout = s.fout := rfl
@[simp] theorem storeDetok_ip (s : State) (d : Detok) : (storeDetok s d).ip = s.ip := rfl
@[simp] theorem storeDetok_tp (s : State) (d : Detok) : (storeDetok s d).tp = BitVec.ofNat 32 d.tp := rfl
@[simp] theorem storeDetok_pp (s : State) (d : Detok) : (storeDetok s d).pp = s.pp := rfl
@[simp] theorem storeDetok_ecnt (s : State) (d : Detok) : (storeDetok s d).ecnt = s.ecnt := rfl
@[simp] theorem storeDetok_eidx (s : State) (d : Detok) : (storeDetok s d).eidx = s.eidx := rfl
@[simp] theorem storeDetok_run (s : State) (d : Detok) : (storeDetok s d).run = s.run := rfl
@[simp] theorem storeDetok_pending (s : State) (d : Detok) : (storeDetok s d).pending = s.pending := rfl
@[simp] theorem storeDetok_hostData (s : State) (d : Detok) : (storeDetok s d).hostData = s.hostData := rfl
@[simp] theorem storeDetok_epoch (s : State) (d : Detok) : (storeDetok s d).epoch = s.epoch := rfl
@[simp] theorem storeDetok_outRun (s : State) (d : Detok) : (storeDetok s d).outRun = s.outRun := rfl
@[simp] theorem storeDetok_draws (s : State) (d : Detok) : (storeDetok s d).draws = s.draws := rfl

/-! storeTokenizer -/
@[simp] theorem storeTokenizer_cmd (t : Tokenizer) (s : State) : (storeTokenizer t s).cmd = s.cmd := rfl
@[simp] theorem storeTokenizer_status (t : Tokenizer) (s : State) : (storeTokenizer t s).status = s.status := rfl
@[simp] theorem storeTokenizer_errKind (t : Tokenizer) (s : State) : (storeTokenizer t s).errKind = s.errKind := rfl
@[simp] theorem storeTokenizer_errCause (t : Tokenizer) (s : State) : (storeTokenizer t s).errCause = s.errCause := rfl
@[simp] theorem storeTokenizer_errInfo (t : Tokenizer) (s : State) : (storeTokenizer t s).errInfo = s.errInfo := rfl
@[simp] theorem storeTokenizer_klen (t : Tokenizer) (s : State) : (storeTokenizer t s).klen = s.klen := rfl
@[simp] theorem storeTokenizer_flag (t : Tokenizer) (s : State) : (storeTokenizer t s).flag = s.flag := rfl
@[simp] theorem storeTokenizer_flagRaw (t : Tokenizer) (s : State) : (storeTokenizer t s).flagRaw = s.flagRaw := rfl
@[simp] theorem storeTokenizer_expLen (t : Tokenizer) (s : State) : (storeTokenizer t s).expLen = s.expLen := rfl
@[simp] theorem storeTokenizer_inLen (t : Tokenizer) (s : State) : (storeTokenizer t s).inLen = s.inLen := rfl
@[simp] theorem storeTokenizer_hlen (t : Tokenizer) (s : State) : (storeTokenizer t s).hlen = s.hlen := rfl
@[simp] theorem storeTokenizer_tokLen (t : Tokenizer) (s : State) : (storeTokenizer t s).tokLen = s.tokLen := rfl
@[simp] theorem storeTokenizer_finCnt (t : Tokenizer) (s : State) : (storeTokenizer t s).finCnt = s.finCnt := rfl
@[simp] theorem storeTokenizer_foutCnt (t : Tokenizer) (s : State) : (storeTokenizer t s).foutCnt = s.foutCnt := rfl
@[simp] theorem storeTokenizer_key (t : Tokenizer) (s : State) : (storeTokenizer t s).key = s.key := rfl
@[simp] theorem storeTokenizer_inMem (t : Tokenizer) (s : State) : (storeTokenizer t s).inMem = s.inMem := rfl
@[simp] theorem storeTokenizer_out (t : Tokenizer) (s : State) : (storeTokenizer t s).out = s.out := rfl
@[simp] theorem storeTokenizer_tok (t : Tokenizer) (s : State) : (storeTokenizer t s).tok = s.tok := rfl
@[simp] theorem storeTokenizer_ent (t : Tokenizer) (s : State) : (storeTokenizer t s).ent = s.ent := rfl
@[simp] theorem storeTokenizer_wrk (t : Tokenizer) (s : State) : (storeTokenizer t s).wrk = s.wrk := rfl
@[simp] theorem storeTokenizer_tbl (t : Tokenizer) (s : State) : (storeTokenizer t s).tbl = s.tbl := rfl
@[simp] theorem storeTokenizer_ht (t : Tokenizer) (s : State) : (storeTokenizer t s).ht = t.ht := rfl
@[simp] theorem storeTokenizer_litBuf (t : Tokenizer) (s : State) : (storeTokenizer t s).litBuf = t.litBuf := rfl
@[simp] theorem storeTokenizer_fin (t : Tokenizer) (s : State) : (storeTokenizer t s).fin = s.fin := rfl
@[simp] theorem storeTokenizer_fout (t : Tokenizer) (s : State) : (storeTokenizer t s).fout = s.fout := rfl
@[simp] theorem storeTokenizer_ip (t : Tokenizer) (s : State) : (storeTokenizer t s).ip = BitVec.ofNat 32 t.ip := rfl
@[simp] theorem storeTokenizer_tp (t : Tokenizer) (s : State) : (storeTokenizer t s).tp = s.tp := rfl
@[simp] theorem storeTokenizer_pp (t : Tokenizer) (s : State) : (storeTokenizer t s).pp = s.pp := rfl
@[simp] theorem storeTokenizer_ecnt (t : Tokenizer) (s : State) : (storeTokenizer t s).ecnt = s.ecnt := rfl
@[simp] theorem storeTokenizer_eidx (t : Tokenizer) (s : State) : (storeTokenizer t s).eidx = s.eidx := rfl
@[simp] theorem storeTokenizer_run (t : Tokenizer) (s : State) : (storeTokenizer t s).run = s.run := rfl
@[simp] theorem storeTokenizer_pending (t : Tokenizer) (s : State) : (storeTokenizer t s).pending = s.pending := rfl
@[simp] theorem storeTokenizer_hostData (t : Tokenizer) (s : State) : (storeTokenizer t s).hostData = s.hostData := rfl
@[simp] theorem storeTokenizer_epoch (t : Tokenizer) (s : State) : (storeTokenizer t s).epoch = s.epoch := rfl
@[simp] theorem storeTokenizer_outRun (t : Tokenizer) (s : State) : (storeTokenizer t s).outRun = s.outRun := rfl
@[simp] theorem storeTokenizer_draws (t : Tokenizer) (s : State) : (storeTokenizer t s).draws = s.draws := rfl

/-! storePayload -/
@[simp] theorem storePayload_cmd (p : Payload) (s : State) : (storePayload p s).cmd = s.cmd := rfl
@[simp] theorem storePayload_status (p : Payload) (s : State) : (storePayload p s).status = s.status := rfl
@[simp] theorem storePayload_errKind (p : Payload) (s : State) : (storePayload p s).errKind = s.errKind := rfl
@[simp] theorem storePayload_errCause (p : Payload) (s : State) : (storePayload p s).errCause = s.errCause := rfl
@[simp] theorem storePayload_errInfo (p : Payload) (s : State) : (storePayload p s).errInfo = s.errInfo := rfl
@[simp] theorem storePayload_klen (p : Payload) (s : State) : (storePayload p s).klen = s.klen := rfl
@[simp] theorem storePayload_flag (p : Payload) (s : State) : (storePayload p s).flag = s.flag := rfl
@[simp] theorem storePayload_flagRaw (p : Payload) (s : State) : (storePayload p s).flagRaw = s.flagRaw := rfl
@[simp] theorem storePayload_expLen (p : Payload) (s : State) : (storePayload p s).expLen = s.expLen := rfl
@[simp] theorem storePayload_inLen (p : Payload) (s : State) : (storePayload p s).inLen = s.inLen := rfl
@[simp] theorem storePayload_hlen (p : Payload) (s : State) : (storePayload p s).hlen = s.hlen := rfl
@[simp] theorem storePayload_tokLen (p : Payload) (s : State) : (storePayload p s).tokLen = BitVec.ofNat 32 p.tz.dst.length := rfl
@[simp] theorem storePayload_finCnt (p : Payload) (s : State) : (storePayload p s).finCnt = s.finCnt := rfl
@[simp] theorem storePayload_foutCnt (p : Payload) (s : State) : (storePayload p s).foutCnt = s.foutCnt := rfl
@[simp] theorem storePayload_key (p : Payload) (s : State) : (storePayload p s).key = s.key := rfl
@[simp] theorem storePayload_inMem (p : Payload) (s : State) : (storePayload p s).inMem = s.inMem := rfl
@[simp] theorem storePayload_out (p : Payload) (s : State) : (storePayload p s).out = s.out := rfl
@[simp] theorem storePayload_tok (p : Payload) (s : State) : (storePayload p s).tok = p.tz.dst := rfl
@[simp] theorem storePayload_ent (p : Payload) (s : State) : (storePayload p s).ent = p.ent := rfl
@[simp] theorem storePayload_wrk (p : Payload) (s : State) : (storePayload p s).wrk = p.wrk := rfl
@[simp] theorem storePayload_tbl (p : Payload) (s : State) : (storePayload p s).tbl = s.tbl := rfl
@[simp] theorem storePayload_ht (p : Payload) (s : State) : (storePayload p s).ht = p.tz.ht := rfl
@[simp] theorem storePayload_litBuf (p : Payload) (s : State) : (storePayload p s).litBuf = p.tz.litBuf := rfl
@[simp] theorem storePayload_fin (p : Payload) (s : State) : (storePayload p s).fin = s.fin := rfl
@[simp] theorem storePayload_fout (p : Payload) (s : State) : (storePayload p s).fout = s.fout := rfl
@[simp] theorem storePayload_ip (p : Payload) (s : State) : (storePayload p s).ip = BitVec.ofNat 32 p.tz.ip := rfl
@[simp] theorem storePayload_tp (p : Payload) (s : State) : (storePayload p s).tp = s.tp := rfl
@[simp] theorem storePayload_pp (p : Payload) (s : State) : (storePayload p s).pp = s.pp := rfl
@[simp] theorem storePayload_ecnt (p : Payload) (s : State) : (storePayload p s).ecnt = s.ecnt := rfl
@[simp] theorem storePayload_eidx (p : Payload) (s : State) : (storePayload p s).eidx = s.eidx := rfl
@[simp] theorem storePayload_run (p : Payload) (s : State) : (storePayload p s).run = s.run := rfl
@[simp] theorem storePayload_pending (p : Payload) (s : State) : (storePayload p s).pending = s.pending := rfl
@[simp] theorem storePayload_hostData (p : Payload) (s : State) : (storePayload p s).hostData = s.hostData := rfl
@[simp] theorem storePayload_epoch (p : Payload) (s : State) : (storePayload p s).epoch = s.epoch := rfl
@[simp] theorem storePayload_outRun (p : Payload) (s : State) : (storePayload p s).outRun = s.outRun := rfl
@[simp] theorem storePayload_draws (p : Payload) (s : State) : (storePayload p s).draws = s.draws := rfl

/-! storeUnpacked -/
@[simp] theorem storeUnpacked_cmd (u : Unpacked) (s : State) : (storeUnpacked u s).cmd = s.cmd := rfl
@[simp] theorem storeUnpacked_status (u : Unpacked) (s : State) : (storeUnpacked u s).status = s.status := rfl
@[simp] theorem storeUnpacked_errKind (u : Unpacked) (s : State) : (storeUnpacked u s).errKind = s.errKind := rfl
@[simp] theorem storeUnpacked_errCause (u : Unpacked) (s : State) : (storeUnpacked u s).errCause = s.errCause := rfl
@[simp] theorem storeUnpacked_errInfo (u : Unpacked) (s : State) : (storeUnpacked u s).errInfo = s.errInfo := rfl
@[simp] theorem storeUnpacked_klen (u : Unpacked) (s : State) : (storeUnpacked u s).klen = s.klen := rfl
@[simp] theorem storeUnpacked_flag (u : Unpacked) (s : State) : (storeUnpacked u s).flag = s.flag := rfl
@[simp] theorem storeUnpacked_flagRaw (u : Unpacked) (s : State) : (storeUnpacked u s).flagRaw = s.flagRaw := rfl
@[simp] theorem storeUnpacked_expLen (u : Unpacked) (s : State) : (storeUnpacked u s).expLen = BitVec.ofNat 32 u.len := rfl
@[simp] theorem storeUnpacked_inLen (u : Unpacked) (s : State) : (storeUnpacked u s).inLen = s.inLen := rfl
@[simp] theorem storeUnpacked_hlen (u : Unpacked) (s : State) : (storeUnpacked u s).hlen = s.hlen := rfl
@[simp] theorem storeUnpacked_tokLen (u : Unpacked) (s : State) : (storeUnpacked u s).tokLen = BitVec.ofNat 32 u.len := rfl
@[simp] theorem storeUnpacked_finCnt (u : Unpacked) (s : State) : (storeUnpacked u s).finCnt = s.finCnt := rfl
@[simp] theorem storeUnpacked_foutCnt (u : Unpacked) (s : State) : (storeUnpacked u s).foutCnt = s.foutCnt := rfl
@[simp] theorem storeUnpacked_key (u : Unpacked) (s : State) : (storeUnpacked u s).key = s.key := rfl
@[simp] theorem storeUnpacked_inMem (u : Unpacked) (s : State) : (storeUnpacked u s).inMem = s.inMem := rfl
@[simp] theorem storeUnpacked_out (u : Unpacked) (s : State) : (storeUnpacked u s).out = s.out := rfl
@[simp] theorem storeUnpacked_tok (u : Unpacked) (s : State) : (storeUnpacked u s).tok = u.tok := rfl
@[simp] theorem storeUnpacked_ent (u : Unpacked) (s : State) : (storeUnpacked u s).ent = s.ent := rfl
@[simp] theorem storeUnpacked_wrk (u : Unpacked) (s : State) : (storeUnpacked u s).wrk = u.wrk := rfl
@[simp] theorem storeUnpacked_tbl (u : Unpacked) (s : State) : (storeUnpacked u s).tbl = s.tbl := rfl
@[simp] theorem storeUnpacked_ht (u : Unpacked) (s : State) : (storeUnpacked u s).ht = s.ht := rfl
@[simp] theorem storeUnpacked_litBuf (u : Unpacked) (s : State) : (storeUnpacked u s).litBuf = s.litBuf := rfl
@[simp] theorem storeUnpacked_fin (u : Unpacked) (s : State) : (storeUnpacked u s).fin = s.fin := rfl
@[simp] theorem storeUnpacked_fout (u : Unpacked) (s : State) : (storeUnpacked u s).fout = s.fout := rfl
@[simp] theorem storeUnpacked_ip (u : Unpacked) (s : State) : (storeUnpacked u s).ip = s.ip := rfl
@[simp] theorem storeUnpacked_tp (u : Unpacked) (s : State) : (storeUnpacked u s).tp = s.tp := rfl
@[simp] theorem storeUnpacked_pp (u : Unpacked) (s : State) : (storeUnpacked u s).pp = s.pp := rfl
@[simp] theorem storeUnpacked_ecnt (u : Unpacked) (s : State) : (storeUnpacked u s).ecnt = s.ecnt := rfl
@[simp] theorem storeUnpacked_eidx (u : Unpacked) (s : State) : (storeUnpacked u s).eidx = s.eidx := rfl
@[simp] theorem storeUnpacked_run (u : Unpacked) (s : State) : (storeUnpacked u s).run = s.run := rfl
@[simp] theorem storeUnpacked_pending (u : Unpacked) (s : State) : (storeUnpacked u s).pending = s.pending := rfl
@[simp] theorem storeUnpacked_hostData (u : Unpacked) (s : State) : (storeUnpacked u s).hostData = s.hostData := rfl
@[simp] theorem storeUnpacked_epoch (u : Unpacked) (s : State) : (storeUnpacked u s).epoch = s.epoch := rfl
@[simp] theorem storeUnpacked_outRun (u : Unpacked) (s : State) : (storeUnpacked u s).outRun = s.outRun := rfl
@[simp] theorem storeUnpacked_draws (u : Unpacked) (s : State) : (storeUnpacked u s).draws = s.draws := rfl

/-! setKey -/
@[simp] theorem setKey_cmd (k : List Byte) (s : State) : (setKey k s).cmd = s.cmd := rfl
@[simp] theorem setKey_status (k : List Byte) (s : State) : (setKey k s).status = s.status := rfl
@[simp] theorem setKey_errKind (k : List Byte) (s : State) : (setKey k s).errKind = s.errKind := rfl
@[simp] theorem setKey_errCause (k : List Byte) (s : State) : (setKey k s).errCause = s.errCause := rfl
@[simp] theorem setKey_errInfo (k : List Byte) (s : State) : (setKey k s).errInfo = s.errInfo := rfl
@[simp] theorem setKey_klen (k : List Byte) (s : State) : (setKey k s).klen = BitVec.ofNat 8 k.length := rfl
@[simp] theorem setKey_flag (k : List Byte) (s : State) : (setKey k s).flag = s.flag := rfl
@[simp] theorem setKey_flagRaw (k : List Byte) (s : State) : (setKey k s).flagRaw = s.flagRaw := rfl
@[simp] theorem setKey_expLen (k : List Byte) (s : State) : (setKey k s).expLen = s.expLen := rfl
@[simp] theorem setKey_inLen (k : List Byte) (s : State) : (setKey k s).inLen = s.inLen := rfl
@[simp] theorem setKey_hlen (k : List Byte) (s : State) : (setKey k s).hlen = s.hlen := rfl
@[simp] theorem setKey_tokLen (k : List Byte) (s : State) : (setKey k s).tokLen = s.tokLen := rfl
@[simp] theorem setKey_finCnt (k : List Byte) (s : State) : (setKey k s).finCnt = s.finCnt := rfl
@[simp] theorem setKey_foutCnt (k : List Byte) (s : State) : (setKey k s).foutCnt = s.foutCnt := rfl
@[simp] theorem setKey_key (k : List Byte) (s : State) : (setKey k s).key = writeBytes s.key 0 k := rfl
@[simp] theorem setKey_inMem (k : List Byte) (s : State) : (setKey k s).inMem = s.inMem := rfl
@[simp] theorem setKey_out (k : List Byte) (s : State) : (setKey k s).out = s.out := rfl
@[simp] theorem setKey_tok (k : List Byte) (s : State) : (setKey k s).tok = s.tok := rfl
@[simp] theorem setKey_ent (k : List Byte) (s : State) : (setKey k s).ent = s.ent := rfl
@[simp] theorem setKey_wrk (k : List Byte) (s : State) : (setKey k s).wrk = s.wrk := rfl
@[simp] theorem setKey_tbl (k : List Byte) (s : State) : (setKey k s).tbl = s.tbl := rfl
@[simp] theorem setKey_ht (k : List Byte) (s : State) : (setKey k s).ht = s.ht := rfl
@[simp] theorem setKey_litBuf (k : List Byte) (s : State) : (setKey k s).litBuf = s.litBuf := rfl
@[simp] theorem setKey_fin (k : List Byte) (s : State) : (setKey k s).fin = s.fin := rfl
@[simp] theorem setKey_fout (k : List Byte) (s : State) : (setKey k s).fout = s.fout := rfl
@[simp] theorem setKey_ip (k : List Byte) (s : State) : (setKey k s).ip = s.ip := rfl
@[simp] theorem setKey_tp (k : List Byte) (s : State) : (setKey k s).tp = s.tp := rfl
@[simp] theorem setKey_pp (k : List Byte) (s : State) : (setKey k s).pp = s.pp := rfl
@[simp] theorem setKey_ecnt (k : List Byte) (s : State) : (setKey k s).ecnt = s.ecnt := rfl
@[simp] theorem setKey_eidx (k : List Byte) (s : State) : (setKey k s).eidx = s.eidx := rfl
@[simp] theorem setKey_run (k : List Byte) (s : State) : (setKey k s).run = s.run := rfl
@[simp] theorem setKey_pending (k : List Byte) (s : State) : (setKey k s).pending = s.pending := rfl
@[simp] theorem setKey_hostData (k : List Byte) (s : State) : (setKey k s).hostData = s.hostData := rfl
@[simp] theorem setKey_epoch (k : List Byte) (s : State) : (setKey k s).epoch = s.epoch := rfl
@[simp] theorem setKey_outRun (k : List Byte) (s : State) : (setKey k s).outRun = s.outRun := rfl
@[simp] theorem setKey_draws (k : List Byte) (s : State) : (setKey k s).draws = s.draws := rfl

/-! storeHeader -/
@[simp] theorem storeHeader_cmd (cfg : Config) (h : Header) (s : State) : (storeHeader cfg h s).cmd = s.cmd := rfl
@[simp] theorem storeHeader_status (cfg : Config) (h : Header) (s : State) : (storeHeader cfg h s).status = s.status := rfl
@[simp] theorem storeHeader_errKind (cfg : Config) (h : Header) (s : State) : (storeHeader cfg h s).errKind = s.errKind := rfl
@[simp] theorem storeHeader_errCause (cfg : Config) (h : Header) (s : State) : (storeHeader cfg h s).errCause = s.errCause := rfl
@[simp] theorem storeHeader_errInfo (cfg : Config) (h : Header) (s : State) : (storeHeader cfg h s).errInfo = s.errInfo := rfl
@[simp] theorem storeHeader_klen (cfg : Config) (h : Header) (s : State) : (storeHeader cfg h s).klen = BitVec.ofNat 8 h.key.length := rfl
@[simp] theorem storeHeader_flag (cfg : Config) (h : Header) (s : State) : (storeHeader cfg h s).flag = BitVec.ofBool (flagDecode cfg h.flagRaw) := rfl
@[simp] theorem storeHeader_flagRaw (cfg : Config) (h : Header) (s : State) : (storeHeader cfg h s).flagRaw = h.flagRaw := rfl
@[simp] theorem storeHeader_expLen (cfg : Config) (h : Header) (s : State) : (storeHeader cfg h s).expLen = s.expLen := rfl
@[simp] theorem storeHeader_inLen (cfg : Config) (h : Header) (s : State) : (storeHeader cfg h s).inLen = s.inLen := rfl
@[simp] theorem storeHeader_hlen (cfg : Config) (h : Header) (s : State) : (storeHeader cfg h s).hlen = BitVec.ofNat 9 h.hlen := rfl
@[simp] theorem storeHeader_tokLen (cfg : Config) (h : Header) (s : State) : (storeHeader cfg h s).tokLen = s.tokLen := rfl
@[simp] theorem storeHeader_finCnt (cfg : Config) (h : Header) (s : State) : (storeHeader cfg h s).finCnt = s.finCnt := rfl
@[simp] theorem storeHeader_foutCnt (cfg : Config) (h : Header) (s : State) : (storeHeader cfg h s).foutCnt = s.foutCnt := rfl
@[simp] theorem storeHeader_key (cfg : Config) (h : Header) (s : State) : (storeHeader cfg h s).key = writeBytes s.key 0 h.key := rfl
@[simp] theorem storeHeader_inMem (cfg : Config) (h : Header) (s : State) : (storeHeader cfg h s).inMem = s.inMem := rfl
@[simp] theorem storeHeader_out (cfg : Config) (h : Header) (s : State) : (storeHeader cfg h s).out = s.out := rfl
@[simp] theorem storeHeader_tok (cfg : Config) (h : Header) (s : State) : (storeHeader cfg h s).tok = s.tok := rfl
@[simp] theorem storeHeader_ent (cfg : Config) (h : Header) (s : State) : (storeHeader cfg h s).ent = s.ent := rfl
@[simp] theorem storeHeader_wrk (cfg : Config) (h : Header) (s : State) : (storeHeader cfg h s).wrk = s.wrk := rfl
@[simp] theorem storeHeader_tbl (cfg : Config) (h : Header) (s : State) : (storeHeader cfg h s).tbl = s.tbl := rfl
@[simp] theorem storeHeader_ht (cfg : Config) (h : Header) (s : State) : (storeHeader cfg h s).ht = s.ht := rfl
@[simp] theorem storeHeader_litBuf (cfg : Config) (h : Header) (s : State) : (storeHeader cfg h s).litBuf = s.litBuf := rfl
@[simp] theorem storeHeader_fin (cfg : Config) (h : Header) (s : State) : (storeHeader cfg h s).fin = s.fin := rfl
@[simp] theorem storeHeader_fout (cfg : Config) (h : Header) (s : State) : (storeHeader cfg h s).fout = s.fout := rfl
@[simp] theorem storeHeader_ip (cfg : Config) (h : Header) (s : State) : (storeHeader cfg h s).ip = s.ip := rfl
@[simp] theorem storeHeader_tp (cfg : Config) (h : Header) (s : State) : (storeHeader cfg h s).tp = s.tp := rfl
@[simp] theorem storeHeader_pp (cfg : Config) (h : Header) (s : State) : (storeHeader cfg h s).pp = s.pp := rfl
@[simp] theorem storeHeader_ecnt (cfg : Config) (h : Header) (s : State) : (storeHeader cfg h s).ecnt = s.ecnt := rfl
@[simp] theorem storeHeader_eidx (cfg : Config) (h : Header) (s : State) : (storeHeader cfg h s).eidx = s.eidx := rfl
@[simp] theorem storeHeader_run (cfg : Config) (h : Header) (s : State) : (storeHeader cfg h s).run = s.run := rfl
@[simp] theorem storeHeader_pending (cfg : Config) (h : Header) (s : State) : (storeHeader cfg h s).pending = s.pending := rfl
@[simp] theorem storeHeader_hostData (cfg : Config) (h : Header) (s : State) : (storeHeader cfg h s).hostData = s.hostData := rfl
@[simp] theorem storeHeader_epoch (cfg : Config) (h : Header) (s : State) : (storeHeader cfg h s).epoch = s.epoch := rfl
@[simp] theorem storeHeader_outRun (cfg : Config) (h : Header) (s : State) : (storeHeader cfg h s).outRun = s.outRun := rfl
@[simp] theorem storeHeader_draws (cfg : Config) (h : Header) (s : State) : (storeHeader cfg h s).draws = s.draws := rfl

/-! startCommand -/
@[simp] theorem startCommand_cmd (code : Byte) (s : State) : (startCommand code s).cmd = code := rfl
@[simp] theorem startCommand_status (code : Byte) (s : State) : (startCommand code s).status = .busy := rfl
@[simp] theorem startCommand_errKind (code : Byte) (s : State) : (startCommand code s).errKind = 0 := rfl
@[simp] theorem startCommand_errCause (code : Byte) (s : State) : (startCommand code s).errCause = 0 := rfl
@[simp] theorem startCommand_errInfo (code : Byte) (s : State) : (startCommand code s).errInfo = 0 := rfl
@[simp] theorem startCommand_klen (code : Byte) (s : State) : (startCommand code s).klen = s.klen := rfl
@[simp] theorem startCommand_flag (code : Byte) (s : State) : (startCommand code s).flag = s.flag := rfl
@[simp] theorem startCommand_flagRaw (code : Byte) (s : State) : (startCommand code s).flagRaw = s.flagRaw := rfl
@[simp] theorem startCommand_expLen (code : Byte) (s : State) : (startCommand code s).expLen = s.expLen := rfl
@[simp] theorem startCommand_inLen (code : Byte) (s : State) : (startCommand code s).inLen = s.inLen := rfl
@[simp] theorem startCommand_hlen (code : Byte) (s : State) : (startCommand code s).hlen = s.hlen := rfl
@[simp] theorem startCommand_tokLen (code : Byte) (s : State) : (startCommand code s).tokLen = s.tokLen := rfl
@[simp] theorem startCommand_finCnt (code : Byte) (s : State) : (startCommand code s).finCnt = s.finCnt := rfl
@[simp] theorem startCommand_foutCnt (code : Byte) (s : State) : (startCommand code s).foutCnt = s.foutCnt := rfl
@[simp] theorem startCommand_key (code : Byte) (s : State) : (startCommand code s).key = s.key := rfl
@[simp] theorem startCommand_inMem (code : Byte) (s : State) : (startCommand code s).inMem = s.inMem := rfl
@[simp] theorem startCommand_out (code : Byte) (s : State) : (startCommand code s).out = s.out := rfl
@[simp] theorem startCommand_tok (code : Byte) (s : State) : (startCommand code s).tok = s.tok := rfl
@[simp] theorem startCommand_ent (code : Byte) (s : State) : (startCommand code s).ent = s.ent := rfl
@[simp] theorem startCommand_wrk (code : Byte) (s : State) : (startCommand code s).wrk = s.wrk := rfl
@[simp] theorem startCommand_tbl (code : Byte) (s : State) : (startCommand code s).tbl = s.tbl := rfl
@[simp] theorem startCommand_ht (code : Byte) (s : State) : (startCommand code s).ht = s.ht := rfl
@[simp] theorem startCommand_litBuf (code : Byte) (s : State) : (startCommand code s).litBuf = s.litBuf := rfl
@[simp] theorem startCommand_fin (code : Byte) (s : State) : (startCommand code s).fin = s.fin := rfl
@[simp] theorem startCommand_fout (code : Byte) (s : State) : (startCommand code s).fout = s.fout := rfl
@[simp] theorem startCommand_ip (code : Byte) (s : State) : (startCommand code s).ip = s.ip := rfl
@[simp] theorem startCommand_tp (code : Byte) (s : State) : (startCommand code s).tp = s.tp := rfl
@[simp] theorem startCommand_pp (code : Byte) (s : State) : (startCommand code s).pp = s.pp := rfl
@[simp] theorem startCommand_ecnt (code : Byte) (s : State) : (startCommand code s).ecnt = s.ecnt := rfl
@[simp] theorem startCommand_eidx (code : Byte) (s : State) : (startCommand code s).eidx = s.eidx := rfl
@[simp] theorem startCommand_run (code : Byte) (s : State) : (startCommand code s).run = .fetch := rfl
@[simp] theorem startCommand_pending (code : Byte) (s : State) : (startCommand code s).pending = s.pending := rfl
@[simp] theorem startCommand_hostData (code : Byte) (s : State) : (startCommand code s).hostData = s.hostData := rfl
@[simp] theorem startCommand_epoch (code : Byte) (s : State) : (startCommand code s).epoch = s.epoch := rfl
@[simp] theorem startCommand_outRun (code : Byte) (s : State) : (startCommand code s).outRun = s.outRun + 1 := rfl
@[simp] theorem startCommand_draws (code : Byte) (s : State) : (startCommand code s).draws = s.draws := rfl

/-! abortIllegal -/
@[simp] theorem abortIllegal_cmd (s : State) : (abortIllegal s).cmd = s.cmd := rfl
@[simp] theorem abortIllegal_status (s : State) : (abortIllegal s).status = .error := rfl
@[simp] theorem abortIllegal_errKind (s : State) : (abortIllegal s).errKind = 6 := rfl
@[simp] theorem abortIllegal_errCause (s : State) : (abortIllegal s).errCause = 0x60 := rfl
@[simp] theorem abortIllegal_errInfo (s : State) : (abortIllegal s).errInfo = BitVec.ofNat 32 s.cmd.toNat := rfl
@[simp] theorem abortIllegal_klen (s : State) : (abortIllegal s).klen = s.klen := rfl
@[simp] theorem abortIllegal_flag (s : State) : (abortIllegal s).flag = s.flag := rfl
@[simp] theorem abortIllegal_flagRaw (s : State) : (abortIllegal s).flagRaw = s.flagRaw := rfl
@[simp] theorem abortIllegal_expLen (s : State) : (abortIllegal s).expLen = s.expLen := rfl
@[simp] theorem abortIllegal_inLen (s : State) : (abortIllegal s).inLen = s.inLen := rfl
@[simp] theorem abortIllegal_hlen (s : State) : (abortIllegal s).hlen = s.hlen := rfl
@[simp] theorem abortIllegal_tokLen (s : State) : (abortIllegal s).tokLen = s.tokLen := rfl
@[simp] theorem abortIllegal_finCnt (s : State) : (abortIllegal s).finCnt = s.finCnt := rfl
@[simp] theorem abortIllegal_foutCnt (s : State) : (abortIllegal s).foutCnt = s.foutCnt := rfl
@[simp] theorem abortIllegal_key (s : State) : (abortIllegal s).key = s.key := rfl
@[simp] theorem abortIllegal_inMem (s : State) : (abortIllegal s).inMem = s.inMem := rfl
@[simp] theorem abortIllegal_out (s : State) : (abortIllegal s).out = [] := rfl
@[simp] theorem abortIllegal_tok (s : State) : (abortIllegal s).tok = s.tok := rfl
@[simp] theorem abortIllegal_ent (s : State) : (abortIllegal s).ent = s.ent := rfl
@[simp] theorem abortIllegal_wrk (s : State) : (abortIllegal s).wrk = s.wrk := rfl
@[simp] theorem abortIllegal_tbl (s : State) : (abortIllegal s).tbl = s.tbl := rfl
@[simp] theorem abortIllegal_ht (s : State) : (abortIllegal s).ht = s.ht := rfl
@[simp] theorem abortIllegal_litBuf (s : State) : (abortIllegal s).litBuf = s.litBuf := rfl
@[simp] theorem abortIllegal_fin (s : State) : (abortIllegal s).fin = s.fin := rfl
@[simp] theorem abortIllegal_fout (s : State) : (abortIllegal s).fout = s.fout := rfl
@[simp] theorem abortIllegal_ip (s : State) : (abortIllegal s).ip = s.ip := rfl
@[simp] theorem abortIllegal_tp (s : State) : (abortIllegal s).tp = s.tp := rfl
@[simp] theorem abortIllegal_pp (s : State) : (abortIllegal s).pp = s.pp := rfl
@[simp] theorem abortIllegal_ecnt (s : State) : (abortIllegal s).ecnt = s.ecnt := rfl
@[simp] theorem abortIllegal_eidx (s : State) : (abortIllegal s).eidx = s.eidx := rfl
@[simp] theorem abortIllegal_run (s : State) : (abortIllegal s).run = .fetch := rfl
@[simp] theorem abortIllegal_pending (s : State) : (abortIllegal s).pending = s.pending := rfl
@[simp] theorem abortIllegal_hostData (s : State) : (abortIllegal s).hostData = s.hostData := rfl
@[simp] theorem abortIllegal_epoch (s : State) : (abortIllegal s).epoch = s.epoch := rfl
@[simp] theorem abortIllegal_outRun (s : State) : (abortIllegal s).outRun = s.outRun := rfl
@[simp] theorem abortIllegal_draws (s : State) : (abortIllegal s).draws = s.draws := rfl

/-! forget and abort: what keeps its value (the rest is unspecified) -/
@[simp] theorem forget_cmd (s : State) : (forget s).cmd = s.cmd := rfl
@[simp] theorem forget_status (s : State) : (forget s).status = s.status := rfl
@[simp] theorem forget_errKind (s : State) : (forget s).errKind = s.errKind := rfl
@[simp] theorem forget_errCause (s : State) : (forget s).errCause = s.errCause := rfl
@[simp] theorem forget_errInfo (s : State) : (forget s).errInfo = s.errInfo := rfl
@[simp] theorem forget_klen (s : State) : (forget s).klen = s.klen := rfl
@[simp] theorem forget_flag (s : State) : (forget s).flag = s.flag := rfl
@[simp] theorem forget_flagRaw (s : State) : (forget s).flagRaw = s.flagRaw := rfl
@[simp] theorem forget_inLen (s : State) : (forget s).inLen = s.inLen := rfl
@[simp] theorem forget_hlen (s : State) : (forget s).hlen = s.hlen := rfl
@[simp] theorem forget_finCnt (s : State) : (forget s).finCnt = s.finCnt := rfl
@[simp] theorem forget_foutCnt (s : State) : (forget s).foutCnt = s.foutCnt := rfl
@[simp] theorem forget_key (s : State) : (forget s).key = s.key := rfl
@[simp] theorem forget_inMem (s : State) : (forget s).inMem = s.inMem := rfl
@[simp] theorem forget_fin (s : State) : (forget s).fin = s.fin := rfl
@[simp] theorem forget_fout (s : State) : (forget s).fout = s.fout := rfl
@[simp] theorem forget_run (s : State) : (forget s).run = s.run := rfl
@[simp] theorem forget_pending (s : State) : (forget s).pending = s.pending := rfl
@[simp] theorem forget_hostData (s : State) : (forget s).hostData = s.hostData := rfl
@[simp] theorem forget_epoch (s : State) : (forget s).epoch = s.epoch := rfl
@[simp] theorem forget_outRun (s : State) : (forget s).outRun = s.outRun := rfl
@[simp] theorem forget_out (s : State) : (forget s).out = [] := rfl
@[simp] theorem abort_cmd (r : Raise) (s : State) : (abort r s).cmd = s.cmd := rfl
@[simp] theorem abort_status (r : Raise) (s : State) : (abort r s).status = .error := rfl
@[simp] theorem abort_errKind (r : Raise) (s : State) : (abort r s).errKind = r.cause.kind.code := rfl
@[simp] theorem abort_errCause (r : Raise) (s : State) : (abort r s).errCause = r.cause.code := rfl
@[simp] theorem abort_errInfo (r : Raise) (s : State) : (abort r s).errInfo = BitVec.ofNat 32 r.info := rfl
@[simp] theorem abort_klen (r : Raise) (s : State) : (abort r s).klen = s.klen := rfl
@[simp] theorem abort_flag (r : Raise) (s : State) : (abort r s).flag = s.flag := rfl
@[simp] theorem abort_flagRaw (r : Raise) (s : State) : (abort r s).flagRaw = s.flagRaw := rfl
@[simp] theorem abort_inLen (r : Raise) (s : State) : (abort r s).inLen = s.inLen := rfl
@[simp] theorem abort_hlen (r : Raise) (s : State) : (abort r s).hlen = s.hlen := rfl
@[simp] theorem abort_finCnt (r : Raise) (s : State) : (abort r s).finCnt = s.finCnt := rfl
@[simp] theorem abort_foutCnt (r : Raise) (s : State) : (abort r s).foutCnt = s.foutCnt := rfl
@[simp] theorem abort_key (r : Raise) (s : State) : (abort r s).key = s.key := rfl
@[simp] theorem abort_inMem (r : Raise) (s : State) : (abort r s).inMem = s.inMem := rfl
@[simp] theorem abort_fin (r : Raise) (s : State) : (abort r s).fin = s.fin := rfl
@[simp] theorem abort_fout (r : Raise) (s : State) : (abort r s).fout = s.fout := rfl
@[simp] theorem abort_run (r : Raise) (s : State) : (abort r s).run = .fetch := rfl
@[simp] theorem abort_pending (r : Raise) (s : State) : (abort r s).pending = s.pending := rfl
@[simp] theorem abort_hostData (r : Raise) (s : State) : (abort r s).hostData = s.hostData := rfl
@[simp] theorem abort_epoch (r : Raise) (s : State) : (abort r s).epoch = s.epoch := rfl
@[simp] theorem abort_outRun (r : Raise) (s : State) : (abort r s).outRun = s.outRun := rfl
@[simp] theorem abort_out (r : Raise) (s : State) : (abort r s).out = [] := rfl

end Sys2Proof.Machine
end

