-- ==== Sys2Proof/Laws/Cells.lean ====
section
/-! SUPPORT. The tables of listed entries: read after write, and that every write keeps the canonical form. -/

namespace Sys2Proof.Machine

variable {α : Type}

@[simp] theorem getEntry_setEntry_same (m : List (Nat × α)) (a : Nat) (v : α) :
    getEntry (setEntry m a v) a = some v := by
  induction m with
  | nil => simp [setEntry, getEntry]
  | cons e rest ih =>
    obtain ⟨k, w⟩ := e
    simp only [setEntry]
    split
    · simp [getEntry]
    · split
      · simp [getEntry]
      · rename_i h1 h2
        simp [getEntry, h2, ih]

theorem getEntry_setEntry_other (m : List (Nat × α)) {a b : Nat} (v : α) (h : b ≠ a) :
    getEntry (setEntry m a v) b = getEntry m b := by
  induction m with
  | nil => simp [setEntry, getEntry, h]
  | cons e rest ih =>
    obtain ⟨k, w⟩ := e
    simp only [setEntry]
    split
    · simp [getEntry, h]
    · split
      · rename_i h1 h2
        subst h2
        simp [getEntry, h]
      · simp [getEntry, ih]

/-- The head of a canonical table is below its size, and its tail is canonical. -/
theorem canonical_cons {size k : Nat} {v : α} {rest : List (Nat × α)} (h : canonical size ((k, v) :: rest) = true) :
    k < size ∧ canonical size rest = true := by
  induction rest generalizing k v with
  | nil => simpa [canonical] using h
  | cons e rest ih =>
    obtain ⟨k', v'⟩ := e
    simp only [canonical, Bool.and_eq_true, decide_eq_true_eq] at h
    exact ⟨lt_trans h.1 (ih h.2).1, h.2⟩

/-- An entry put before a canonical table whose first key is larger. -/
theorem canonical_put {size a : Nat} {v : α} {m : List (Nat × α)} (ha : a < size) (h : canonical size m = true)
    (hlt : ∀ k w rest, m = (k, w) :: rest → a < k) : canonical size ((a, v) :: m) = true := by
  cases m with
  | nil => simpa [canonical] using ha
  | cons e rest =>
    obtain ⟨k, w⟩ := e
    simp only [canonical, Bool.and_eq_true, decide_eq_true_eq]
    exact ⟨hlt k w rest rfl, h⟩

/-- The first key after a write: the old first key or the written one. -/
theorem setEntry_head (m : List (Nat × α)) (a : Nat) (v : α) :
    ∃ k w rest, setEntry m a v = (k, w) :: rest ∧ (k = a ∨ ∃ w' rest', m = (k, w') :: rest') := by
  cases m with
  | nil => exact ⟨a, v, [], rfl, .inl rfl⟩
  | cons e rest =>
    obtain ⟨k, w⟩ := e
    by_cases h1 : a < k
    · exact ⟨a, v, (k, w) :: rest, by simp [setEntry, h1], .inl rfl⟩
    · by_cases h2 : a = k
      · exact ⟨a, v, rest, by simp [setEntry, h2], .inl rfl⟩
      · exact ⟨k, w, setEntry rest a v, by simp [setEntry, h1, h2], .inr ⟨w, rest, rfl⟩⟩

/-- A write inside the space keeps the canonical form. -/
theorem canonical_setEntry {size a : Nat} (v : α) {m : List (Nat × α)} (ha : a < size) (h : canonical size m = true) :
    canonical size (setEntry m a v) = true := by
  induction m with
  | nil => simpa [setEntry, canonical] using ha
  | cons e rest ih =>
    obtain ⟨k, w⟩ := e
    have hc := canonical_cons h
    simp only [setEntry]
    split
    · rename_i h1
      exact canonical_put ha h (by rintro k' w' rest' ⟨⟩; exact h1)
    · split
      · rename_i h1 h2
        subst h2
        cases rest with
        | nil => simpa [canonical] using ha
        | cons e' rest' =>
          obtain ⟨k', w'⟩ := e'
          simpa [canonical] using h
      · rename_i h1 h2
        refine canonical_put hc.1 (ih hc.2) ?_
        intro k' w' rest' he
        obtain ⟨k2, w2, r2, hset, hk2⟩ := setEntry_head rest a v
        rw [hset] at he
        obtain ⟨⟨rfl, rfl⟩, rfl⟩ : ((k2 = k' ∧ w2 = w') ∧ r2 = rest') := by simpa using he
        rcases hk2 with rfl | ⟨w3, r3, hr⟩
        · omega
        · rw [hr] at h
          simp only [canonical, Bool.and_eq_true, decide_eq_true_eq] at h
          exact h.1

/-- What a memory holds after a run of bytes is written: the bytes at their addresses, everything else as before. -/
theorem getEntry_writeBytes (m : Memory) (a : Nat) (bs : List Byte) (i : Nat) :
    getEntry (writeBytes m a bs) i = if a ≤ i ∧ i < a + bs.length then bs[i - a]? else getEntry m i := by
  induction bs generalizing m a with
  | nil => simp [writeBytes]
  | cons b bs ih =>
    simp only [writeBytes, ih, List.length_cons]
    by_cases hi : i = a
    · subst hi
      simp
    · rw [getEntry_setEntry_other _ _ hi]
      by_cases h : a + 1 ≤ i ∧ i < a + 1 + bs.length
      · have h' : a ≤ i ∧ i < a + (bs.length + 1) := by omega
        rw [if_pos h, if_pos h']
        obtain ⟨j, rfl⟩ : ∃ j, i = a + 1 + j := ⟨i - (a + 1), by omega⟩
        simp [show a + 1 + j - a = j + 1 by omega]
      · have h' : ¬(a ≤ i ∧ i < a + (bs.length + 1)) := by omega
        rw [if_neg h, if_neg h']

/-- Writing bytes inside the space keeps the canonical form. -/
theorem wf_writeBytes {size a : Nat} {m : Memory} (bs : List Byte) (ha : a + bs.length ≤ size)
    (h : Memory.wf size m = true) : Memory.wf size (writeBytes m a bs) = true := by
  induction bs generalizing m a with
  | nil => exact h
  | cons b bs ih =>
    simp only [List.length_cons] at ha
    exact ih (by omega) (canonical_setEntry b (by omega) h)

/-- A canonical table lists no key below its first. -/
theorem getEntry_below {size a k : Nat} {v : α} {m : List (Nat × α)} (h : canonical size ((k, v) :: m) = true)
    (ha : a ≤ k) : getEntry m a = none := by
  induction m generalizing k v with
  | nil => rfl
  | cons e rest ih =>
    obtain ⟨k', v'⟩ := e
    simp only [canonical, Bool.and_eq_true, decide_eq_true_eq] at h
    have hne : a ≠ k' := by omega
    simp [getEntry, hne, ih h.2 (by omega)]

/-- Equal contents are equal data: two canonical tables that read alike everywhere are the same list. -/
theorem canonical_ext {size : Nat} {m m' : List (Nat × α)} (h : canonical size m = true)
    (h' : canonical size m' = true) (heq : ∀ a, getEntry m a = getEntry m' a) : m = m' := by
  induction m generalizing m' with
  | nil =>
    cases m' with
    | nil => rfl
    | cons e rest =>
      have := heq e.1
      simp [getEntry] at this
  | cons e rest ih =>
    obtain ⟨k, v⟩ := e
    cases m' with
    | nil =>
      have := heq k
      simp [getEntry] at this
    | cons e' rest' =>
      obtain ⟨k', v'⟩ := e'
      have hk : k = k' := by
        rcases lt_trichotomy k k' with hlt | rfl | hlt
        · have := heq k
          rw [show getEntry ((k', v') :: rest') k = none from by
            simp [getEntry, hlt.ne, getEntry_below h' hlt.le]] at this
          simp [getEntry] at this
        · rfl
        · have := heq k'
          rw [show getEntry ((k, v) :: rest) k' = none from by
            simp [getEntry, hlt.ne, getEntry_below h hlt.le]] at this
          simp [getEntry] at this
      subst hk
      have hv : v = v' := by simpa [getEntry] using heq k
      subst hv
      rw [ih (canonical_cons h).2 (canonical_cons h').2]
      intro a
      by_cases ha : a = k
      · subst ha
        rw [getEntry_below h le_rfl, getEntry_below h' le_rfl]
      · simpa [getEntry, ha] using heq a

/-- A slot of the hash table read after a write: the position written, and every other slot as before. -/
theorem slot_set (t : HashTable) (i j : Nat) (p : Word) : (t.set i p).slot j = if j = i then some p else t.slot j := by
  by_cases h : j = i
  · subst h
    simp [HashTable.slot, HashTable.set]
  · simp [HashTable.slot, HashTable.set, getEntry_setEntry_other _ _ h, h]

end Sys2Proof.Machine
end

