-- ==== Sys2Proof/Laws/Operands.lean ====
section
/-! SUPPORT. The operand forms: fields and their inverses, the operands a command reads, what appending does. -/

namespace Sys2Proof.Machine

@[simp] theorem le32_length (v : Nat) : (le32 v).length = 4 := rfl

@[simp] theorem be32_length (v : Nat) : (be32 v).length = 4 := rfl

@[simp] theorem toc32_length (cfg : Config) (v : Nat) : (toc32 cfg v).length = 4 := by
  unfold toc32
  cases cfg.tocOrder <;> rfl

/-- `unLE32(LE32(v) ‖ …) = v`. -/
theorem unLe32_le32 {v : Nat} (h : v < 2 ^ 32) (rest : List Byte) : unLe32 (le32 v ++ rest) = v := by
  simp [unLe32, le32]
  omega

theorem unBe32_be32 {v : Nat} (h : v < 2 ^ 32) (rest : List Byte) : unBe32 (be32 v ++ rest) = v := by
  simp [unBe32, be32]
  omega

/-- `unTOC32(TOC32(v) ‖ …) = v`, in either byte order. -/
theorem unToc32_toc32 (cfg : Config) {v : Nat} (h : v < 2 ^ 32) (rest : List Byte) :
    unToc32 cfg (toc32 cfg v ++ rest) = v := by
  unfold unToc32 toc32
  cases cfg.tocOrder
  · exact unLe32_le32 h rest
  · exact unBe32_be32 h rest

/-- The block's table fields are little-endian (spec/00_scope.md R6, the default; log 1). -/
theorem toc32_block (v : Nat) : toc32 Config.block v = le32 v := rfl

theorem unToc32_block (bs : List Byte) : unToc32 Config.block bs = unLe32 bs := rfl

/-- A four-byte field holds a number below 2^32. -/
theorem unLe32_lt (bs : List Byte) : unLe32 bs < 2 ^ 32 := by
  unfold unLe32
  have h0 := (bs.getD 0 0).isLt
  have h1 := (bs.getD 1 0).isLt
  have h2 := (bs.getD 2 0).isLt
  have h3 := (bs.getD 3 0).isLt
  omega

theorem unToc32_lt (cfg : Config) (bs : List Byte) : unToc32 cfg bs < 2 ^ 32 := by
  unfold unToc32
  cases cfg.tocOrder
  · exact unLe32_lt bs
  · simp only [unLenField, unBe32]
    have h0 := (bs.getD 0 0).isLt
    have h1 := (bs.getD 1 0).isLt
    have h2 := (bs.getD 2 0).isLt
    have h3 := (bs.getD 3 0).isLt
    omega

theorem slice_length {bs : List Byte} {a n : Nat} (h : a + n ≤ bs.length) : (slice bs a n).length = n := by
  simp only [slice, List.length_take, List.length_drop]
  omega

@[simp] theorem inBytes_length (s : State) : (inBytes s).length = s.inLen.toNat := by simp [inBytes]

@[simp] theorem keyBytes_length (s : State) : (keyBytes s).length = s.klen.toNat := by simp [keyBytes]

theorem inBytes_getElem? (s : State) (i : Nat) :
    (inBytes s)[i]? = if i < s.inLen.toNat then some (readIn s i) else none := by
  by_cases h : i < s.inLen.toNat <;> simp [inBytes, h]

theorem keyBytes_getElem? (s : State) (i : Nat) :
    (keyBytes s)[i]? = if i < s.klen.toNat then some (readKey s i) else none := by
  by_cases h : i < s.klen.toNat <;> simp [keyBytes, h]

/-- The input operand depends on `IN`, `IN_LEN` and the resets alone. -/
theorem inBytes_congr {s t : State} (hm : t.inMem = s.inMem) (hl : t.inLen = s.inLen) (he : t.epoch = s.epoch) :
    inBytes t = inBytes s := by
  simp [inBytes, readIn, hm, hl, he]

/-- The key operand depends on `KEY`, `KLEN` and the resets alone. -/
theorem keyBytes_congr {s t : State} (hm : t.key = s.key) (hl : t.klen = s.klen) (he : t.epoch = s.epoch) :
    keyBytes t = keyBytes s := by
  simp [keyBytes, readKey, hm, hl, he]

/-- The record operand depends on `FIN` and `FIN_CNT` alone. -/
theorem finRecords_congr {s t : State} (hm : t.fin = s.fin) (hl : t.finCnt = s.finCnt) :
    finRecords t = finRecords s := by
  simp [finRecords, hm, hl]

/-- The length of a token buffer is what `tokenLen` says. -/
@[simp] theorem tokenBytes_length (s : State) (src : TokenSource) : (tokenBytes s src).length = tokenLen s src := by
  cases src <;> simp [tokenBytes, tokenLen]

/-- A stored key is the key read back, and no other register of the file changes. -/
theorem keyBytes_setKey (s : State) {k : List Byte} (h : k.length ≤ 255) : keyBytes (setKey k s) = k := by
  have hl : (BitVec.ofNat 8 k.length).toNat = k.length := by simp; omega
  apply List.ext_getElem?
  intro i
  rw [keyBytes_getElem?]
  simp only [setKey_klen, hl]
  by_cases hi : i < k.length
  · simp [hi, readKey, setKey, getEntry_writeBytes]
  · simp [hi]

theorem readKey_setKey_beyond (s : State) (k : List Byte) {j : Nat} (h : k.length ≤ j) :
    readKey (setKey k s) j = readKey s j := by
  simp [readKey, setKey, getEntry_writeBytes, Nat.not_lt.mpr h]

/-- Storing a key inside the file keeps the memory's canonical form. -/
theorem wf_setKey {s : State} {k : List Byte} (hk : k.length ≤ 255) (h : Memory.wf 255 s.key = true) :
    Memory.wf 255 (setKey k s).key = true :=
  wf_writeBytes k (by omega) h

/-- A list of options that is all there gives each of its members at its place. -/
theorem mapM_getElem? {α β : Type} (f : α → Option β) {xs : List α} {ys : List β} (h : xs.mapM f = some ys) :
    ys.length = xs.length ∧ ∀ e : Nat, ys[e]? = xs[e]?.bind f := by
  induction xs generalizing ys with
  | nil =>
    obtain rfl : [] = ys := by simpa using h
    simp
  | cons x xs ih =>
    simp only [List.mapM_cons, Option.pure_def, Option.bind_eq_bind, Option.bind_eq_some_iff, Option.some.injEq] at h
    obtain ⟨y, hy, ys', hys, rfl⟩ := h
    obtain ⟨h1, h2⟩ := ih hys
    refine ⟨by simp [h1], fun e => ?_⟩
    cases e with
    | zero => simp [hy]
    | succ e => simp [h2]

/-- A record operand has `FIN_CNT` records, each the one supplied under its index. -/
theorem finRecords_some {s : State} {recs : List FinRecord} (h : finRecords s = some recs) :
    recs.length = s.finCnt.toNat ∧ ∀ e, e < s.finCnt.toNat → recs[e]? = getEntry s.fin e := by
  obtain ⟨h1, h2⟩ := mapM_getElem? _ h
  exact ⟨by simpa using h1, fun e he => by simp [h2, he]⟩

/-- What `append` does: the bytes behind the content when they fit, else the capacity error. -/
theorem appendTo_cases (cfg : Config) (info : Nat) (buf v : List Byte) :
    (buf.length + v.length ≤ cfg.bufCap.toNat ∧ appendTo cfg info buf v = .ok (buf ++ v)) ∨
      (cfg.bufCap.toNat < buf.length + v.length ∧ appendTo cfg info buf v = .error ⟨.lengthOverflow, info⟩) := by
  unfold appendTo
  by_cases h : buf.length + v.length > cfg.bufCap.toNat
  · exact .inr ⟨h, by simp [h]⟩
  · exact .inl ⟨by omega, by simp [h]⟩

theorem appendTo_ok {cfg : Config} {info : Nat} {buf v o : List Byte} (h : appendTo cfg info buf v = .ok o) :
    o = buf ++ v ∧ o.length ≤ cfg.bufCap.toNat := by
  rcases appendTo_cases cfg info buf v with ⟨hle, he⟩ | ⟨-, he⟩
  · rw [he] at h
    obtain rfl : buf ++ v = o := by simpa using h
    exact ⟨rfl, by simpa using hle⟩
  · simp [he] at h

end Sys2Proof.Machine
end

