-- ==== Sys2Proof/Laws/Body.lean ====
section
/-! SUPPORT. How a command's body ends: the sequencing of its parts, and what the end and the abort leave. -/

namespace Sys2Proof.Machine

@[simp] theorem andThen_ok (s : State) (f : State → Body) : (Body.ok s).andThen f = f s := rfl

@[simp] theorem andThen_raised (r : Raise) (s : State) (f : State → Body) :
    (Body.raised r s).andThen f = .raised r s := rfl

theorem andThen_assoc (b : Body) (f g : State → Body) :
    (b.andThen f).andThen g = b.andThen fun s => (f s).andThen g := by
  cases b <;> rfl

@[simp] theorem settle_ok (s : State) : (Body.ok s).settle = finish s := rfl

@[simp] theorem settle_raised (r : Raise) (s : State) : (Body.raised r s).settle = abort r s := rfl

@[simp] theorem resume_ok (s : State) : (Body.ok s).resume = s := rfl

@[simp] theorem resume_raised (r : Raise) (s : State) : (Body.raised r s).resume = abort r s := rfl

@[simp] theorem bodyOf_ok {α : Type} (a : α) (s : State) (store : α → State) :
    bodyOf (.ok a) s store = .ok (store a) := rfl

@[simp] theorem bodyOf_error {α : Type} (r : Raise) (s : State) (store : α → State) :
    bodyOf (.error r : Except Raise α) s store = .raised r s := rfl

/-- A body that is ok after another was ok before it. -/
theorem andThen_eq_ok {b : Body} {f : State → Body} {t : State} (h : b.andThen f = .ok t) :
    ∃ s, b = .ok s ∧ f s = .ok t := by
  cases b with
  | ok s => exact ⟨s, rfl, h⟩
  | raised r s => simp at h

/-- A body raises in its first part, or in its second after the first was ok. -/
theorem andThen_eq_raised {b : Body} {f : State → Body} {r : Raise} {t : State} (h : b.andThen f = .raised r t) :
    b = .raised r t ∨ ∃ s, b = .ok s ∧ f s = .raised r t := by
  cases b with
  | ok s => exact .inr ⟨s, rfl, h⟩
  | raised r' s' => exact .inl h

/-- A command ends in `DONE` or in `ERROR` and nothing else (R39, R356). -/
theorem settle_cases (b : Body) :
    (∃ s, b = .ok s ∧ b.settle = finish s) ∨ (∃ r s, b = .raised r s ∧ b.settle = abort r s) := by
  cases b with
  | ok s => exact .inl ⟨s, rfl, rfl⟩
  | raised r s => exact .inr ⟨r, s, rfl, rfl⟩

/-- What an abort leaves (R315, R316). -/
theorem abort_aborted (r : Raise) (s : State) : Aborted r.cause r.info s (abort r s) :=
  ⟨rfl, rfl, rfl, rfl, rfl, rfl, rfl, rfl, rfl, rfl, rfl, rfl, rfl, rfl, rfl, rfl, rfl, rfl, rfl, rfl, rfl, rfl⟩

/-- An abort that writes no register leaves `TOKLEN` and `EXPLEN` too (spec/43_header_framer.md R202). -/
theorem abortUnwritten_aborted (r : Raise) (s : State) :
    Aborted r.cause r.info s (abortUnwritten r s) ∧ (abortUnwritten r s).tokLen = s.tokLen ∧
      (abortUnwritten r s).expLen = s.expLen := by
  refine ⟨?_, rfl, rfl⟩
  constructor <;> rfl

theorem abort_aborts (c : Cause) (info : Nat) (s : State) : Aborted c info s (abort ⟨c, info⟩ s) :=
  abort_aborted ⟨c, info⟩ s

/-- States that agree on what the block keeps agree on each register it keeps. -/
theorem kept_congr {s t : State} (h : s.kept = t.kept) :
    s.cmd = t.cmd ∧ s.status = t.status ∧ s.errKind = t.errKind ∧ s.errCause = t.errCause ∧ s.errInfo = t.errInfo ∧
      s.klen = t.klen ∧ s.key = t.key ∧ s.flag = t.flag ∧ s.flagRaw = t.flagRaw ∧ s.hlen = t.hlen ∧
      s.expLen = t.expLen ∧ s.tokLen = t.tokLen ∧ s.inMem = t.inMem ∧ s.inLen = t.inLen ∧ s.out = t.out ∧
      s.fin = t.fin ∧ s.finCnt = t.finCnt ∧ s.fout = t.fout ∧ s.foutCnt = t.foutCnt ∧ s.pending = t.pending ∧
      s.hostData = t.hostData ∧ s.epoch = t.epoch ∧ s.draws = t.draws ∧ s.outRun = t.outRun := by
  simp only [State.kept, State.mk.injEq] at h
  tauto

/-- The abort depends on what it keeps and on the counter of free values alone: what it forgets does not matter. -/
theorem abort_startOut (r : Raise) (s : State) : abort r (startOut s) = abort r s := rfl

/-- `append(OUT, v)`: the bytes behind `OUT` when they fit, else the capacity error. -/
theorem appendOut_cases (cfg : Config) (info : Nat) (v : List Byte) (s : State) :
    (s.out.length + v.length ≤ cfg.bufCap.toNat ∧ appendOut cfg info v s = .ok { s with out := s.out ++ v }) ∨
      (cfg.bufCap.toNat < s.out.length + v.length ∧
        appendOut cfg info v s = .raised ⟨.lengthOverflow, info⟩ s) := by
  rcases appendTo_cases cfg info s.out v with ⟨h, he⟩ | ⟨h, he⟩
  · exact .inl ⟨h, by simp [appendOut, he]⟩
  · exact .inr ⟨h, by simp [appendOut, he]⟩

theorem appendOut_fits {cfg : Config} {info : Nat} {v : List Byte} {s : State}
    (h : s.out.length + v.length ≤ cfg.bufCap.toNat) : appendOut cfg info v s = .ok { s with out := s.out ++ v } := by
  rcases appendOut_cases cfg info v s with ⟨-, he⟩ | ⟨h', -⟩
  · exact he
  · omega

/-- What reset leaves outside the block: the emitted records and the host's further accesses (R340). -/
theorem resetTo_outside (rest : List HostAccess) (s : State) :
    (resetTo rest s).fout = s.fout ∧ (resetTo rest s).pending = rest ∧ (resetTo rest s).status = .idle :=
  ⟨rfl, rfl, rfl⟩

end Sys2Proof.Machine
end

