-- ==== Sys2Proof/Laws/Decode.lean ====
section
/-! SUPPORT. What the token decoder can answer, said once. -/

namespace Sys2Proof

/-- The bytes of a `MATCH`, written out (spec/30_encoding.md R92). -/
theorem encode_matchRef (lm3 : BitVec 7) (off : BitVec 16) :
    encode (.matchRef lm3 off) = [1#1 ++ lm3, off.extractLsb' 8 8, off.extractLsb' 0 8] := rfl

@[simp] theorem offsetField_length (off : BitVec 16) : (offsetField off).length = 2 := rfl

/-- A decoded token is a `LIT` with the bytes its count says or a `MATCH` with the two bytes that follow, and the rest of the
stream is what stands behind it. -/
theorem decodeToken_ok {bytes rest : List Byte} {i : Instr} (h : decodeToken bytes = .ok (i, rest)) :
    (∃ c tail, bytes = c :: tail ∧ c.toNat < 128 ∧ c.toNat ≤ tail.length ∧
      i = .lit (tail.take c.toNat) ∧ rest = tail.drop c.toNat) ∨
    (∃ c hi lo, bytes = c :: hi :: lo :: rest ∧ 128 ≤ c.toNat ∧
      i = .matchRef (c.extractLsb' 0 7) (hi ++ lo)) := by
  cases bytes with
  | nil => simp [decodeToken] at h
  | cons c tail =>
    by_cases hc : c.toNat < 128
    · by_cases hl : tail.length < c.toNat
      · simp [decodeToken, hc, hl] at h
      · obtain ⟨rfl, rfl⟩ : Instr.lit (tail.take c.toNat) = i ∧ tail.drop c.toNat = rest := by
          simpa [decodeToken, hc, hl] using h
        exact .inl ⟨c, tail, rfl, hc, by omega, rfl, rfl⟩
    · match tail with
      | [] => simp [decodeToken, hc] at h
      | [_] => simp [decodeToken, hc] at h
      | hi :: lo :: r =>
        obtain ⟨rfl, rfl⟩ : Instr.matchRef (c.extractLsb' 0 7) (hi ++ lo) = i ∧ r = rest := by
          simpa [decodeToken, hc, readOffset] using h
        exact .inr ⟨c, hi, lo, rfl, by omega, rfl⟩

/-- Why a token is rejected: there is no byte, or its bytes run past the end of the stream. -/
theorem decodeToken_error {bytes : List Byte} {e : DecodeReject} (h : decodeToken bytes = .error e) :
    (bytes = [] ∧ e = .noByte) ∨
    (∃ c tail, bytes = c :: tail ∧ c.toNat < 128 ∧ tail.length < c.toNat ∧ e = .literalTruncated) ∨
    (∃ c tail, bytes = c :: tail ∧ 128 ≤ c.toNat ∧ tail.length < 2 ∧ e = .offsetTruncated) := by
  cases bytes with
  | nil => exact .inl ⟨rfl, by simpa [decodeToken] using h.symm⟩
  | cons c tail =>
    refine .inr ?_
    by_cases hc : c.toNat < 128
    · by_cases hl : tail.length < c.toNat
      · exact .inl ⟨c, tail, rfl, hc, hl, by simpa [decodeToken, hc, hl] using h.symm⟩
      · simp [decodeToken, hc, hl] at h
    · refine .inr ⟨c, tail, rfl, by omega, ?_⟩
      match tail with
      | [] => exact ⟨by simp, by simpa [decodeToken, hc] using h.symm⟩
      | [_] => exact ⟨by simp, by simpa [decodeToken, hc] using h.symm⟩
      | hi :: lo :: r => simp [decodeToken, hc] at h

/-- Every command byte is decoded when its bytes are there, and the truncation is named when they are not (R93, R95). -/
theorem decodeToken_lit {c : Byte} {tail : List Byte} (h1 : c.toNat < 128) (h2 : c.toNat ≤ tail.length) :
    decodeToken (c :: tail) = .ok (.lit (tail.take c.toNat), tail.drop c.toNat) := by
  simp [decodeToken, h1, Nat.not_lt.mpr h2]

theorem decodeToken_litTruncated {c : Byte} {tail : List Byte} (h1 : c.toNat < 128) (h2 : tail.length < c.toNat) :
    decodeToken (c :: tail) = .error .literalTruncated := by
  simp [decodeToken, h1, h2]

theorem decodeToken_match {c : Byte} (hi lo : Byte) (rest : List Byte) (h : 128 ≤ c.toNat) :
    decodeToken (c :: hi :: lo :: rest) = .ok (.matchRef (c.extractLsb' 0 7) (hi ++ lo), rest) := by
  simp [decodeToken, Nat.not_lt.mpr h, readOffset]

theorem decodeToken_matchTruncated {c : Byte} {tail : List Byte} (h1 : 128 ≤ c.toNat) (h2 : tail.length < 2) :
    decodeToken (c :: tail) = .error .offsetTruncated := by
  match tail with
  | [] => simp [decodeToken, Nat.not_lt.mpr h1]
  | [_] => simp [decodeToken, Nat.not_lt.mpr h1]
  | _ :: _ :: _ => simp at h2

/-- A decoded token lives in the token space and is well formed. -/
theorem decodeToken_space {bytes rest : List Byte} {i : Instr} (h : decodeToken bytes = .ok (i, rest)) :
    i.space = .token ∧ i.wellFormed = true := by
  rcases decodeToken_ok h with ⟨c, tail, -, hc, -, rfl, -⟩ | ⟨c, hi, lo, -, -, rfl⟩
  · refine ⟨rfl, ?_⟩
    simp only [Instr.wellFormed, Config.maxLit, decide_eq_true_eq, List.length_take]
    omega
  · exact ⟨rfl, rfl⟩

/-- A decoded command lives in the command space. -/
theorem decodeCommand_space {code : Byte} {i : Instr} (h : decodeCommand code = .ok i) : i.space = .command := by
  unfold decodeCommand at h
  split at h <;> first | (injection h with h; subst h; rfl) | simp at h

end Sys2Proof
end

