-- ==== Sys2Proof/Laws/Entropy.lean ====
section
/-! SUPPORT. The entropy adapter: what its two requests answer. -/

namespace Sys2Proof.Machine

/-- `ENT-LEN` (spec/41_entropy_adapter.md R172), by the adapter's size check. -/
theorem entropyDec_length {cfg : Config} {y z : List Byte} {size : Nat} (h : entropyDec cfg y size = some z) :
    z.length = size := by
  unfold entropyDec at h
  split at h
  · cases h
  · split at h
    · cases h
      assumption
    · cases h

theorem entropyEncode_ok {cfg : Config} {x y : List Byte} (h : entropyEncode cfg x = .ok y) :
    cfg.entropyEnc x = some y := by
  unfold entropyEncode at h
  split at h <;> cases h
  assumption

theorem entropyEncode_error {cfg : Config} {x : List Byte} {r : Raise} (h : entropyEncode cfg x = .error r) :
    cfg.entropyEnc x = none ∧ r = ⟨.entropyEncodeFailed, 0⟩ := by
  unfold entropyEncode at h
  split at h <;> cases h
  exact ⟨by assumption, rfl⟩

theorem entropyDecode_ok {cfg : Config} {y z : List Byte} {size : Nat} (h : entropyDecode cfg y size = .ok z) :
    size ≤ cfg.bufCap.toNat ∧ entropyDec cfg y size = some z ∧ z.length = size := by
  unfold entropyDecode at h
  split at h
  · cases h
  · split at h <;> cases h
    rename_i hd
    exact ⟨by omega, hd, entropyDec_length hd⟩

theorem entropyDecode_error {cfg : Config} {y : List Byte} {size : Nat} {r : Raise}
    (h : entropyDecode cfg y size = .error r) :
    (cfg.bufCap.toNat < size ∧ r = ⟨.lengthOverflow, size⟩) ∨
      (size ≤ cfg.bufCap.toNat ∧ entropyDec cfg y size = none ∧ r = ⟨.entropyDecodeFailed, size⟩) := by
  unfold entropyDecode at h
  split at h
  · cases h
    exact .inl ⟨by assumption, rfl⟩
  · split at h <;> cases h
    rename_i hn hd
    exact .inr ⟨by omega, hd, rfl⟩

end Sys2Proof.Machine
end

