-- ==== Sys2Proof/Laws/Header.lean ====
section
/-! SUPPORT. The header framer: lengths, what a read answers, what a write leaves. -/

namespace Sys2Proof.Machine

@[simp] theorem obfuscate_length (cfg : Config) (k : List Byte) : (obfuscate cfg k).length = k.length := by
  simp [obfuscate]

/-- The obfuscation is its own inverse (spec/43_header_framer.md R201). -/
@[simp] theorem obfuscate_obfuscate (cfg : Config) (k : List Byte) : obfuscate cfg (obfuscate cfg k) = k := by
  simp [obfuscate, Function.comp_def]

@[simp] theorem headerBytes_length (cfg : Config) (k : List Byte) (f : Byte) :
    (headerBytes cfg k f).length = 6 + k.length := by
  simp only [headerBytes, magicList, List.length_append, List.length_cons, List.length_nil, obfuscate_length]
  omega

/-- Two sequences whose common part is equal have no first difference. -/
theorem firstDiff_append (j : Nat) (as bs : List Byte) : firstDiff j as (as ++ bs) = none := by
  induction as generalizing j with
  | nil => simp [firstDiff]
  | cons a as ih => simp [firstDiff, ih]

/-- `ReadHeader` with the places of the header's fields written out (R203, R206). -/
theorem readHeader_eq (cfg : Config) (src : List Byte) :
    readHeader cfg src =
      if src.length < 6 then .error ⟨.headerTooShort, src.length⟩
      else
        match firstDiff 0 (magicList cfg) src with
        | some j => .error ⟨.invalidMagic, j⟩
        | none =>
          if src.length < 6 + (src.getD 4 0).toNat then .error ⟨.headerTruncated, 6 + (src.getD 4 0).toNat⟩
          else
            .ok
              { key := obfuscate cfg (slice src 5 (src.getD 4 0).toNat)
                flagRaw := src.getD (5 + (src.getD 4 0).toNat) 0
                hlen := 6 + (src.getD 4 0).toNat } := rfl

/-- A header that reads has a key of at most 255 bytes and the length its key gives (R206). -/
theorem readHeader_ok {cfg : Config} {src : List Byte} {h : Header} (he : readHeader cfg src = .ok h) :
    firstDiff 0 (magicList cfg) src = none ∧ 6 + (src.getD 4 0).toNat ≤ src.length ∧
      h = { key := obfuscate cfg (slice src 5 (src.getD 4 0).toNat)
            flagRaw := src.getD (5 + (src.getD 4 0).toNat) 0
            hlen := 6 + (src.getD 4 0).toNat } ∧
      h.key.length = (src.getD 4 0).toNat := by
  rw [readHeader_eq] at he
  split at he
  · cases he
  · split at he
    · cases he
    · split at he
      · cases he
      · rename_i hd hl
        cases he
        refine ⟨hd, by omega, rfl, ?_⟩
        rw [obfuscate_length, slice_length]
        omega

/-- What writing a header leaves when it fits. -/
theorem writeHeader_fits {cfg : Config} (flag : Byte) {s : State} (h : s.out.length + (6 + s.klen.toNat) ≤ cfg.bufCap.toNat) :
    writeHeader cfg flag s =
      .ok { s with out := s.out ++ headerBytes cfg (keyBytes s) flag, hlen := BitVec.ofNat 9 (6 + s.klen.toNat) } := by
  unfold writeHeader
  rw [appendOut_fits (by simpa using h)]
  rfl

end Sys2Proof.Machine
end

