-- ==== Sys2Proof/Laws/Keystream.lean ====
section
/-! SUPPORT. The keystream transform: its length, and byte by byte. -/

namespace Sys2Proof.Machine

@[simp] theorem keystreamFrom_length (key : List Byte) (i : Nat) (data : List Byte) :
    (keystreamFrom key i data).length = data.length := by
  induction data generalizing i with
  | nil => rfl
  | cons b bs ih => simp [keystreamFrom, ih]

@[simp] theorem keystream_length (key data : List Byte) : (keystream key data).length = data.length :=
  keystreamFrom_length key 0 data

theorem keystreamFrom_getElem? (key : List Byte) (i : Nat) (data : List Byte) (j : Nat) :
    (keystreamFrom key i data)[j]? = data[j]?.map (fun b => b ^^^ ksByte key (i + j)) := by
  induction data generalizing i j with
  | nil => simp [keystreamFrom]
  | cons b bs ih =>
    cases j with
    | zero => simp [keystreamFrom]
    | succ j => simp [keystreamFrom, ih, Nat.add_assoc, Nat.add_comm 1 j]

/-- Each output byte depends on the input byte at the same index, the key and the index alone. -/
theorem keystream_getElem? (key data : List Byte) (j : Nat) :
    (keystream key data)[j]? = data[j]?.map (fun b => b ^^^ ksByte key j) := by
  simp [keystream, keystreamFrom_getElem?]

/-- The position term is the low eight bits of the index. -/
theorem ksByte_eq (key : List Byte) (i : Nat) :
    ksByte key i = key.getD (i % key.length) 0 ^^^ BitVec.ofNat 8 i := by
  have h : BitVec.ofNat 8 (i &&& 255) = BitVec.ofNat 8 i := by
    apply BitVec.eq_of_toNat_eq
    have := Nat.and_two_pow_sub_one_eq_mod i 8
    norm_num at this
    simp [this]
  simp [ksByte, h]

end Sys2Proof.Machine
end

