-- ==== Sys2Proof/Laws/MatchCodec.lean ====
section
/-! SUPPORT. What the detokenizer and the tokenizer can do, said once for each of their operations. -/

namespace Sys2Proof.Machine

@[simp] theorem detokBody_ok (s : State) (d : Detok) : detokBody s (.ok d) = .ok (storeDetok s d) := rfl

@[simp] theorem detokBody_error (s : State) (r : Raise) :
    detokBody s (.error r) = .raised ⟨r.cause, tokenInfo s r.info⟩ s := rfl

/-- The three outcomes of a `LIT` (R133). -/
theorem litToken_truncated {cfg : Config} {n : Nat} {raw : List Byte} {d : Detok} (h : n < d.tp + 1 + raw.length) :
    litToken cfg n raw d = .error ⟨.literalTruncated, d.tp⟩ := by
  simp [litToken, h]

theorem litToken_overflow {cfg : Config} {n : Nat} {raw : List Byte} {d : Detok} (h : d.tp + 1 + raw.length ≤ n)
    (hc : cfg.bufCap.toNat < d.out.length + raw.length) : litToken cfg n raw d = .error ⟨.lengthOverflow, d.tp⟩ := by
  simp [litToken, appendTo, Nat.not_lt.mpr h, hc]

theorem litToken_fits {cfg : Config} {n : Nat} {raw : List Byte} {d : Detok} (h : d.tp + 1 + raw.length ≤ n)
    (hc : d.out.length + raw.length ≤ cfg.bufCap.toNat) :
    litToken cfg n raw d = .ok { tp := d.tp + 1 + raw.length, out := d.out ++ raw } := by
  simp [litToken, appendTo, Nat.not_lt.mpr h, Nat.not_lt.mpr hc]

/-- A `LIT` that is not refused appends its bytes and moves past itself (R133). -/
theorem litToken_ok {cfg : Config} {n : Nat} {raw : List Byte} {d d' : Detok} (h : litToken cfg n raw d = .ok d') :
    d.tp + 1 + raw.length ≤ n ∧ d.out.length + raw.length ≤ cfg.bufCap.toNat ∧
      d' = { tp := d.tp + 1 + raw.length, out := d.out ++ raw } := by
  unfold litToken at h
  by_cases hn : d.tp + 1 + raw.length > n
  · simp [hn] at h
  · rcases appendTo_cases cfg d.tp d.out raw with ⟨hc, he⟩ | ⟨-, he⟩
    · rw [if_neg hn, he] at h
      exact ⟨by omega, hc, by simpa using h.symm⟩
    · simp [hn, he] at h

/-- Why a `LIT` is refused; the datum is its index. -/
theorem litToken_error {cfg : Config} {n : Nat} {raw : List Byte} {d : Detok} {r : Raise}
    (h : litToken cfg n raw d = .error r) :
    (n < d.tp + 1 + raw.length ∧ r = ⟨.literalTruncated, d.tp⟩) ∨
      (d.tp + 1 + raw.length ≤ n ∧ cfg.bufCap.toNat < d.out.length + raw.length ∧ r = ⟨.lengthOverflow, d.tp⟩) := by
  unfold litToken at h
  by_cases hn : d.tp + 1 + raw.length > n
  · exact .inl ⟨hn, by simpa [hn] using h.symm⟩
  · rcases appendTo_cases cfg d.tp d.out raw with ⟨-, he⟩ | ⟨hc, he⟩
    · simp [hn, he] at h
    · exact .inr ⟨by omega, hc, by simpa [hn, he] using h.symm⟩

@[simp] theorem copyBytes_length (off k : Nat) (out : List Byte) : (copyBytes off k out).length = out.length + k := by
  induction k generalizing out with
  | zero => rfl
  | succ k ih =>
    simp only [copyBytes, ih, List.length_append, List.length_cons, List.length_nil]
    omega

/-- The copy only adds bytes behind those already produced. -/
theorem copyBytes_extends (off k : Nat) (out : List Byte) : out <+: copyBytes off k out := by
  induction k generalizing out with
  | zero => exact List.prefix_rfl
  | succ k ih => exact (List.prefix_append _ _).trans (ih _)

/-- The copy one byte at a time, in closed form (R136). -/
theorem copyBytes_closed (off k : Nat) (out : List Byte) (h1 : 1 ≤ off) (h2 : off ≤ out.length) :
    copyBytes off k out = out ++ (List.range k).map (fun j => out.getD (out.length - off + j % off) 0) := by
  have key : ∀ m j : Nat,
      copyBytes off m (out ++ (List.range j).map (fun j => out.getD (out.length - off + j % off) 0)) =
        out ++ (List.range (j + m)).map (fun j => out.getD (out.length - off + j % off) 0) := by
    intro m
    induction m with
    | zero => intro j; simp [copyBytes]
    | succ m ih =>
      intro j
      rw [copyBytes, show j + (m + 1) = (j + 1) + m by omega, ← ih (j + 1), List.range_succ]
      congr 1
      simp only [List.map_append, List.map_cons, List.map_nil, List.append_assoc]
      congr 3
      simp only [List.length_append, List.length_map, List.length_range]
      by_cases hj : j < off
      · rw [Nat.mod_eq_of_lt hj, List.getD_append _ _ _ _ (by omega)]
        congr 1
        omega
      · rw [List.getD_append_right _ _ _ _ (by omega), show out.length + j - off - out.length = j - off by omega,
          List.getD_eq_getElem _ _ (by simp; omega)]
        simp [← Nat.mod_eq_sub_mod (Nat.not_lt.mp hj)]
  simpa using key k 0

/-- `MATCH` with the length of its token written out. -/
theorem matchToken_eq (cfg : Config) (n len off : Nat) (d : Detok) :
    matchToken cfg n len off d =
      if d.tp + 3 > n then .error ⟨.offsetTruncated, d.tp⟩
      else if off = 0 ∨ off > d.out.length then .error ⟨.badOffset, d.tp⟩
      else if d.out.length + len > cfg.bufCap.toNat then .error ⟨.lengthOverflow, d.tp⟩
      else .ok { tp := d.tp + 3, out := copyBytes off len d.out } := rfl

/-- The four outcomes of a `MATCH`, in the order of its checks (R134). -/
theorem matchToken_truncated {cfg : Config} {n len off : Nat} {d : Detok} (h : n < d.tp + 3) :
    matchToken cfg n len off d = .error ⟨.offsetTruncated, d.tp⟩ := by
  simp [matchToken, h]

theorem matchToken_badOffset {cfg : Config} {n len off : Nat} {d : Detok} (h : d.tp + 3 ≤ n)
    (ho : off = 0 ∨ d.out.length < off) : matchToken cfg n len off d = .error ⟨.badOffset, d.tp⟩ := by
  simp [matchToken, Nat.not_lt.mpr h, ho]

theorem matchToken_overflow {cfg : Config} {n len off : Nat} {d : Detok} (h : d.tp + 3 ≤ n)
    (ho : ¬(off = 0 ∨ d.out.length < off)) (hc : cfg.bufCap.toNat < d.out.length + len) :
    matchToken cfg n len off d = .error ⟨.lengthOverflow, d.tp⟩ := by
  simp [matchToken, Nat.not_lt.mpr h, ho, hc]

theorem matchToken_fits {cfg : Config} {n len off : Nat} {d : Detok} (h : d.tp + 3 ≤ n)
    (ho : ¬(off = 0 ∨ d.out.length < off)) (hc : d.out.length + len ≤ cfg.bufCap.toNat) :
    matchToken cfg n len off d = .ok { tp := d.tp + 3, out := copyBytes off len d.out } := by
  simp [matchToken, Nat.not_lt.mpr h, ho, Nat.not_lt.mpr hc]

/-- A `MATCH` that is not refused copies and moves past itself (R134, R135). -/
theorem matchToken_ok {cfg : Config} {n len off : Nat} {d d' : Detok} (h : matchToken cfg n len off d = .ok d') :
    d.tp + 3 ≤ n ∧ 1 ≤ off ∧ off ≤ d.out.length ∧ d.out.length + len ≤ cfg.bufCap.toNat ∧
      d' = { tp := d.tp + 3, out := copyBytes off len d.out } := by
  rw [matchToken_eq] at h
  by_cases h1 : d.tp + 3 > n
  · simp [h1] at h
  · by_cases h2 : off = 0 ∨ off > d.out.length
    · simp [h1, h2] at h
    · by_cases h3 : d.out.length + len > cfg.bufCap.toNat
      · rw [if_neg h1, if_neg h2, if_pos h3] at h
        simp at h
      · rw [if_neg h1, if_neg h2, if_neg h3] at h
        refine ⟨by omega, ?_, ?_, by omega, by simpa using h.symm⟩ <;> omega

/-- Why a `MATCH` is refused, in the order of the checks; the datum is its index. -/
theorem matchToken_error {cfg : Config} {n len off : Nat} {d : Detok} {r : Raise}
    (h : matchToken cfg n len off d = .error r) :
    (n < d.tp + 3 ∧ r = ⟨.offsetTruncated, d.tp⟩) ∨
      (d.tp + 3 ≤ n ∧ (off = 0 ∨ d.out.length < off) ∧ r = ⟨.badOffset, d.tp⟩) ∨
      (d.tp + 3 ≤ n ∧ 1 ≤ off ∧ off ≤ d.out.length ∧ cfg.bufCap.toNat < d.out.length + len ∧
        r = ⟨.lengthOverflow, d.tp⟩) := by
  rw [matchToken_eq] at h
  by_cases h1 : d.tp + 3 > n
  · exact .inl ⟨h1, by simpa [h1] using h.symm⟩
  · by_cases h2 : off = 0 ∨ off > d.out.length
    · exact .inr (.inl ⟨by omega, h2, by simpa [h1, h2] using h.symm⟩)
    · by_cases h3 : d.out.length + len > cfg.bufCap.toNat
      · rw [if_neg h1, if_neg h2, if_pos h3] at h
        refine .inr (.inr ⟨by omega, ?_, ?_, by omega, by simpa using h.symm⟩) <;> omega
      · rw [if_neg h1, if_neg h2, if_neg h3] at h
        simp at h

/-- The four errors a token can raise (R302, the row of `MDEC`). -/
def tokenCauses : List Cause := [.literalTruncated, .offsetTruncated, .badOffset, .lengthOverflow]

/-- One token of the stream: `TP` grows and stays inside the buffer, the output only grows and stays within the capacity. -/
theorem detokStep_ok {cfg : Config} {T : List Byte} {d d' : Detok} (h : detokStep cfg T d = .ok d') :
    d.tp < d'.tp ∧ d'.tp ≤ T.length ∧ d.out <+: d'.out ∧ d'.out.length ≤ cfg.bufCap.toNat := by
  unfold detokStep at h
  cases hd : decodeToken (T.drop d.tp) with
  | error e => simp [hd] at h
  | ok p =>
    obtain ⟨i, rest⟩ := p
    rcases decodeToken_ok hd with ⟨c, tail, -, -, -, rfl, -⟩ | ⟨c, hi, lo, -, -, rfl⟩
    · simp only [hd] at h
      obtain ⟨h1, h2, rfl⟩ := litToken_ok h
      exact ⟨by dsimp; omega, h1, List.prefix_append _ _, by simpa using h2⟩
    · simp only [hd] at h
      obtain ⟨h1, -, -, h2, rfl⟩ := matchToken_ok h
      exact ⟨by dsimp; omega, h1, copyBytes_extends _ _ _, by simpa using h2⟩

theorem detokStep_error {cfg : Config} {T : List Byte} {d : Detok} {r : Raise} (h : detokStep cfg T d = .error r) :
    r.cause ∈ tokenCauses ∧ r.info = d.tp := by
  unfold detokStep at h
  cases hd : decodeToken (T.drop d.tp) with
  | error e =>
    obtain rfl : tokenReject d.tp e = r := by simpa [hd] using h
    cases e <;> simp [tokenReject, tokenCauses]
  | ok p =>
    obtain ⟨i, rest⟩ := p
    rcases decodeToken_ok hd with ⟨c, tail, -, -, -, rfl, -⟩ | ⟨c, hi, lo, -, -, rfl⟩
    · simp only [hd] at h
      rcases litToken_error h with ⟨-, rfl⟩ | ⟨-, -, rfl⟩ <;> simp [tokenCauses]
    · simp only [hd] at h
      rcases matchToken_error h with ⟨-, rfl⟩ | ⟨-, -, rfl⟩ | ⟨-, -, -, -, rfl⟩ <;> simp [tokenCauses]

/-- The run halts with `TP` at the end of the buffer (R131); `n` tokens always suffice (R137). -/
theorem detokRun_ok {cfg : Config} {T : List Byte} {fuel : Nat} {d d' : Detok} (hd : d.tp ≤ T.length)
    (hf : T.length ≤ d.tp + fuel) (hc : d.out.length ≤ cfg.bufCap.toNat) (h : detokRun cfg T fuel d = .ok d') :
    d'.tp = T.length ∧ d.out <+: d'.out ∧ d'.out.length ≤ cfg.bufCap.toNat := by
  induction fuel generalizing d with
  | zero =>
    obtain rfl : d = d' := by simpa [detokRun] using h
    exact ⟨by omega, List.prefix_rfl, hc⟩
  | succ fuel ih =>
    unfold detokRun at h
    by_cases hlt : d.tp < T.length
    · rw [if_pos hlt] at h
      cases hs : detokStep cfg T d with
      | error r => simp [hs] at h
      | ok d1 =>
        simp only [hs] at h
        obtain ⟨h1, h2, h3, h4⟩ := detokStep_ok hs
        obtain ⟨e1, e2, e3⟩ := ih h2 (by omega) h4 h
        exact ⟨e1, h3.trans e2, e3⟩
    · obtain rfl : d = d' := by simpa [hlt] using h
      exact ⟨by omega, List.prefix_rfl, hc⟩

theorem detokRun_error {cfg : Config} {T : List Byte} {fuel : Nat} {d : Detok} {r : Raise}
    (h : detokRun cfg T fuel d = .error r) : r.cause ∈ tokenCauses := by
  induction fuel generalizing d with
  | zero => simp [detokRun] at h
  | succ fuel ih =>
    unfold detokRun at h
    by_cases hlt : d.tp < T.length
    · rw [if_pos hlt] at h
      cases hs : detokStep cfg T d with
      | error r' =>
        obtain rfl : r' = r := by simpa [hs] using h
        exact (detokStep_error hs).1
      | ok d1 => exact ih (by simpa [hs] using h)
    · simp [hlt] at h

/-- The detokenizer on the state writes `TP` and `OUT`, or raises one of the token errors in the state it was started in. -/
theorem detokenize_cases (cfg : Config) (s : State) :
    (∃ d, detokenize cfg s = .ok (storeDetok s d) ∧
        detokRun cfg (tokenBytes s (runSource s)) (tokenBytes s (runSource s)).length (detokOf s) = .ok d) ∨
      (∃ r, detokenize cfg s = .raised r s ∧ r.cause ∈ tokenCauses) := by
  unfold detokenize
  cases h : detokRun cfg (tokenBytes s (runSource s)) (tokenBytes s (runSource s)).length (detokOf s) with
  | ok d => exact .inl ⟨d, by simp only [h, detokBody], rfl⟩
  | error r =>
    exact .inr ⟨⟨r.cause, tokenInfo s r.info⟩, by simp only [h, detokBody], (detokRun_error h : r.cause ∈ tokenCauses)⟩

/-- `flush()` writes the pending run as one `LIT`, nothing when there is none (R147). -/
theorem flushLits_ok {cfg : Config} {t t' : Tokenizer} (h : flushLits cfg t = .ok t') :
    t' = { t with litBuf := [], dst := t.dst ++ (if t.litBuf = [] then [] else encode (.lit t.litBuf)) } ∧
      (t.dst.length ≤ cfg.bufCap.toNat → t'.dst.length ≤ cfg.bufCap.toNat) := by
  obtain ⟨ht, lits, ip, dst⟩ := t
  cases lits with
  | nil =>
    obtain rfl : ({ ht, litBuf := [], ip, dst } : Tokenizer) = t' := by simpa [flushLits] using h
    simp
  | cons b bs =>
    rcases appendTo_cases cfg 0 dst (encode (.lit (b :: bs))) with ⟨hc, he⟩ | ⟨-, he⟩
    · simp only [flushLits, he, Except.ok.injEq] at h
      subst h
      exact ⟨by simp, fun _ => by simpa using hc⟩
    · simp [flushLits, he] at h

theorem flushLits_error {cfg : Config} {t : Tokenizer} {r : Raise} (h : flushLits cfg t = .error r) :
    r = ⟨.lengthOverflow, 0⟩ := by
  obtain ⟨ht, lits, ip, dst⟩ := t
  cases lits with
  | nil => simp [flushLits] at h
  | cons b bs =>
    rcases appendTo_cases cfg 0 dst (encode (.lit (b :: bs))) with ⟨-, he⟩ | ⟨-, he⟩
    · simp [flushLits, he] at h
    · simpa [flushLits, he] using h.symm

/-- The extension never passes its limit (R144). -/
theorem extendMatch_le (src : List Byte) (cand ip lim k : Nat) : extendMatch src cand ip lim k ≤ lim + k := by
  induction lim generalizing k with
  | zero => simp [extendMatch]
  | succ lim ih =>
    unfold extendMatch
    split
    · exact (ih (k + 1)).trans (by omega)
    · omega

/-- Every byte it counted is equal at the candidate and at the position (R144). -/
theorem extendMatch_equal (src : List Byte) (cand ip lim k j : Nat) (h1 : k ≤ j)
    (h2 : j < extendMatch src cand ip lim k) : src.getD (cand + j) 0 = src.getD (ip + j) 0 := by
  induction lim generalizing k with
  | zero => simp only [extendMatch] at h2; omega
  | succ lim ih =>
    unfold extendMatch at h2
    split at h2
    · rename_i heq
      by_cases hk : k = j
      · subst hk; exact heq
      · exact ih (k + 1) (by omega) h2
    · omega

/-- Below its limit it stopped at two bytes that differ (R144). -/
theorem extendMatch_stops (src : List Byte) (cand ip lim k : Nat) (h : extendMatch src cand ip lim k < lim + k) :
    src.getD (cand + extendMatch src cand ip lim k) 0 ≠ src.getD (ip + extendMatch src cand ip lim k) 0 := by
  induction lim generalizing k with
  | zero => simp [extendMatch] at h
  | succ lim ih =>
    unfold extendMatch at h ⊢
    split
    · rename_i heq
      rw [if_pos heq] at h
      exact ih (k + 1) (by omega)
    · assumption

/-- The search with its constants written out (R142 to R144). -/
theorem searchMatch_eq (cfg : Config) (src : List Byte) (t : Tokenizer) :
    searchMatch cfg src t =
      if t.ip + 3 ≤ src.length then
        match t.ht.slot (hashAt cfg src t.ip) with
        | none => (0, 0, t.ht.set (hashAt cfg src t.ip) (BitVec.ofNat 32 t.ip))
        | some cand =>
          if 1 ≤ t.ip - cand.toNat ∧ t.ip - cand.toNat ≤ 65535 then
            (extendMatch src cand.toNat t.ip (min 130 (src.length - t.ip)) 0, t.ip - cand.toNat,
              t.ht.set (hashAt cfg src t.ip) (BitVec.ofNat 32 t.ip))
          else (0, 0, t.ht.set (hashAt cfg src t.ip) (BitVec.ofNat 32 t.ip))
      else (0, 0, t.ht) := rfl

/-- What a search finds is inside its bounds: at most 130 bytes, inside the input, at a distance of 1 to 65535 when there is
something (R143, R144). -/
theorem searchMatch_bounds (cfg : Config) (src : List Byte) (t : Tokenizer) (hip : t.ip ≤ src.length) :
    (searchMatch cfg src t).1 ≤ 130 ∧ t.ip + (searchMatch cfg src t).1 ≤ src.length ∧
      (0 < (searchMatch cfg src t).1 →
        1 ≤ (searchMatch cfg src t).2.1 ∧ (searchMatch cfg src t).2.1 ≤ 65535 ∧ (searchMatch cfg src t).2.1 ≤ t.ip) := by
  unfold searchMatch
  by_cases h1 : t.ip + 3 ≤ src.length
  · simp only [Config.hashBytes, h1, if_true]
    cases hs : t.ht.slot (hashAt cfg src t.ip) with
    | none => simp [hip]
    | some cand =>
      dsimp only
      by_cases h2 : 1 ≤ t.ip - cand.toNat ∧ t.ip - cand.toNat ≤ Config.maxOffset
      · have := extendMatch_le src cand.toNat t.ip (min Config.maxMatch (src.length - t.ip)) 0
        rw [if_pos h2]
        simp only [Config.maxOffset, Config.maxMatch] at h2 this ⊢
        refine ⟨by omega, by omega, fun _ => ⟨h2.1, h2.2, by omega⟩⟩
      · rw [if_neg h2]
        simp [hip]
  · simp only [Config.hashBytes, h1, if_false]
    simp [hip]

/-- The pending run is written whenever it fits with its command byte (R147). -/
theorem flushLits_fits {cfg : Config} {t : Tokenizer} (h : t.dst.length + (t.litBuf.length + 1) ≤ cfg.bufCap.toNat) :
    flushLits cfg t =
      .ok { t with
        litBuf := []
        dst := t.dst ++ (if t.litBuf = [] then [] else encode (.lit t.litBuf)) } := by
  obtain ⟨ht, lits, ip, dst⟩ := t
  cases lits with
  | nil => simp [flushLits]
  | cons b bs =>
    rcases appendTo_cases cfg 0 dst (encode (.lit (b :: bs))) with ⟨-, he⟩ | ⟨hc, -⟩
    · simp [flushLits, he]
    · simp only [encode, List.length_cons] at hc h
      omega

/-- The `n` skipped positions from `j` on in the table (R145): a slot that none of them hashes to stands as before, and each
slot one hashes to holds the last such position. -/
theorem enterSkipped_slot (cfg : Config) (src : List Byte) (n j : Nat) (ht : HashTable) :
    (∀ i, (∀ q, j ≤ q → q < j + n → q + 3 ≤ src.length → hashAt cfg src q ≠ i) →
      (enterSkipped cfg src n j ht).slot i = ht.slot i) ∧
    (∀ q, j ≤ q → q < j + n → q + 3 ≤ src.length →
      (∀ q', q < q' → q' < j + n → q' + 3 ≤ src.length → hashAt cfg src q' ≠ hashAt cfg src q) →
        (enterSkipped cfg src n j ht).slot (hashAt cfg src q) = some (BitVec.ofNat 32 q)) := by
  induction n generalizing j ht with
  | zero => exact ⟨fun _ _ => rfl, fun q h1 h2 => by omega⟩
  | succ n ih =>
    obtain ⟨ih1, ih2⟩ := ih (j + 1) (if j + 3 ≤ src.length then ht.set (hashAt cfg src j) (BitVec.ofNat 32 j) else ht)
    refine ⟨fun i hi => ?_, fun q h1 h2 h3 h4 => ?_⟩
    · refine (ih1 i fun q h1 h2 h3 => hi q (by omega) (by omega) h3).trans ?_
      split
      · rename_i hj
        rw [slot_set, if_neg (Ne.symm (hi j le_rfl (by omega) hj))]
      · rfl
    · by_cases hq : q = j
      · subst hq
        refine (ih1 _ fun q' h1' h2' h3' => h4 q' (by omega) (by omega) h3').trans ?_
        rw [if_pos h3, slot_set, if_pos rfl]
      · exact ih2 q (by omega) (by omega) h3 fun q' a b c => h4 q' a (by omega) c

/-- One step of the tokenizer moves `IP` on, and not past the end of the input (R142). -/
theorem tokenizerStep_ip {cfg : Config} {src : List Byte} {t t' : Tokenizer} (hip : t.ip < src.length)
    (h : tokenizerStep cfg src t = .ok t') : t.ip < t'.ip ∧ t'.ip ≤ src.length := by
  have hb := searchMatch_bounds cfg src t (by omega)
  unfold tokenizerStep at h
  dsimp only at h
  split at h
  · rename_i hm
    have hm : (searchMatch cfg src t).1 ≥ 3 := hm
    unfold emitMatch at h
    cases hf : flushLits cfg { t with ht := (searchMatch cfg src t).2.2 } with
    | error r => simp [hf] at h
    | ok t1 =>
      simp only [hf] at h
      obtain ⟨rfl, -⟩ := flushLits_ok hf
      split at h
      · cases h
      · cases h
        exact ⟨by dsimp only; omega, hb.2.1⟩
  · unfold takeLiteral at h
    dsimp only at h
    split at h
    · obtain ⟨rfl, -⟩ := flushLits_ok h
      exact ⟨by dsimp only; omega, hip⟩
    · cases h
      exact ⟨by dsimp only; omega, hip⟩

/-- The run ends with `IP` at the end of the input; as many steps as it has bytes suffice (R142). -/
theorem tokenizerRun_ip {cfg : Config} {src : List Byte} {fuel : Nat} {t t' : Tokenizer} (hip : t.ip ≤ src.length)
    (hf : src.length ≤ t.ip + fuel) (h : tokenizerRun cfg src fuel t = .ok t') : t'.ip = src.length := by
  induction fuel generalizing t with
  | zero =>
    cases h
    omega
  | succ f ih =>
    unfold tokenizerRun at h
    split at h
    · rename_i hlt
      split at h
      · rename_i t1 h1
        obtain ⟨-, hle⟩ := tokenizerStep_ip hlt h1
        exact ih hle (by have := (tokenizerStep_ip hlt h1).1; omega) h
      · cases h
    · cases h
      omega

theorem emitMatch_error {cfg : Config} {src : List Byte} {mlen moff : Nat} {t : Tokenizer} {r : Raise}
    (h : emitMatch cfg src mlen moff t = .error r) : r = ⟨.lengthOverflow, 0⟩ := by
  unfold emitMatch at h
  cases hf : flushLits cfg t with
  | error e =>
    obtain rfl : e = r := by simpa [hf] using h
    exact flushLits_error hf
  | ok t1 =>
    simp only [hf] at h
    rcases appendTo_cases cfg 0 t1.dst
        (encode (.matchRef (BitVec.ofNat 7 (mlen - Config.minMatch)) (BitVec.ofNat 16 moff))) with ⟨-, he⟩ | ⟨-, he⟩
    · simp only [he] at h
      cases h
    · simp only [he] at h
      cases h
      rfl

theorem takeLiteral_error {cfg : Config} {src : List Byte} {t : Tokenizer} {r : Raise}
    (h : takeLiteral cfg src t = .error r) : r = ⟨.lengthOverflow, 0⟩ := by
  unfold takeLiteral at h
  dsimp only at h
  split at h
  · exact flushLits_error h
  · simp at h

/-- The tokenizer raises nothing but the capacity error, with datum 0 (R140; log 11). -/
theorem tokenizerStep_error {cfg : Config} {src : List Byte} {t : Tokenizer} {r : Raise}
    (h : tokenizerStep cfg src t = .error r) : r = ⟨.lengthOverflow, 0⟩ := by
  unfold tokenizerStep at h
  dsimp only at h
  split at h
  · exact emitMatch_error h
  · exact takeLiteral_error h

theorem tokenizerRun_error {cfg : Config} {src : List Byte} {fuel : Nat} {t : Tokenizer} {r : Raise}
    (h : tokenizerRun cfg src fuel t = .error r) : r = ⟨.lengthOverflow, 0⟩ := by
  induction fuel generalizing t with
  | zero => simp [tokenizerRun] at h
  | succ fuel ih =>
    unfold tokenizerRun at h
    split at h
    · cases hs : tokenizerStep cfg src t with
      | error e =>
        obtain rfl : e = r := by simpa [hs] using h
        exact tokenizerStep_error hs
      | ok t1 => exact ih (by simpa [hs] using h)
    · simp at h

theorem tokenize_error {cfg : Config} {src : List Byte} {r : Raise} (h : tokenize cfg src = .error r) :
    r = ⟨.lengthOverflow, 0⟩ := by
  unfold tokenize at h
  cases hr : tokenizerRun cfg src src.length tokenizerStart with
  | error e =>
    obtain rfl : e = r := by simpa [hr] using h
    exact tokenizerRun_error hr
  | ok t => exact flushLits_error (by simpa [hr] using h)

/-- No literal is pending at the end of a tokenizer run (spec/10_state.md R26). -/
theorem tokenize_ok_litBuf {cfg : Config} {src : List Byte} {t : Tokenizer} (h : tokenize cfg src = .ok t) :
    t.litBuf = [] := by
  unfold tokenize at h
  cases hr : tokenizerRun cfg src src.length tokenizerStart with
  | error e => simp [hr] at h
  | ok t1 =>
    simp only [hr] at h
    rw [(flushLits_ok h).1]

/-- And `IP` stands at the end of the input. -/
theorem tokenize_ok_ip {cfg : Config} {src : List Byte} {t : Tokenizer} (h : tokenize cfg src = .ok t) :
    t.ip = src.length := by
  unfold tokenize at h
  cases hr : tokenizerRun cfg src src.length tokenizerStart with
  | error e => simp [hr] at h
  | ok t1 =>
    simp only [hr] at h
    rw [(flushLits_ok h).1]
    exact (tokenizerRun_ip (Nat.zero_le _) (Nat.le_add_left _ _) hr : t1.ip = src.length)

end Sys2Proof.Machine
end

