-- ==== Sys2Proof/Laws/Payload.lean ====
section
/-! SUPPORT. The file payload codec: everything its two operations can answer. -/

namespace Sys2Proof.Machine

/-- `PayloadCompress` with its length field written out: four bytes, little-endian (spec/00_scope.md R5). -/
theorem payloadCompress_eq (cfg : Config) (key src : List Byte) :
    payloadCompress cfg key src =
      if key.length = 0 then .error ⟨.emptyKey, 0⟩
      else
        match tokenize cfg src with
        | .error r => .error r
        | .ok t =>
          match entropyEncode cfg t.dst with
          | .error r => .error r
          | .ok ent =>
            if 4 + ent.length > cfg.bufCap.toNat then .error ⟨.lengthOverflow, 0⟩
            else .ok { tz := t, ent := ent, wrk := keystream key (le32 t.dst.length ++ ent) } := rfl

/-- `PayloadDecompress` up to the detokenizer, its length field written out. -/
theorem payloadUnpack_eq (cfg : Config) (key payload : List Byte) :
    payloadUnpack cfg key payload =
      if key.length = 0 then .error ⟨.emptyKey, 0⟩
      else if (keystream key payload).length < 4 then .error ⟨.payloadTooShort, (keystream key payload).length⟩
      else
        match entropyDecode cfg ((keystream key payload).drop 4) (unLe32 (slice (keystream key payload) 0 4)) with
        | .error r => .error r
        | .ok tok =>
          .ok { wrk := keystream key payload, len := unLe32 (slice (keystream key payload) 0 4), tok := tok } := rfl

/-- A payload that is made (spec/44_file_payload.md R221). -/
theorem payloadCompress_ok {cfg : Config} {key src : List Byte} {p : Payload} (h : payloadCompress cfg key src = .ok p) :
    key ≠ [] ∧ tokenize cfg src = .ok p.tz ∧ cfg.entropyEnc p.tz.dst = some p.ent ∧
      4 + p.ent.length ≤ cfg.bufCap.toNat ∧ p.wrk = keystream key (le32 p.tz.dst.length ++ p.ent) ∧
      p.wrk.length = 4 + p.ent.length := by
  rw [payloadCompress_eq] at h
  split at h
  · cases h
  · rename_i hk
    cases ht : tokenize cfg src with
    | error r => simp [ht] at h
    | ok t =>
      simp only [ht] at h
      cases he : entropyEncode cfg t.dst with
      | error r => simp [he] at h
      | ok ent =>
        simp only [he] at h
        split at h
        · cases h
        · rename_i hc
          cases h
          refine ⟨by rintro rfl; simp at hk, rfl, entropyEncode_ok he, Nat.not_lt.mp hc, rfl, ?_⟩
          simp only [keystream_length, List.length_append, le32_length]

/-- Why none is made, in the order of the tests (R221, R222). -/
theorem payloadCompress_error {cfg : Config} {key src : List Byte} {r : Raise}
    (h : payloadCompress cfg key src = .error r) :
    (key = [] ∧ r = ⟨.emptyKey, 0⟩) ∨
      (key ≠ [] ∧ (r = ⟨.lengthOverflow, 0⟩ ∨ r = ⟨.entropyEncodeFailed, 0⟩)) := by
  rw [payloadCompress_eq] at h
  split at h
  · rename_i hk
    cases h
    exact .inl ⟨List.eq_nil_of_length_eq_zero hk, rfl⟩
  · rename_i hk
    refine .inr ⟨by rintro rfl; simp at hk, ?_⟩
    cases ht : tokenize cfg src with
    | error e =>
      simp only [ht, Except.error.injEq] at h
      subst h
      exact .inl (tokenize_error ht)
    | ok t =>
      simp only [ht] at h
      cases he : entropyEncode cfg t.dst with
      | error e =>
        simp only [he, Except.error.injEq] at h
        subst h
        exact .inr (entropyEncode_error he).2
      | ok ent =>
        simp only [he] at h
        split at h <;> cases h
        exact .inl rfl

/-- A payload that unpacks (R226). -/
theorem payloadUnpack_ok {cfg : Config} {key payload : List Byte} {u : Unpacked}
    (h : payloadUnpack cfg key payload = .ok u) :
    key ≠ [] ∧ 4 ≤ payload.length ∧ u.wrk = keystream key payload ∧ u.len = unLe32 (slice u.wrk 0 4) ∧
      u.len ≤ cfg.bufCap.toNat ∧ entropyDec cfg (u.wrk.drop 4) u.len = some u.tok ∧ u.tok.length = u.len := by
  rw [payloadUnpack_eq] at h
  split at h
  · cases h
  · rename_i hk
    split at h
    · cases h
    · rename_i hl
      cases he : entropyDecode cfg ((keystream key payload).drop 4) (unLe32 (slice (keystream key payload) 0 4)) with
      | error r => simp [he] at h
      | ok z =>
        simp only [he, Except.ok.injEq] at h
        subst h
        obtain ⟨h1, h2, h3⟩ := entropyDecode_ok he
        simp only [keystream_length] at hl
        exact ⟨by rintro rfl; simp at hk, by omega, rfl, rfl, h1, h2, h3⟩

/-- Why it does not, in the order of R227. -/
theorem payloadUnpack_error {cfg : Config} {key payload : List Byte} {r : Raise}
    (h : payloadUnpack cfg key payload = .error r) :
    (key = [] ∧ r = ⟨.emptyKey, 0⟩) ∨
      (key ≠ [] ∧ payload.length < 4 ∧ r = ⟨.payloadTooShort, payload.length⟩) ∨
      (key ≠ [] ∧ 4 ≤ payload.length ∧
        entropyDecode cfg ((keystream key payload).drop 4) (unLe32 (slice (keystream key payload) 0 4)) = .error r) := by
  rw [payloadUnpack_eq] at h
  split at h
  · rename_i hk
    cases h
    exact .inl ⟨List.eq_nil_of_length_eq_zero hk, rfl⟩
  · rename_i hk
    have hk' : key ≠ [] := by rintro rfl; simp at hk
    split at h
    · rename_i hl
      cases h
      rw [keystream_length] at hl ⊢
      exact .inr (.inl ⟨hk', hl, rfl⟩)
    · rename_i hl
      rw [keystream_length] at hl
      refine .inr (.inr ⟨hk', Nat.not_lt.mp hl, ?_⟩)
      cases he : entropyDecode cfg ((keystream key payload).drop 4) (unLe32 (slice (keystream key payload) 0 4)) with
      | error e =>
        simp only [he, Except.error.injEq] at h
        rw [h]
      | ok z => simp [he] at h

end Sys2Proof.Machine
end

