-- ==== Sys2Proof/Laws/Folder.lean ====
section
/-! SUPPORT. The folder payload codec: the table's fields, one entry of an extraction, what building and extracting leave. -/

namespace Sys2Proof.Machine

theorem takeField_ok {tbl v : List Byte} {pp n q : Nat} {c : Cause} (h : takeField tbl pp n c = .ok (v, q)) :
    pp + n ≤ tbl.length ∧ v = slice tbl pp n ∧ q = pp + n := by
  unfold takeField at h
  split at h
  · cases h
  · cases h
    exact ⟨by omega, rfl, rfl⟩

theorem takeField_error {tbl : List Byte} {pp n : Nat} {c c' : Cause} (h : takeField tbl pp n c = .error c') :
    tbl.length < pp + n ∧ c' = c := by
  unfold takeField at h
  split at h
  · cases h
    exact ⟨by assumption, rfl⟩
  · cases h

/-- A length becomes a field of four bytes when it fits one and the buffer has room (spec/20_memory.md R70). -/
theorem appendField_ok {cfg : Config} {buf o : List Byte} {v : Nat} (h : appendField cfg buf v = .ok o) :
    v ≤ 2 ^ 32 - 1 ∧ o = buf ++ toc32 cfg v ∧ o.length = buf.length + 4 ∧ o.length ≤ cfg.bufCap.toNat := by
  unfold appendField at h
  split at h
  · cases h
  · rename_i hv
    obtain ⟨rfl, hc⟩ := appendTo_ok h
    refine ⟨Nat.not_lt.mp hv, rfl, by simp, hc⟩

theorem appendField_error {cfg : Config} {buf : List Byte} {v : Nat} {r : Raise} (h : appendField cfg buf v = .error r) :
    r = ⟨.lengthOverflow, 0⟩ ∧ (2 ^ 32 ≤ v ∨ cfg.bufCap.toNat < buf.length + 4) := by
  unfold appendField at h
  split at h
  · rename_i hv
    cases h
    exact ⟨rfl, .inl (by have : 2 ^ 32 - 1 < v := hv; omega)⟩
  · rcases appendTo_cases cfg 0 buf (toc32 cfg v) with ⟨-, he⟩ | ⟨hc, he⟩
    · simp [he] at h
    · rw [he] at h
      cases h
      exact ⟨rfl, .inr (by simpa using hc)⟩

/-- An entry that is built: its five fields behind the table, within the capacity (spec/45_folder_payload.md R241). -/
theorem buildEntry_ok {cfg : Config} {key : List Byte} {rec : FinRecord} {tbl : List Byte} {b : Built}
    (h : buildEntry cfg key rec tbl = .ok b) :
    ∃ p, payloadCompress cfg key rec.data = .ok p ∧ b.last = some p ∧
      b.tbl = tbl ++ toc32 cfg rec.path.length ++ rec.path ++ toc32 cfg p.tz.dst.length ++ toc32 cfg p.wrk.length ++ p.wrk ∧
      b.tbl.length = tbl.length + (12 + rec.path.length + p.wrk.length) ∧ b.tbl.length ≤ cfg.bufCap.toNat := by
  unfold buildEntry at h
  simp only [bind, Except.bind] at h
  split at h
  · cases h
  rename_i p hp
  split at h
  · cases h
  rename_i o1 h1
  split at h
  · cases h
  rename_i o2 h2
  split at h
  · cases h
  rename_i o3 h3
  split at h
  · cases h
  rename_i o4 h4
  split at h
  · cases h
  rename_i o5 h5
  cases h
  obtain ⟨-, rfl, -, -⟩ := appendField_ok h1
  obtain ⟨rfl, -⟩ := appendTo_ok h2
  obtain ⟨-, rfl, -, -⟩ := appendField_ok h3
  obtain ⟨-, rfl, -, -⟩ := appendField_ok h4
  obtain ⟨rfl, hc⟩ := appendTo_ok h5
  refine ⟨p, hp, rfl, rfl, ?_, hc⟩
  simp only [List.length_append, toc32_length]
  omega

/-- Why an entry is not built: its file does not compress, or its fields do not fit (R240). -/
theorem buildEntry_error {cfg : Config} {key : List Byte} {rec : FinRecord} {tbl : List Byte} {r : Raise}
    (hk : ∀ p, payloadCompress cfg key rec.data = .ok p → p.tz.dst.length < 2 ^ 32 ∧ p.wrk.length < 2 ^ 32)
    (h : buildEntry cfg key rec tbl = .error r) :
    payloadCompress cfg key rec.data = .error r ∨
      ∃ p, payloadCompress cfg key rec.data = .ok p ∧ r = ⟨.lengthOverflow, 0⟩ ∧
        cfg.bufCap.toNat < tbl.length + (12 + rec.path.length + p.wrk.length) := by
  have hcap : cfg.bufCap.toNat < 2 ^ 32 := cfg.bufCap.isLt
  unfold buildEntry at h
  simp only [bind, Except.bind] at h
  split at h
  · rename_i e he
    cases h
    exact .inl he
  rename_i p hp
  obtain ⟨b1, b2⟩ := hk p hp
  refine .inr ⟨p, hp, ?_⟩
  split at h
  · rename_i e he
    cases h
    obtain ⟨rfl, hv⟩ := appendField_error he
    exact ⟨rfl, by omega⟩
  rename_i o1 h1
  have l1 := (appendField_ok h1).2.2.1
  split at h
  · rename_i e he
    cases h
    rcases appendTo_cases cfg 0 o1 rec.path with ⟨-, ha⟩ | ⟨hc, ha⟩
    · simp [ha] at he
    · rw [ha] at he
      cases he
      exact ⟨rfl, by omega⟩
  rename_i o2 h2
  obtain ⟨rfl, -⟩ := appendTo_ok h2
  split at h
  · rename_i e he
    cases h
    obtain ⟨rfl, hv⟩ := appendField_error he
    rw [List.length_append] at hv
    exact ⟨rfl, by omega⟩
  rename_i o3 h3
  have l3 := (appendField_ok h3).2.2.1
  rw [List.length_append] at l3
  split at h
  · rename_i e he
    cases h
    obtain ⟨rfl, hv⟩ := appendField_error he
    exact ⟨rfl, by omega⟩
  rename_i o4 h4
  have l4 := (appendField_ok h4).2.2.1
  split at h
  · rename_i e he
    cases h
    rcases appendTo_cases cfg 0 o4 p.wrk with ⟨-, ha⟩ | ⟨hc, ha⟩
    · simp [ha] at he
    · rw [ha] at he
      cases he
      exact ⟨rfl, by omega⟩
  · cases h

/-- A table with one more entry (spec/30_encoding.md R105). -/
theorem clearTable_snoc_length (cfg : Config) (recs : List FinRecord) (ps : List Payload) (rec : FinRecord) (p : Payload)
    (h : recs.length = ps.length) :
    (clearTable cfg (recs ++ [rec]) (ps ++ [p])).length =
      (clearTable cfg recs ps).length + (12 + rec.path.length + p.wrk.length) := by
  simp only [clearTable, List.zipWith_append h, List.flatten_append, List.length_append, toc32_length]
  simp
  omega

/-- An entry that parses lies inside the table and takes at least twelve bytes before its block
(spec/70_reset_and_hazards.md R354). -/
theorem parseEntry_ok {cfg : Config} {tbl : List Byte} {pp : Nat} {e : Entry} (h : parseEntry cfg tbl pp = .ok e) :
    pp + 12 ≤ e.start ∧ e.start + e.block.length ≤ tbl.length := by
  unfold parseEntry at h
  simp only [bind, Except.bind] at h
  cases h1 : takeField tbl pp 4 .pathLengthTruncated with
  | error c => simp [h1] at h
  | ok p1 =>
    obtain ⟨v1, q1⟩ := p1
    simp only [h1] at h
    obtain ⟨-, -, rfl⟩ := takeField_ok h1
    cases h2 : takeField tbl (pp + 4) (unToc32 cfg v1) .pathTruncated with
    | error c => simp [h2] at h
    | ok p2 =>
      obtain ⟨v2, q2⟩ := p2
      simp only [h2] at h
      obtain ⟨-, -, rfl⟩ := takeField_ok h2
      cases h3 : takeField tbl (pp + 4 + unToc32 cfg v1) 4 .origLenTruncated with
      | error c => simp [h3] at h
      | ok p3 =>
        obtain ⟨v3, q3⟩ := p3
        simp only [h3] at h
        obtain ⟨-, -, rfl⟩ := takeField_ok h3
        cases h4 : takeField tbl (pp + 4 + unToc32 cfg v1 + 4) 4 .blockLengthTruncated with
        | error c => simp [h4] at h
        | ok p4 =>
          obtain ⟨v4, q4⟩ := p4
          simp only [h4] at h
          obtain ⟨-, -, rfl⟩ := takeField_ok h4
          cases h5 : takeField tbl (pp + 4 + unToc32 cfg v1 + 4 + 4) (unToc32 cfg v4) .blockTruncated with
          | error c => simp [h5] at h
          | ok p5 =>
            obtain ⟨v5, q5⟩ := p5
            simp only [h5] at h
            obtain ⟨h6, rfl, rfl⟩ := takeField_ok h5
            simp only [pure, Except.pure, Except.ok.injEq] at h
            subst h
            dsimp only
            rw [slice_length h6]
            omega

/-- One entry of an extraction: truncated, or not decompressed, or refused by the host, or emitted (spec/45_folder_payload.md
R252 to R258). -/
theorem entryBody_spec (cfg : Config) (s : State) (ht : s.tbl.length < 2 ^ 32) :
    match parseEntry cfg s.tbl s.pp.toNat with
    | .error c => entryBody cfg s = .raised ⟨c, s.eidx.toNat⟩ s
    | .ok e =>
      match fileOf cfg (keyBytes s) e.block with
      | .error r => ∃ t, entryBody cfg s = .raised ⟨r.cause, s.eidx.toNat⟩ t ∧ ∀ q, abort q t = abort q s
      | .ok (len, data) =>
        if cfg.hostWrite s.draws e.path data then
          ∃ t, entryBody cfg s = .ok t ∧ t.tbl = s.tbl ∧ t.ecnt = s.ecnt ∧ t.eidx = s.eidx + 1 ∧
            t.pp.toNat = e.start + e.block.length ∧
            t.kept =
              State.kept
                { s with
                  out := data
                  tokLen := BitVec.ofNat 32 len
                  expLen := BitVec.ofNat 32 len
                  fout := s.fout ++ [{ path := e.path, data := data }]
                  foutCnt := s.foutCnt + 1
                  draws := s.draws + 1 }
        else
          ∃ t, entryBody cfg s = .raised ⟨.hostWriteError, s.eidx.toNat⟩ t ∧
            ∀ c info, Aborted c info s (abort ⟨c, info⟩ t) := by
  cases hp : parseEntry cfg s.tbl s.pp.toNat with
  | error c => simp [entryBody, entryStart, hp]
  | ok e =>
    have hb := parseEntry_ok hp
    dsimp only
    unfold fileOf
    cases hu : payloadUnpack cfg (keyBytes s) e.block with
    | error r =>
      simp only [entryBody, entryStart, hp, hu, inEntry, bodyOf_error, andThen_raised]
      exact ⟨_, rfl, fun _ => rfl⟩
    | ok u =>
      simp only [entryBody, entryStart, hp, hu, inEntry, bodyOf_ok, andThen_ok]
      unfold matchDecode
      simp only [detokenize, startTokens, storeUnpacked, runSource, tokenBytes, detokOf]
      rw [show ((0 : Word)).toNat = 0 from rfl]
      cases hr : detokRun cfg u.tok u.tok.length { tp := 0, out := [] } with
      | error r =>
        simp only [detokBody_error, andThen_raised, tokenInfo]
        exact ⟨_, rfl, fun _ => rfl⟩
      | ok d =>
        simp only [detokBody_ok, andThen_ok, afterTokens, storeDetok, entryFinish]
        have hpp : (BitVec.ofNat 32 ((BitVec.ofNat 32 e.start).toNat + e.block.length)).toNat =
            e.start + e.block.length := by
          simp only [BitVec.toNat_ofNat]
          omega
        by_cases hw : cfg.hostWrite s.draws e.path d.out = true
        · simp only [hw, if_true]
          exact ⟨_, rfl, rfl, rfl, rfl, hpp, rfl⟩
        · simp only [hw]
          exact ⟨_, rfl, fun _ _ =>
            ⟨rfl, rfl, rfl, rfl, rfl, rfl, rfl, rfl, rfl, rfl, rfl, rfl, rfl, rfl, rfl, rfl, rfl, rfl, rfl, rfl, rfl, rfl⟩⟩

/-- An extraction that has read a length field still has one at its end. -/
theorem extraction_lastLen (cfg : Config) (key tbl : List Byte) (n e pp draw len : Nat) :
    ∃ l, (extraction cfg key tbl n e pp draw (some len)).lastLen = some l := by
  induction n generalizing e pp draw len with
  | zero => exact ⟨len, rfl⟩
  | succ n ih =>
    unfold extraction
    cases parseEntry cfg tbl pp with
    | error c => exact ⟨_, rfl⟩
    | ok entry =>
      dsimp only
      cases fileOf cfg key entry.block with
      | error r => exact ⟨_, rfl⟩
      | ok p =>
        dsimp only
        split
        · exact ih _ _ _ _
        · exact ⟨_, rfl⟩

end Sys2Proof.Machine
end

