-- ==== Sys2Proof/Laws/PerInstr.lean ====
section
/-! SUPPORT. What is said of each instruction as syntax: the length of its encoding (spec/30_encoding.md R91 to R93, R111). -/

namespace Sys2Proof.Laws.EncodedLength

/-- A well-formed instruction takes 1 to 128 bytes; a command takes one. -/
def Statement (i : Instr) : Prop :=
  i.wellFormed = true →
    1 ≤ (encode i).length ∧ (encode i).length ≤ longestInstr ∧ (i.space = .command → (encode i).length = 1)

theorem lit (raw : List Byte) : Statement (.lit raw) := by
  intro h
  have hl : raw.length ≤ 127 := of_decide_eq_true h
  refine ⟨?_, ?_, fun hs => nomatch hs⟩
  · simp [encode]
  · simp only [encode, List.length_cons, longestInstr]
    omega

theorem matchRef (lm3 : BitVec 7) (off : BitVec 16) : Statement (.matchRef lm3 off) :=
  fun _ => ⟨by simp [encode], by simp [encode, longestInstr], fun hs => nomatch hs⟩

theorem menc : Statement .menc := fun _ => ⟨by decide, by decide, fun _ => rfl⟩

theorem mdec : Statement .mdec := fun _ => ⟨by decide, by decide, fun _ => rfl⟩

theorem eenc : Statement .eenc := fun _ => ⟨by decide, by decide, fun _ => rfl⟩

theorem edec : Statement .edec := fun _ => ⟨by decide, by decide, fun _ => rfl⟩

theorem ksx : Statement .ksx := fun _ => ⟨by decide, by decide, fun _ => rfl⟩

theorem hdrw : Statement .hdrw := fun _ => ⟨by decide, by decide, fun _ => rfl⟩

theorem hdrr : Statement .hdrr := fun _ => ⟨by decide, by decide, fun _ => rfl⟩

theorem fpc : Statement .fpc := fun _ => ⟨by decide, by decide, fun _ => rfl⟩

theorem fpd : Statement .fpd := fun _ => ⟨by decide, by decide, fun _ => rfl⟩

theorem tblb : Statement .tblb := fun _ => ⟨by decide, by decide, fun _ => rfl⟩

theorem tblx : Statement .tblx := fun _ => ⟨by decide, by decide, fun _ => rfl⟩

theorem cfile : Statement .cfile := fun _ => ⟨by decide, by decide, fun _ => rfl⟩

theorem dfile : Statement .dfile := fun _ => ⟨by decide, by decide, fun _ => rfl⟩

theorem bfold : Statement .bfold := fun _ => ⟨by decide, by decide, fun _ => rfl⟩

theorem xfold : Statement .xfold := fun _ => ⟨by decide, by decide, fun _ => rfl⟩

theorem rhdr : Statement .rhdr := fun _ => ⟨by decide, by decide, fun _ => rfl⟩

end Sys2Proof.Laws.EncodedLength
end

