-- ==== Sys2Proof/Laws/Step.lean ====
section
/-! SUPPORT. The step: who moves, and what each mover does. -/

namespace Sys2Proof.Machine

/-- With no access to serve, a busy engine moves. -/
theorem step_engine {s : State} (h1 : s.status = .busy) (h2 : nextAccess s = none) : step s = engineStep s := by
  simp [step, h1, h2]

/-- An access but a reset inside a command is served on the state as it stands. -/
theorem serveAccess_plain {a : HostAccess} (h : ∀ k, a ≠ .resetDuring k) (rest : List HostAccess) (s : State) :
    serveAccess a rest s = hostAccess a { s with pending := rest } := by
  cases a <;> first | rfl | exact absurd rfl (h _)

/-- A reset inside a command: the state after reset, and of the command what it had emitted (R340). -/
theorem serveAccess_resetDuring (k : Nat) (rest : List HostAccess) (s : State) :
    serveAccess (.resetDuring k) rest s =
      .next (resetTo rest { s with pending := rest, fout := emittedBefore k s, draws := s.draws + k }) := rfl

/-- With no access to serve, an engine that is not busy waits (spec/10_state.md R47). -/
theorem step_waits {s : State} (h1 : s.status ≠ .busy) (h2 : s.pending = []) : step s = .next s := by
  simp [step, nextAccess, h1, h2]

/-- The access served next is the first pending one; while busy it is a reset or a read of `STATUS`. -/
theorem nextAccess_some {s : State} {a : HostAccess} {rest : List HostAccess} (h : nextAccess s = some (a, rest)) :
    s.pending = a :: rest ∧ (s.status = .busy → servedWhileBusy a = true) := by
  unfold nextAccess at h
  split at h
  · cases h
  · rename_i a' rest' hp
    split at h
    · split at h
      · cases h
        exact ⟨hp, fun _ => by assumption⟩
      · cases h
    · rename_i hs
      cases h
      exact ⟨hp, fun hb => absurd hb hs⟩

theorem servedWhileBusy_cases {a : HostAccess} (h : servedWhileBusy a = true) :
    a = .reset ∨ a = .readReg 1 ∨ ∃ k, a = .resetDuring k := by
  cases a with
  | reset => exact .inl rfl
  | readReg no => exact .inr (.inl (congrArg HostAccess.readReg (of_decide_eq_true h : no = statusReg)))
  | writeReg _ _ => cases h
  | resetDuring k => exact .inr (.inr ⟨k, rfl⟩)
  | writeIn _ _ => cases h
  | writeOut _ _ => cases h
  | readIn _ => cases h
  | readOut _ => cases h
  | writeFin _ _ => cases h

/-- An engine that is not busy serves the host's next access, whatever it is. -/
theorem step_serves {s : State} {a : HostAccess} {rest : List HostAccess} (h1 : s.status ≠ .busy)
    (h2 : s.pending = a :: rest) : step s = serveAccess a rest s := by
  simp [step, nextAccess, h1, h2]

/-- A busy engine serves those accesses alone that it serves at any moment. -/
theorem step_servesBusy {s : State} {a : HostAccess} {rest : List HostAccess} (h1 : servedWhileBusy a = true)
    (h2 : s.pending = a :: rest) : step s = serveAccess a rest s := by
  simp [step, nextAccess, h1, h2]

/-- Inside the buffer, the engine at the token grain runs the token it decodes. -/
theorem stepTokens_decoded {s : State} {src : TokenSource} {next : After} {i : Instr} {rest : List Byte}
    (hd : fetchToken s src = .ok (i, rest)) : stepTokens src next s = exec i s := by
  have hlt : s.tp.toNat < tokenLen s src := by
    rw [← tokenBytes_length]
    by_contra hc
    rw [fetchToken, List.drop_eq_nil_of_le (by omega)] at hd
    simp [decodeToken] at hd
  have h1 : s.tp.toNat ≠ tokenLen s src := by omega
  have h2 : ¬s.tp.toNat > tokenLen s src := by omega
  simp only [stepTokens, h1, h2, if_false, hd]

/-- A register number beyond the table's first fifteen is one of `KEY` or lists nothing (spec/10_state.md R38). -/
theorem regValue_beyond (s : State) {no : Nat} (h : 15 ≤ no) :
    regValue s no = if isKeyReg no then some ((readKey s (no - 256)).setWidth 32) else none := by
  obtain ⟨n, rfl⟩ : ∃ n, no = n + 15 := ⟨no - 15, by omega⟩
  rfl

/-- A host read of a register that is listed returns its value and changes nothing else. -/
theorem hostReadReg_listed {s : State} {no : Nat} {v : Word} (h : regValue s no = some v) :
    hostReadReg no s = { s with hostData := v } := by
  simp [hostReadReg, h]

/-- Of an unlisted number it returns a draw. -/
theorem hostReadReg_unlisted {s : State} {no : Nat} (h : regValue s no = none) :
    hostReadReg no s = { s with hostData := Config.unspecifiedWord .hostRead s.draws, draws := s.draws + 1 } := by
  simp [hostReadReg, h]

/-- A host write of a register keeps the key memory's canonical form. -/
theorem wf_hostWriteReg {s : State} (no : Nat) (v : Word) (h : Memory.wf 255 s.key = true) :
    Memory.wf 255 (hostWriteReg no v s).key = true := by
  unfold hostWriteReg
  split
  all_goals first
    | exact h
    | (split
       · rename_i hk
         have hk' : 256 ≤ no ∧ no < 256 + 255 := of_decide_eq_true hk
         exact canonical_setEntry _ (by omega) h
       · exact h)

/-- The memories and tables of the state after power-on are in their canonical form. -/
theorem wf_reset :
    Memory.wf 255 State.reset.key = true ∧ Memory.wf (2 ^ 32) State.reset.inMem = true ∧
      canonical (2 ^ 32) State.reset.fin = true ∧ canonical 65536 State.reset.ht.cells = true :=
  ⟨rfl, rfl, rfl, rfl⟩

end Sys2Proof.Machine
end

