-- ==== Sys2Proof/Tests/Slice0.lean ====
section
/-! SUPPORT. The model's own tests. Expected results come from spec/95_test_vectors.md (named by their ids) and from the
encoding tables of spec/30_encoding.md; the witnesses show that the hypotheses of the statements can be met. -/

namespace Sys2Proof.Tests

open Sys2Proof.Machine

/-! ## The test configuration and small states -/

/-- `T0` of spec/95_test_vectors.md section 0; the flag bytes 2 to 255, which it does not fix, read as a folder here. -/
def t0 : Config where
  magic := fun i => [0xA0, 0xA1, 0xA2, 0xA3].getD i.val 0
  keyObf := 0x5A
  hash3 := fun a b c => (a.setWidth 16 <<< 8) ^^^ (b.setWidth 16 <<< 4) ^^^ c.setWidth 16
  insertSkipped := false
  tocOrder := .little
  flagDecodeHigh := fun _ => true
  decompKeySource := .header
  bufCap := 0xFFFFFFFF
  entropyEnc := some
  entropyDecRaw := fun y n => if y.length = n then some y else none
  hostWrite := fun _ _ _ => true

/-- A state without unspecified places. -/
def base : State :=
  { State.reset with
    tok := []
    ent := []
    wrk := []
    tbl := []
    ht := HashTable.cleared
    litBuf := []
    ip := 0
    tp := 0
    pp := 0
    ecnt := 0
    eidx := 0 }

/-- A state with bytes in `IN` and a key. -/
def given (bytes key : List Byte) : State :=
  { base with
    inMem := writeBytes [] 0 bytes
    inLen := BitVec.ofNat 32 bytes.length
    key := writeBytes [] 0 key
    klen := BitVec.ofNat 8 key.length }

/-- A detokenizer running over `IN`, with output so far. -/
def running (bytes out : List Byte) (tp : Word) : State :=
  { given bytes [] with status := .busy, run := .tokens .input .command, out := out, tp := tp }

/-- A busy engine at a command, an access of the host pending. -/
def busyWith (code : Byte) (pending : List HostAccess) : State :=
  { base with status := .busy, cmd := code, pending := pending }

def record (path data : List Byte) (ioerr : Bool) : FinRecord := { path := path, data := data, ioerr := ioerr }

def endedDone (o : Host.Outcome State Fault Refusal) (out : List Byte) : Bool :=
  match o with
  | .next t => decide (t.status = .done) && decide (t.out = out)
  | .fault _ => false
  | .refused _ => false

def endedError (o : Host.Outcome State Fault Refusal) (c : Cause) (info : Nat) : Bool :=
  match o with
  | .next t =>
    decide (t.status = .error) && decide (t.errKind = c.kind.code) && decide (t.errCause = c.code) &&
      decide (t.errInfo = BitVec.ofNat 32 info) && decide (t.out = [])
  | .fault _ => false
  | .refused _ => false

/-- The state after, or `base`. -/
def after (o : Host.Outcome State Fault Refusal) : State :=
  match o with
  | .next t => t
  | .fault _ => base
  | .refused _ => base

/-! ## Well-formedness: 127 raw bytes are the most (R91) -/

theorem test_wellFormed_refuses_long_lit : (Instr.lit (List.replicate 128 0)).wellFormed = false := by
  simp [Instr.wellFormed]
theorem test_wellFormed_accepts_full_lit : (Instr.lit (List.replicate 127 0)).wellFormed = true := by
  simp [Instr.wellFormed]

/-! ## Decoding: words written out from R91, R92, R110 -/

theorem test_decode_lit : decodeToken [0x03, 0x61, 0x62, 0x63, 0x80] = .ok (.lit [0x61, 0x62, 0x63], [0x80]) := by decide
theorem test_decode_match : decodeToken [0x85, 0x01, 0x02, 0x00] = .ok (.matchRef 5 0x0102, [0x00]) := by decide
theorem test_decode_menc : decodeCommand 0x01 = .ok .menc := rfl
theorem test_decode_mdec : decodeCommand 0x02 = .ok .mdec := rfl
theorem test_decode_eenc : decodeCommand 0x03 = .ok .eenc := rfl
theorem test_decode_edec : decodeCommand 0x04 = .ok .edec := rfl
theorem test_decode_ksx : decodeCommand 0x05 = .ok .ksx := rfl
theorem test_decode_hdrw : decodeCommand 0x06 = .ok .hdrw := rfl
theorem test_decode_hdrr : decodeCommand 0x07 = .ok .hdrr := rfl
theorem test_decode_fpc : decodeCommand 0x08 = .ok .fpc := rfl
theorem test_decode_fpd : decodeCommand 0x09 = .ok .fpd := rfl
theorem test_decode_tblb : decodeCommand 0x0A = .ok .tblb := rfl
theorem test_decode_tblx : decodeCommand 0x0B = .ok .tblx := rfl
theorem test_decode_cfile : decodeCommand 0x10 = .ok .cfile := rfl
theorem test_decode_dfile : decodeCommand 0x11 = .ok .dfile := rfl
theorem test_decode_bfold : decodeCommand 0x12 = .ok .bfold := rfl
theorem test_decode_xfold : decodeCommand 0x13 = .ok .xfold := rfl
theorem test_decode_rhdr : decodeCommand 0x14 = .ok .rhdr := rfl
theorem test_decode_rejects :
    decodeToken [] = .error .noByte ∧ decodeToken [0x05, 0x61, 0x62] = .error .literalTruncated ∧
      decodeToken [0x80, 0x00] = .error .offsetTruncated ∧ decodeCommand 0xFF = .error .illegalCommand := by decide
theorem test_table_words :
    decodeTableWord 8 0x10 = some .cfile ∧ decodeTableWord 24 0x010086 = some (.matchRef 6 1) ∧
      decodeTableWord 24 0x626102 = some (.lit [0x61, 0x62]) ∧ decodeTableWord 8 0x00 = some (.lit []) := by
  decide +kernel
theorem test_run_expands : encodeAll (runTok 0x41 10) = [0x01, 0x41, 0x86, 0x00, 0x01] := by decide

/-! ## Instructions -/

-- LIT, R133's example
theorem test_lit_copies :
    (after (execLit [0x61, 0x62, 0x63] (running [0x03, 0x61, 0x62, 0x63] [] 0))).out = [0x61, 0x62, 0x63] ∧
      (after (execLit [0x61, 0x62, 0x63] (running [0x03, 0x61, 0x62, 0x63] [] 0))).tp = 4 := by decide
-- V-MD-15
theorem test_lit_truncated : endedError (step (running [0x05, 0x61, 0x62] [] 0)) .literalTruncated 0 = true := by decide
-- MATCH, R135's example
theorem test_match_overlaps :
    (after (execMatch 6 1 (running [0x01, 0x41, 0x86, 0x00, 0x01] [0x41] 2))).out = List.replicate 10 0x41 := by decide
-- V-MD-10
theorem test_match_bad_offset :
    endedError (execMatch 0 2 (running [0x01, 0x41, 0x80, 0x00, 0x02] [0x41] 2)) .badOffset 2 = true := by decide
-- V-ME-11
theorem test_menc_latest_candidate :
    endedDone (mencWith t0 (given [0x61, 0x62, 0x63, 0x58, 0x61, 0x62, 0x63, 0x59, 0x61, 0x62, 0x63] []))
      [0x04, 0x61, 0x62, 0x63, 0x58, 0x80, 0x00, 0x04, 0x01, 0x59, 0x80, 0x00, 0x04] = true := by decide
-- V-ME-5
theorem test_menc_overlap :
    endedDone (mencWith t0 (given (List.replicate 10 0x41) [])) [0x01, 0x41, 0x86, 0x00, 0x01] = true := by decide
-- P3
theorem test_mdec_program :
    endedDone (execMdec (given [0x02, 0x61, 0x62, 0x85, 0x00, 0x02, 0x00, 0x01, 0x21] []))
      [0x61, 0x62, 0x61, 0x62, 0x61, 0x62, 0x61, 0x62, 0x61, 0x62, 0x21] = true := by decide
-- V-MD-14
theorem test_mdec_truncation_first :
    endedError (execMdec (given [0x01, 0x41, 0x80, 0x00] [])) .offsetTruncated 2 = true := by decide
-- V-EN-1
theorem test_eenc_delivers :
    endedDone (eencWith t0 (given [0x01, 0x41, 0x86] [])) [0x01, 0x41, 0x86] = true := by decide
-- V-EN-5
theorem test_eenc_failure :
    endedError (eencWith { t0 with entropyEnc := fun _ => none } (given [0x01] [])) .entropyEncodeFailed 0 = true := by
  decide
-- V-EN-3
theorem test_edec_delivers :
    endedDone (edecWith t0 { given [0x01, 0x41, 0x86] [] with expLen := 3 }) [0x01, 0x41, 0x86] = true := by decide
-- V-EN-4
theorem test_edec_size_mismatch :
    endedError (edecWith t0 { given [0x01, 0x41, 0x86, 0x00, 0x01] [] with expLen := 4 }) .entropyDecodeFailed 4 = true := by
  decide
-- V-KS-3
theorem test_ksx_key_and_position :
    endedDone (execKsx (given [0, 0, 0, 0, 0, 0] [0x01, 0x02, 0x03])) [0x01, 0x03, 0x01, 0x02, 0x06, 0x06] = true := by
  decide
-- V-KS-8
theorem test_ksx_empty_key : endedError (execKsx (given [] [])) .emptyKey 0 = true := by decide
-- V-HW-4
theorem test_hdrw_bytes :
    endedDone (hdrwWith t0 { given [] [0x6B, 0x65, 0x79] with flag := 1 })
      [0xA0, 0xA1, 0xA2, 0xA3, 0x03, 0x31, 0x3F, 0x23, 0x01] = true := by decide
-- V-HW-3
theorem test_hdrw_empty_key : (after (hdrwWith t0 (given [] []))).hlen = 6 := by decide
-- V-HR-1
theorem test_hdrr_registers :
    let t := after (hdrrWith t0 (given [0xA0, 0xA1, 0xA2, 0xA3, 0x01, 0x11, 0x00, 0x4E, 0x4A] [0x99]))
    keyBytes t = [0x4B] ∧ t.flag = 0 ∧ t.flagRaw = 0 ∧ t.hlen = 7 ∧ t.out = [0x4E, 0x4A] := by decide
-- V-HR-6
theorem test_hdrr_truncated :
    endedError (hdrrWith t0 (given [0xA0, 0xA1, 0xA2, 0xA3, 0x03, 0x31, 0x3F, 0x23] [])) .headerTruncated 9 = true := by
  decide
-- R202: a failed header read writes no result register
theorem test_hdrr_failure_writes_no_register :
    let t := after (hdrrWith t0 { given [0xA0, 0xA1] [] with tokLen := 5, expLen := 9 })
    t.status = .error ∧ t.tokLen = 5 ∧ t.expLen = 9 := by decide
-- V-HR-11
theorem test_rhdr_no_output :
    let t := after (rhdrWith t0 (given [0xA0, 0xA1, 0xA2, 0xA3, 0x01, 0x11, 0x00, 0x4E, 0x4A] []))
    keyBytes t = [0x4B] ∧ t.hlen = 7 ∧ t.out = [] := by decide
-- V-HR-5
theorem test_rhdr_magic :
    endedError (rhdrWith t0 (given [0xA0, 0xA1, 0xA2, 0xFF, 0x01, 0x11, 0x00] [])) .invalidMagic 3 = true := by decide
-- V-FP-3
theorem test_fpc_payload :
    endedDone (fpcWith t0 (given (List.replicate 10 0x41) [0x4B]))
      [0x4E, 0x4A, 0x49, 0x48, 0x4E, 0x0F, 0xCB, 0x4C, 0x42] = true := by decide
-- V-FP-1
theorem test_fpc_empty_file : endedDone (fpcWith t0 (given [] [0x4B])) [0x4B, 0x4A, 0x49, 0x48] = true := by decide
-- V-FP-7
theorem test_fpd_payload :
    endedDone (fpdWith t0 (given [0x4E, 0x4A, 0x49, 0x48, 0x4E, 0x0F, 0xCB, 0x4C, 0x42] [0x4B]))
      (List.replicate 10 0x41) = true := by decide
-- V-FP-10
theorem test_fpd_wrong_key :
    endedError (fpdWith t0 (given [0x4E, 0x4A, 0x49, 0x48, 0x4E, 0x0F, 0xCB, 0x4C, 0x42] [0x4C])) .entropyDecodeFailed
      0x07070702 = true := by decide
-- V-TB-6
theorem test_tblb_read_error :
    endedError (tblbWith t0 { given [] [0x4B] with fin := [(0, record [0x61] [0x68] true)], finCnt := 1 }) .hostReadError
      0 = true := by decide
-- One file "a" = "h" by R105, R103: the block is `02 00 00 00 01 68` under the keystream, then the table pass.
theorem test_tblb_one_file :
    endedDone (tblbWith t0 { given [] [0x4B] with fin := [(0, record [0x61] [0x68] false)], finCnt := 1 })
      (keystream [0x4B]
        ([1, 0, 0, 0] ++ [1, 0, 0, 0] ++ [0x61] ++ [2, 0, 0, 0] ++ [6, 0, 0, 0] ++
          [0x02 ^^^ 0x4B, 0x4A, 0x49, 0x48, 0x01 ^^^ 0x4F, 0x68 ^^^ 0x4E])) = true := by decide
-- The same table extracted (R252 to R258).
theorem test_tblx_one_file :
    let t := after (tblxWith t0 (given
      (keystream [0x4B]
        ([1, 0, 0, 0] ++ [1, 0, 0, 0] ++ [0x61] ++ [2, 0, 0, 0] ++ [6, 0, 0, 0] ++
          [0x02 ^^^ 0x4B, 0x4A, 0x49, 0x48, 0x01 ^^^ 0x4F, 0x68 ^^^ 0x4E])) [0x4B]))
    t.status = .done ∧ t.fout = [{ path := [0x61], data := [0x68] }] ∧ t.foutCnt = 1 ∧ t.tokLen = 2 := by decide
-- V-TB-4, c = 3
theorem test_tblx_count_truncated :
    endedError (tblxWith t0 (given [0x49, 0x4A, 0x49] [0x4B])) .entryCountTruncated 3 = true := by decide
-- V-API-2
theorem test_cfile_empty_file :
    endedDone (cfileWith t0 (given [] [0x4B]))
      [0xA0, 0xA1, 0xA2, 0xA3, 0x01, 0x11, 0x00, 0x4B, 0x4A, 0x49, 0x48] = true := by decide
-- V-API-1
theorem test_cfile_registers :
    let t := after (cfileWith t0 (given (List.replicate 10 0x41) [0x4B]))
    t.hlen = 7 ∧ t.tokLen = 5 ∧
      t.out = [0xA0, 0xA1, 0xA2, 0xA3, 0x01, 0x11, 0x00, 0x4E, 0x4A, 0x49, 0x48, 0x4E, 0x0F, 0xCB, 0x4C, 0x42] := by decide
-- P5
theorem test_dfile_restores :
    let t := after (dfileWith t0 (given
      [0xA0, 0xA1, 0xA2, 0xA3, 0x01, 0x11, 0x00, 0x4E, 0x4A, 0x49, 0x48, 0x4E, 0x0F, 0xCB, 0x4C, 0x42] []))
    t.status = .done ∧ t.out = List.replicate 10 0x41 ∧ keyBytes t = [0x4B] ∧ t.expLen = 5 := by decide
-- V-API-6
theorem test_dfile_folder_archive :
    endedError (dfileWith t0 (given [0xA0, 0xA1, 0xA2, 0xA3, 0x01, 0x11, 0x01, 0x4B, 0x4A, 0x49, 0x48] [])) .notFileArchive
      1 = true := by decide
-- V-API-9
theorem test_bfold_no_file :
    endedDone (bfoldWith t0 (given [] [0x4B]))
      [0xA0, 0xA1, 0xA2, 0xA3, 0x01, 0x11, 0x01, 0x4B, 0x4A, 0x49, 0x48] = true := by decide
-- R240: the empty key
theorem test_bfold_empty_key : endedError (bfoldWith t0 (given [] [])) .emptyKey 0 = true := by decide
-- V-API-8
theorem test_xfold_swapped_flag :
    endedError (xfoldWith t0 (given
      [0xA0, 0xA1, 0xA2, 0xA3, 0x01, 0x11, 0x01, 0x4E, 0x4A, 0x49, 0x48, 0x4E, 0x0F, 0xCB, 0x4C, 0x42] [])) .pathTruncated
      0 = true := by decide
-- R276's example
theorem test_xfold_no_file :
    let t := after (xfoldWith t0 (given [0xA0, 0xA1, 0xA2, 0xA3, 0x01, 0x11, 0x01, 0x4B, 0x4A, 0x49, 0x48] []))
    t.status = .done ∧ t.foutCnt = 0 ∧ keyBytes t = [0x4B] := by decide

/-! ## The step and the host -/

-- V-API-12
theorem test_step_illegal_code : endedError (step { base with status := .busy, cmd := 0x0C }) .illegalCommand 0x0C = true := by
  decide
-- R39, R320
theorem test_step_starts_command :
    (after (step { base with pending := [.writeReg 0 0x05] })).status = .busy ∧
      (after (step { base with pending := [.writeReg 0 0x05] })).cmd = 0x05 := by decide
-- R38: the numbers of `HLEN` and `TOKLEN`
theorem test_host_reads :
    (after (step { base with hlen := 7, tokLen := 5, pending := [.readReg 11] })).hostData = 7 ∧
      (after (step { base with hlen := 7, tokLen := 5, pending := [.readReg 12] })).hostData = 5 := by decide
-- R38: a write to the window `OUT` is ignored, a byte of `IN` is stored
theorem test_host_windows :
    (after (step { base with out := [0x41], pending := [.writeOut 0 0x42] })).out = [0x41] ∧
      readIn (after (step { base with pending := [.writeIn 7 0x42] })) 7 = 0x42 := by decide
-- R340: a reset inside a running command takes back no record
theorem test_reset_keeps_emitted :
    let t := after (step { busyWith 0x05 [.resetDuring 1] with fout := [{ path := [0x61], data := [] }], foutCnt := 1 })
    t.status = .idle ∧ t.fout = [{ path := [0x61], data := [] }] ∧ t.foutCnt = 0 ∧ t.cmd = 0 := by decide
/-- A one-row check of the fetch: the step after reset runs the placed command; with no key loaded `KSX` raises `EmptyKey`. -/
theorem test_withFetchWord_ksx : endedError (step (State.reset.withFetchWord 8 0x05)) .emptyKey 0 = true := by decide
theorem test_withFetchWord_match :
    endedError (step (State.reset.withFetchWord 24 0x010080)) .badOffset 0 = true := by decide

/-! ## Witnesses: the hypotheses of the statements can be met

Each theorem names the statement it is for. Where the parameters are open (the magic, the coder) the witness is built from
them, or, for a statement about every configuration, from `T0`. -/

theorem witness_DecodeOfEncodeIsIdentity :
    (Instr.lit (List.replicate 127 0xFF)).wellFormed = true ∧ (Instr.matchRef 127 0xFFFF).wellFormed = true ∧
      Instr.rhdr.wellFormed = true :=
  ⟨by simp [Instr.wellFormed], rfl, rfl⟩

theorem witness_EncodeOfDecodeIsIdentity :
    decode .token [0x00] = .ok (.lit [], []) ∧ decode .token [0xFF, 0xFF, 0xFF, 0x01] = .ok (.matchRef 127 0xFFFF, [0x01]) ∧
      decode .command [0x14, 0x00] = .ok (.rhdr, [0x00]) := by decide

theorem witness_TokenLengthAndOperands :
    decodeToken [0x00] = .ok (.lit [], []) ∧ decodeToken [0x01] = .error .literalTruncated ∧
      decodeToken [0x80, 0, 0] = .ok (.matchRef 0 0, []) ∧ decodeToken [0x80, 0] = .error .offsetTruncated := by decide

theorem witness_PseudoInstructionsExpand :
    ([] : List Byte).length ≤ Config.block.bufCap.toNat ∧ (List.replicate 127 (0 : Byte)).length ≤ Config.block.bufCap.toNat ∧
      4 ≤ 4 ∧ 131 ≤ 131 :=
  ⟨Nat.zero_le _, by rw [List.length_replicate]; decide, le_refl _, le_refl _⟩

theorem witness_StepRunsDecodedInstruction_command :
    (busyWith 0x05 []).status = .busy ∧ nextAccess (busyWith 0x05 []) = none ∧ (busyWith 0x05 []).run = .fetch ∧
      decode .command [(busyWith 0x05 []).cmd] = .ok (.ksx, []) := ⟨rfl, rfl, rfl, rfl⟩

theorem witness_StepRunsDecodedInstruction_token :
    let s := running [0x01, 0x41, 0x86, 0x00, 0x01] [0x41] 2
    s.status = .busy ∧ nextAccess s = none ∧ s.run = .tokens .input .command ∧
      decode .token ((tokenBytes s .input).drop s.tp.toNat) = .ok (.matchRef 6 1, []) :=
  ⟨rfl, rfl, rfl, by decide⟩

theorem witness_IllegalCommandAborts :
    (∀ code ∈ [0x00, 0x0C, 0x0F, 0x15, 0xFF],
      (busyWith code []).status = .busy ∧ nextAccess (busyWith code []) = none ∧ (busyWith code []).run = .fetch ∧
        ((busyWith code []).cmd = 0x00 ∨ (0x0C ≤ (busyWith code []).cmd.toNat ∧ (busyWith code []).cmd.toNat ≤ 0x0F) ∨
          0x15 ≤ (busyWith code []).cmd.toNat)) := by decide

theorem witness_CommandWriteAcknowledges :
    let s := { base with status := .error, pending := [.writeReg 0 ((0xFF : Byte).setWidth 32)] }
    s.status ≠ .busy ∧ s.pending = .writeReg 0 ((0xFF : Byte).setWidth 32) :: [] ∧ base.status ≠ .busy ∧
      base.pending = [] := ⟨by decide, rfl, by decide, rfl⟩

/-- The accesses of the third clause at its edges: a register write beside `CMD`, a read of `CMD`, a write to `OUT`. -/
theorem witness_CommandWriteAcknowledges_others :
    (∀ a ∈ [HostAccess.writeReg 5 1, HostAccess.readReg 0, HostAccess.writeOut 0 1],
      let s := { base with status := .error, errKind := 6, pending := [a] }
      s.status ≠ .busy ∧ (∀ v, a ≠ .writeReg 0 v) ∧ a ≠ .reset ∧ (∀ k, a ≠ .resetDuring k) ∧
        step s = .next (after (step s))) := by
  intro a ha
  simp only [List.mem_cons, List.not_mem_nil, or_false] at ha
  rcases ha with rfl | rfl | rfl <;> exact ⟨by decide, by simp, by simp, by simp, rfl⟩

theorem witness_HostRegisterWrites_ignored :
    (∀ no ∈ [1, 14, 15, 255, 511],
      (no ∈ [1, 2, 3, 4, 7, 10, 11, 12, 14] ∨ (15 ≤ no ∧ no ≤ 255) ∨ 511 ≤ no) ∧
        ({ base with pending := [.writeReg no 1] } : State).status ≠ .busy) := by decide

theorem witness_HostRegisterWrites_operands :
    (∀ p ∈ [(5, 8), (6, 1), (8, 32), (9, 32), (13, 32), (256, 8), (510, 8)],
      ((p.1 = 5 ∧ p.2 = 8) ∨ (p.1 = 6 ∧ p.2 = 1) ∨ (p.1 = 8 ∧ p.2 = 32) ∨ (p.1 = 9 ∧ p.2 = 32) ∨
          (p.1 = 13 ∧ p.2 = 32) ∨ (256 ≤ p.1 ∧ p.1 ≤ 510 ∧ p.2 = 8)) ∧
        ({ base with pending := [.writeReg p.1 0xFFFFFFFF, .readReg p.1] } : State).status ≠ .busy) := by decide

/-- Reads: the ends of the table, of `KEY` and of the numbers not listed. -/
theorem witness_HostRegisterWrites_reads :
    (∀ no ∈ [0, 14, 256, 510, 15, 255, 511],
      ({ base with pending := [.readReg no] } : State).status ≠ .busy ∧
        ({ base with pending := [.readReg no] } : State).pending = .readReg no :: []) ∧
      (∀ no ∈ [256, 510], 256 ≤ no ∧ no ≤ 510) ∧ (∀ no ∈ [15, 255, 511], (15 ≤ no ∧ no ≤ 255) ∨ 511 ≤ no) := by decide

/-- The windows: a byte of `IN` at the last index, a read of `OUT` below and at `OUT_LEN`. -/
theorem witness_HostRegisterWrites_windows :
    (let s := { base with pending := [.writeIn 0xFFFFFFFF 0x42, .readIn 0xFFFFFFFF] }
    s.status ≠ .busy ∧ s.pending = .writeIn 0xFFFFFFFF 0x42 :: .readIn 0xFFFFFFFF :: []) ∧
    (let s := { base with out := [0x41], pending := [.readOut 0, .readOut 0] }
    s.status ≠ .busy ∧ s.pending = .readOut 0 :: .readOut 0 :: [] ∧ s.out[(0 : Word).toNat]? = some 0x41) ∧
    (let s := { base with out := [0x41], pending := [.readOut 1, .readOut 1] }
    s.pending = .readOut 1 :: .readOut 1 :: [] ∧ s.out[(1 : Word).toNat]? = none) ∧
    (let s := { base with pending := [.writeOut 0 0x42] }
    s.status ≠ .busy ∧ s.pending = .writeOut 0 0x42 :: []) ∧
    (let s := { base with pending := [.writeFin 0 (record [0x61] [] false)] }
    s.status ≠ .busy ∧ s.pending = .writeFin 0 (record [0x61] [] false) :: [] ∧
        (record [0x61] [] false).path.length ≤ Config.block.bufCap.toNat) := by decide

theorem witness_ResetAtAnyMoment :
    (busyWith 0x08 [.reset, .readReg 1]).pending = .reset :: [.readReg 1] ∧ (busyWith 0x08 [.reset, .readReg 1]).status = .busy ∧
      ({ base with pending := [.reset] } : State).pending = .reset :: [] := ⟨rfl, rfl, rfl⟩

/-- A reset inside an extraction, and one asked for while nothing runs. -/
theorem witness_ResetAtAnyMoment_inside :
    (let s := { given [0x4B, 0x4A, 0x49, 0x48] [0x4B] with status := .busy, cmd := 0x0B, pending := [.resetDuring 0] }
    s.pending = .resetDuring 0 :: [] ∧ s.status = .busy ∧ s.run = .fetch ∧ decodeCommand s.cmd = .ok .tblx ∧
        exec .tblx s = .next (after (exec .tblx s))) ∧
      ({ base with pending := [.resetDuring 1] } : State).status ≠ .busy := ⟨⟨rfl, rfl, rfl, rfl, rfl⟩, by decide⟩

theorem witness_StatusTransitions :
    step base = .next base ∧ (after (step (busyWith 0x01 []))).status = .done ∧
      (after (step (busyWith 0x05 []))).status = .error ∧
      (after (step { base with pending := [.writeReg 0 1] })).status = .busy ∧
      (after (step (running [0x00] [] 0))).status = .busy ∧
      (after (step (busyWith 0x01 [.reset]))).status = .idle ∧
      (after (step { base with pending := [.readReg 0] })).status = .idle := ⟨rfl, rfl, rfl, rfl, rfl, rfl, rfl⟩

theorem witness_BusyAccessHasNoMove :
    let s := running [0x00] [] 0
    let s' := { s with pending := [.writeReg 0 1] }
    s'.status = .busy ∧ s'.pending = .writeReg 0 1 :: [] ∧ step s' = .next { s' with tp := 1 } := ⟨rfl, rfl, rfl⟩

theorem witness_BusyAccessHasNoMove_status :
    (busyWith 0x01 [.readReg 1]).pending = .readReg 1 :: [] ∧ (busyWith 0x01 [.readReg 1]).status = .busy := ⟨rfl, rfl⟩

/-- There is an output that leaves no room. -/
theorem full_output : ∃ out : List Byte, ∀ k, 1 ≤ k → out.length + k > Config.block.bufCap.toNat := by
  refine ⟨List.replicate (2 ^ 32 - 1) 0, fun k hk => ?_⟩
  have h : Config.block.bufCap.toNat = 2 ^ 32 - 1 := rfl
  rw [h, List.length_replicate]
  omega

/-- At a `LIT`: one that fits to the last byte, one that is one byte short, one that the output has no room for. -/
theorem witness_LitStep :
    (tokenBytes (running [0x02, 0x61, 0x62] [] 0) .input)[0]? = some 0x02 ∧
      ¬(0 + 1 + 2 > tokenLen (running [0x02, 0x61, 0x62] [] 0) .input) ∧
      (0 + 1 + 2 > tokenLen (running [0x02, 0x61] [] 0) .input) ∧
      (running [0x02, 0x61, 0x62] [] 0).status = .busy ∧ nextAccess (running [0x02, 0x61, 0x62] [] 0) = none ∧
      ∃ out, (running [0x02, 0x61, 0x62] out 0).out.length + 2 > Config.block.bufCap.toNat := by
  obtain ⟨out, h⟩ := full_output
  exact ⟨rfl, by decide, by decide, rfl, rfl, out, h 2 (by decide)⟩

/-- At a `MATCH`: the largest legal offset, one beyond it, none, a truncated one, one that the output has no room for. -/
theorem witness_MatchStep :
    (tokenBytes (running [0x01, 0x41, 0x80, 0x00, 0x01] [0x41] 2) .input)[2]? = some 0x80 ∧
      ¬(2 + 3 > tokenLen (running [0x01, 0x41, 0x80, 0x00, 0x01] [0x41] 2) .input) ∧
      (2 + 3 > tokenLen (running [0x01, 0x41, 0x80, 0x00] [0x41] 2) .input) ∧
      ¬(1 = 0 ∨ 1 > (running [0x01, 0x41, 0x80, 0x00, 0x01] [0x41] 2).out.length) ∧
      (2 = 0 ∨ 2 > (running [0x01, 0x41, 0x80, 0x00, 0x02] [0x41] 2).out.length) ∧
      (running [0x01, 0x41, 0x80, 0x00, 0x01] [0x41] 2).status = .busy ∧
      ∃ out, (running [0x80, 0x00, 0x01] out 0).out.length + 3 > Config.block.bufCap.toNat := by
  obtain ⟨out, h⟩ := full_output
  exact ⟨rfl, by decide, by decide, by decide, by decide, rfl, out, h 3 (by decide)⟩

/-- The datum of an error inside a table entry and outside. -/
theorem witness_LitExecutes_MatchExecutes :
    let s := { running [0x05] [] 0 with run := .tokens .tok (.entry [] 0), eidx := 7 }
    (7 = (match s.run with
      | .tokens _ (.entry _ _) => s.eidx.toNat
      | _ => s.tp.toNat)) ∧
    (0 = (match (running [0x05] [] 0).run with
      | .tokens _ (.entry _ _) => (running [0x05] [] 0).eidx.toNat
      | _ => (running [0x05] [] 0).tp.toNat)) := ⟨rfl, rfl⟩

theorem witness_DetokenizerEndsExactlyAtTheEnd :
    let s := running [0x00] [] 1
    s.status = .busy ∧ nextAccess s = none ∧ s.run = .tokens .input .command ∧ s.tp.toNat = tokenLen s .input ∧
      (running [0x00] [] 0).tp.toNat < tokenLen (running [0x00] [] 0) .input := ⟨rfl, rfl, rfl, rfl, by decide⟩

theorem witness_MdecIsItsTokenSteps :
    ({ given [0x01, 0x41] [] with status := .busy } : State).status = .busy ∧
      ({ given [0x01, 0x41] [] with status := .busy } : State).pending = [] := ⟨rfl, rfl⟩

theorem witness_DecodedLengthBound :
    matchDecode t0 [0x01, 0x41, 0x80, 0x00, 0x01] = .ok [0x41, 0x41, 0x41, 0x41] ∧
      1 + 130 * 0 ≤ Config.block.bufCap.toNat ∧ 1 + 130 * 33038209 ≤ Config.block.bufCap.toNat := by decide

theorem witness_MencCompletes : 2 * (given [0x41] []).inLen.toNat ≤ Config.block.bufCap.toNat := by decide

/-- A stream of five bytes under a capacity of five and of four. -/
theorem witness_MencCompletes_capacity :
    matchEncode { t0 with bufCap := 5 } (List.replicate 10 0x41) = .ok [0x01, 0x41, 0x86, 0x00, 0x01] ∧
      matchEncode { t0 with bufCap := 4 } (List.replicate 10 0x41) = .error ⟨.lengthOverflow, 0⟩ := by decide

theorem witness_EncodeEmitsLegalStream :
    matchEncode t0 (List.replicate 10 0x41) = .ok [0x01, 0x41, 0x86, 0x00, 0x01] ∧ 5 ≤ t0.bufCap.toNat := by decide

/-- The tokenizer's step: at a match of three with a literal pending, at a position with two bytes left, with skipped positions
entered. -/
theorem witness_EncodeEmitsLegalStream_step :
    let src : List Byte := [0x41, 0x41, 0x41, 0x41]
    let t : Tokenizer :=
      { ht := HashTable.cleared.set (hashAt t0 src 1) 0, litBuf := [0x41], ip := 1, dst := [] }
    t.ip < src.length ∧ t.ip + 3 ≤ src.length ∧ t.ht.slot (hashAt t0 src t.ip) = some 0 ∧
      (searchMatch t0 src t).1 = 3 ∧
      tokenizerStep t0 src t =
        .ok { ht := (searchMatch t0 src t).2.2, litBuf := [], ip := 4, dst := [0x01, 0x41, 0x80, 0x00, 0x01] } ∧
      (searchMatch t0 src { t with ip := 2 }).1 = 0 ∧
      (∃ t', tokenizerStep t0 src { t with ip := 2, litBuf := [] } = .ok t') ∧
      (∃ t', tokenizerStep { t0 with insertSkipped := true } src t = .ok t') := by
  refine ⟨by decide, by decide, by decide, by decide, by decide, by decide, ⟨_, rfl⟩, ⟨_, rfl⟩⟩

theorem witness_DecodeOfEncodeRestoresBytes :
    (List.replicate 10 (0x41 : Byte)).length ≤ t0.bufCap.toNat ∧
      matchEncode t0 (List.replicate 10 0x41) = .ok [0x01, 0x41, 0x86, 0x00, 0x01] ∧
      (let t := after (exec .menc (given [0x41] []))
      exec .menc (given [0x41] []) = .next t ∧ t.status = .done ∧ inBytes (given [0x01, 0x41] []) = t.out) :=
  ⟨by decide, by decide, rfl, rfl, rfl⟩

theorem witness_KsxIsSelfInverse :
    let s := given [0x05, 0x00] [0x4B]
    let t := after (exec .ksx s)
    s.klen ≠ 0 ∧ exec .ksx s = .next t ∧ inBytes (given [0x4E, 0x4A] [0x4B]) = t.out ∧
      keyBytes (given [0x4E, 0x4A] [0x4B]) = keyBytes s := ⟨by decide, rfl, by decide, rfl⟩

theorem witness_KeystreamIsPeriodic : ([0x4B] : List Byte) ≠ [] := by decide

theorem witness_EmptyKeyRejected : (given [0x05] []).klen = 0 := rfl

/-! States whose `IN` begins with a header. -/

/-- `IN` holds the block's magic, a key length and what follows. -/
def archive (klen : Byte) (rest : List Byte) : State := given (magicList Config.block ++ klen :: rest) []

theorem readIn_archive (klen : Byte) (rest : List Byte) (i : Nat) :
    readIn (archive klen rest) i =
      ((magicList Config.block ++ klen :: rest)[i]?).getD (Config.unspecifiedByte .input 0 i) := by
  simp only [readIn, archive, given, getEntry_writeBytes]
  by_cases h : i < (magicList Config.block ++ klen :: rest).length
  · have h' : 0 ≤ i ∧ i < 0 + (magicList Config.block ++ klen :: rest).length := by omega
    rw [if_pos h', Nat.sub_zero]
    rfl
  · have h' : ¬(0 ≤ i ∧ i < 0 + (magicList Config.block ++ klen :: rest).length) := by omega
    rw [if_neg h', List.getElem?_eq_none (Nat.not_lt.mp h)]
    rfl

theorem archive_magic (klen : Byte) (rest : List Byte) (j : Fin 4) :
    readIn (archive klen rest) j = Config.block.magic j := by
  rw [readIn_archive]
  fin_cases j <;> rfl

theorem witness_HeaderReadWritesRegisters :
    6 ≤ (archive 0 [0]).inLen.toNat ∧ (∀ j : Fin 4, readIn (archive 0 [0]) j = Config.block.magic j) ∧
      6 + (readIn (archive 0 [0]) 4).toNat ≤ (archive 0 [0]).inLen.toNat := by
  refine ⟨by decide, archive_magic 0 [0], ?_⟩
  rw [readIn_archive]
  decide

/-- Clause 1 at its boundary of five bytes; clause 2 with the last magic byte wrong; clause 3 one byte short of the flag. -/
theorem witness_HeaderChecksInOrder :
    (given [0, 0, 0, 0, 0] []).inLen.toNat < 6 ∧
      (let s := given
        [Config.block.magic 0, Config.block.magic 1, Config.block.magic 2, Config.block.magic 3 ^^^ 1, 0, 0] []
      6 ≤ s.inLen.toNat ∧ (∀ j' : Fin 4, j' < 3 → readIn s j' = Config.block.magic j') ∧
        readIn s (3 : Fin 4) ≠ Config.block.magic 3) ∧
      (6 ≤ (archive 1 [0]).inLen.toNat ∧ (∀ j : Fin 4, readIn (archive 1 [0]) j = Config.block.magic j) ∧
        (archive 1 [0]).inLen.toNat < 6 + (readIn (archive 1 [0]) 4).toNat) := by
  refine ⟨by decide, ⟨by decide, ?_, ?_⟩, by decide, archive_magic 1 [0], ?_⟩
  · intro j' hj'
    fin_cases j'
    · rfl
    · rfl
    · rfl
    · exact absurd hj' (by decide)
  · have h : ∀ b : Byte, b ^^^ 1 ≠ b := by decide
    exact h (Config.block.magic 3)
  · rw [readIn_archive]
    decide

theorem witness_HeaderChecksInOrder_hdrr :
    exec .hdrr (given [0, 0, 0, 0, 0] []) = .next (after (exec .hdrr (given [0, 0, 0, 0, 0] []))) ∧
      (after (exec .hdrr (given [0, 0, 0, 0, 0] []))).status = .error := ⟨rfl, rfl⟩

theorem witness_HeaderRoundTrip : ([] : List Byte).length ≤ 255 ∧ (List.replicate 255 (0 : Byte)).length ≤ 255 :=
  ⟨by decide, by rw [List.length_replicate]⟩

theorem inBytes_archive (klen : Byte) (rest : List Byte) (h : rest.length ≤ 16) :
    inBytes (archive klen rest) = magicList Config.block ++ klen :: rest := by
  have hl : (magicList Config.block ++ klen :: rest).length = 5 + rest.length := by
    simp only [magicList, List.length_append, List.length_cons, List.length_nil]
    omega
  have hn : (archive klen rest).inLen.toNat = (magicList Config.block ++ klen :: rest).length := by
    simp only [archive, given, BitVec.toNat_ofNat]
    rw [hl]
    omega
  apply List.ext_getElem?
  intro i
  rw [inBytes_getElem?, readIn_archive, hn]
  split
  · rename_i hi
    rw [List.getElem?_eq_getElem hi]
    rfl
  · rename_i hi
    rw [List.getElem?_eq_none (Nat.not_lt.mp hi)]

/-- An archive that reads. -/
theorem readHeader_archive (klen : Byte) (rest : List Byte) (hl : rest.length ≤ 16) (hk : klen.toNat + 1 ≤ rest.length) :
    readHeader Config.block (inBytes (archive klen rest)) =
      .ok
        { key := obfuscate Config.block (slice (magicList Config.block ++ klen :: rest) 5 klen.toNat)
          flagRaw := rest.getD klen.toNat 0
          hlen := 6 + klen.toNat } := by
  have hlen : (magicList Config.block ++ klen :: rest).length = 5 + rest.length := by
    simp only [magicList, List.length_append, List.length_cons, List.length_nil]
    omega
  have h1 : ¬(magicList Config.block ++ klen :: rest).length < 6 := by
    simp only [hlen]
    omega
  have h4 : (magicList Config.block ++ klen :: rest).getD 4 0 = klen := rfl
  have h5 : (magicList Config.block ++ klen :: rest).getD (5 + klen.toNat) 0 = rest.getD klen.toNat 0 := by
    rw [List.getD_append_right _ _ _ _ (by simp only [magicList, List.length_cons, List.length_nil]; omega)]
    rw [show 5 + klen.toNat - (magicList Config.block).length = klen.toNat + 1 by
      simp only [magicList, List.length_cons, List.length_nil]; omega]
    rfl
  have h6 : ¬(magicList Config.block ++ klen :: rest).length < 6 + klen.toNat := by
    rw [hlen]
    omega
  simp only [inBytes_archive klen rest hl, readHeader_eq, if_neg h1, firstDiff_append, h4, h5, if_neg h6]

/-- Its registers. -/
theorem rhdr_archive (klen : Byte) (rest : List Byte) (hl : rest.length ≤ 16) (hk : klen.toNat + 1 ≤ rest.length) :
    exec .rhdr (archive klen rest) =
      .next (finish (storeHeader Config.block
        { key := obfuscate Config.block (slice (magicList Config.block ++ klen :: rest) 5 klen.toNat)
          flagRaw := rest.getD klen.toNat 0
          hlen := 6 + klen.toNat } (startOut (archive klen rest)))) := by
  rw [exec, execRhdr, rhdrWith, loadHeader,
    show inBytes (startOut (archive klen rest)) = inBytes (archive klen rest) from rfl, readHeader_archive klen rest hl hk]
  rfl

theorem witness_DfileIsHeaderThenPayload_folder :
    ∃ r, exec .rhdr (archive 0 [1]) = .next r ∧ r.status = .done ∧ r.flag = 1 :=
  ⟨_, rhdr_archive 0 [1] (by decide) (by decide), rfl, rfl⟩

theorem witness_DfileIsHeaderThenPayload_emptyKey :
    ∃ r, exec .rhdr (archive 0 [0]) = .next r ∧ r.status = .done ∧ r.flag = 0 ∧ r.klen = 0 :=
  ⟨_, rhdr_archive 0 [0] (by decide) (by decide), rfl, rfl, rfl⟩

theorem witness_DfileIsHeaderThenPayload_payload :
    ∃ r, exec .rhdr (archive 1 [0x4B, 0]) = .next r ∧ r.status = .done ∧ r.flag = 0 ∧ r.klen ≠ 0 ∧
      inBytes { r with inMem := [], inLen := 0 } = (inBytes (archive 1 [0x4B, 0])).drop r.hlen.toNat := by
  refine ⟨_, rhdr_archive 1 [0x4B, 0] (by decide) (by decide), rfl, rfl, ?_, ?_⟩
  · show BitVec.ofNat 8 (obfuscate Config.block _).length ≠ 0
    rw [obfuscate_length]
    decide
  · rw [inBytes_archive 1 [0x4B, 0] (by decide)]
    rfl

theorem witness_XfoldIsHeaderThenTable_file :
    ∃ r, exec .rhdr (archive 0 [0]) = .next r ∧ r.status = .done ∧ r.flag = 0 :=
  ⟨_, rhdr_archive 0 [0] (by decide) (by decide), rfl, rfl⟩

/-- Clause by clause: an empty key, a table of three bytes, a table of four. -/
theorem witness_XfoldIsHeaderThenTable_folder :
    (∃ r, exec .rhdr (archive 0 [1]) = .next r ∧ r.status = .done ∧ r.flag = 1 ∧ r.klen = 0) ∧
      (∃ r, exec .rhdr (archive 1 [0x4B, 1, 0, 0, 0]) = .next r ∧ r.status = .done ∧ r.flag = 1 ∧ r.klen ≠ 0 ∧
        (keystream (keyBytes r) ((inBytes (archive 1 [0x4B, 1, 0, 0, 0])).drop r.hlen.toNat)).length < 4) ∧
      (∃ r, exec .rhdr (archive 1 [0x4B, 1, 0, 0, 0, 0]) = .next r ∧ r.status = .done ∧ r.flag = 1 ∧ r.klen ≠ 0 ∧
        4 ≤ (keystream (keyBytes r) ((inBytes (archive 1 [0x4B, 1, 0, 0, 0, 0])).drop r.hlen.toNat)).length) := by
  refine ⟨⟨_, rhdr_archive 0 [1] (by decide) (by decide), rfl, rfl, rfl⟩,
    ⟨_, rhdr_archive 1 [0x4B, 1, 0, 0, 0] (by decide) (by decide), rfl, rfl, ?_, ?_⟩,
    ⟨_, rhdr_archive 1 [0x4B, 1, 0, 0, 0, 0] (by decide) (by decide), rfl, rfl, ?_, ?_⟩⟩
  · show BitVec.ofNat 8 (obfuscate Config.block _).length ≠ 0
    rw [obfuscate_length]
    decide
  · rw [keystream_length, inBytes_archive 1 [0x4B, 1, 0, 0, 0] (by decide)]
    decide
  · show BitVec.ofNat 8 (obfuscate Config.block _).length ≠ 0
    rw [obfuscate_length]
    decide
  · rw [keystream_length, inBytes_archive 1 [0x4B, 1, 0, 0, 0, 0] (by decide)]
    decide

/-! Payloads, tables and archives. -/

/-- `T0`'s coder satisfies `ENT-RT`. -/
theorem t0_entRt : EntRt t0 := by
  intro x y h
  obtain rfl : x = y := by simpa [t0] using h
  simp [entropyDec, t0]

/-- One record, "a" = "h", and a key. -/
def oneFile : State := { given [] [0x4B] with fin := [(0, record [0x61] [0x68] false)], finCnt := 1 }

theorem witness_FpcBuildsPayload_FpdUnpacksPayload_KsxTransformsEachByte :
    (given [0x41] []).klen = 0 ∧ (given [0x41] [0x4B]).klen ≠ 0 ∧ (given [0, 0, 0] [0x4B]).inLen.toNat < 4 ∧
      ¬(given [0, 0, 0, 0] [0x4B]).inLen.toNat < 4 := by decide

theorem witness_PayloadRoundTrip :
    let s := given [0x41] [0x4B]
    let t := after (fpcWith t0 s)
    let u := given [0x49, 0x4A, 0x49, 0x48, 0x4E, 0x0F] [0x4B]
    EntRt t0 ∧ s.inLen.toNat ≤ t0.bufCap.toNat ∧ fpcWith t0 s = .next t ∧ t.status = .done ∧ inBytes u = t.out ∧
      keyBytes u = keyBytes s := ⟨t0_entRt, by decide, rfl, by decide, by decide, rfl⟩

theorem witness_ReadErrorsComeFirst :
    (let s := { given [] [] with
        fin := [(0, record [0x61] [0x68] false), (1, record [] [] true)]
        finCnt := 2 }
      ∃ recs, finRecords s = some recs ∧ recs[1]? = some (record [] [] true) ∧
        (∀ e' rec', e' < 1 → recs[e']? = some rec' → rec'.ioerr = false)) ∧
      (∃ recs, finRecords { oneFile with klen := 0 } = some recs ∧ ∀ rec ∈ recs, rec.ioerr = false) := by
  refine ⟨⟨[record [0x61] [0x68] false, record [] [] true], rfl, rfl, ?_⟩, ⟨[record [0x61] [0x68] false], rfl, ?_⟩⟩
  · intro e' rec' he h
    obtain rfl : e' = 0 := by omega
    cases h
    rfl
  · simp [record]

theorem witness_OnlyMissingRecordsRefused :
    0 < ({ oneFile with fin := [] } : State).finCnt.toNat ∧ getEntry ({ oneFile with fin := [] } : State).fin 0 = none := by
  decide

theorem witness_TblbBuildsTable :
    finRecords oneFile = some [record [0x61] [0x68] false] ∧ finRecords (given [] [0x4B]) = some [] ∧
      (given [] [0x4B]).klen ≠ 0 := ⟨rfl, rfl, by decide⟩

theorem witness_TableHasTheFormat :
    (∃ b, tableBuild t0 [0x4B] [record [0x61] [0x68] false] = .ok b) ∧
      (∃ p, payloadCompress t0 [0x4B] [0x68] = .ok p ∧
        (clearTable t0 [record [0x61] [0x68] false] [p]).length ≤ t0.bufCap.toNat) :=
  ⟨⟨_, rfl⟩, ⟨_, rfl, by decide⟩⟩

/-- A build that fails: on a record marked failed behind one that is not, on the empty key, on a file that does not compress, on
a table of 23 bytes in a capacity of 22. -/
theorem witness_TableHasTheFormat_failing :
    tableBuild t0 [0x4B] [record [0x61] [0x68] false, record [] [] true] = .error ⟨.hostReadError, 1⟩ ∧
      tableBuild t0 [] [record [0x61] [0x68] false] = .error ⟨.emptyKey, 0⟩ ∧
      tableBuild { t0 with entropyEnc := fun _ => none } [0x4B] [record [0x61] [0x68] false] =
        .error ⟨.entropyEncodeFailed, 0⟩ ∧
      tableBuild { t0 with bufCap := 22 } [0x4B] [record [0x61] [0x68] false] = .error ⟨.lengthOverflow, 0⟩ := by decide

/-- Every truncation of the one entry of an eighteen-byte table, each at its boundary, and the whole entry. -/
theorem witness_EntryFieldsInOrder :
    let entry : List Byte := [1, 0, 0, 0, 0x61, 2, 0, 0, 0, 1, 0, 0, 0, 0xFF]
    parseEntry t0 (entry.take 3) 0 = .error .pathLengthTruncated ∧ parseEntry t0 (entry.take 4) 0 = .error .pathTruncated ∧
      parseEntry t0 (entry.take 8) 0 = .error .origLenTruncated ∧
      parseEntry t0 (entry.take 12) 0 = .error .blockLengthTruncated ∧
      parseEntry t0 (entry.take 13) 0 = .error .blockTruncated ∧
      parseEntry t0 entry 0 = .ok { path := [0x61], origLen := 2, block := [0xFF], start := 13 } := by decide

theorem witness_TblxEmitsEntries :
    (given [0x4B, 0x4A, 0x49] [0x4B]).klen ≠ 0 ∧ (given [0x4B, 0x4A, 0x49] [0x4B]).inLen.toNat < 4 ∧
      4 ≤ (given [0x4B, 0x4A, 0x49, 0x48] [0x4B]).inLen.toNat ∧
      (let s := given [0x4B, 0x4A, 0x49, 0x48] [0x4B]
      unLe32 (slice (keystream (keyBytes s) (inBytes s)) 0 4) = 0) := by decide

theorem witness_PartialExtraction :
    (extraction { t0 with hostWrite := fun _ _ _ => false } [0x4B]
      ([1, 0, 0, 0] ++ [1, 0, 0, 0] ++ [0x61] ++ [2, 0, 0, 0] ++ [6, 0, 0, 0] ++
        [0x02 ^^^ 0x4B, 0x4A, 0x49, 0x48, 0x01 ^^^ 0x4F, 0x68 ^^^ 0x4E]) 1 0 4 0 none).stop =
      some ⟨.hostWriteError, 0⟩ := by decide

theorem witness_FolderRoundTrip :
    let t := after (tblbWith t0 oneFile)
    let u := given t.out [0x4B]
    EntRt t0 ∧ (∀ k p d, t0.hostWrite k p d = true) ∧ finRecords oneFile = some [record [0x61] [0x68] false] ∧
      (∀ rec ∈ [record [0x61] [0x68] false], rec.data.length ≤ t0.bufCap.toNat) ∧ tblbWith t0 oneFile = .next t ∧
      t.status = .done ∧ inBytes u = t.out ∧ keyBytes u = keyBytes oneFile :=
  ⟨t0_entRt, fun _ _ _ => rfl, rfl, by decide, rfl, by decide, by decide, rfl⟩

/-- Both ends of `FPC` and `CFILE`, under `T0` for the good one. -/
theorem witness_CfileIsHeaderThenPayload :
    (after (exec .fpc (given [] []))).status ≠ .done ∧ (after (fpcWith t0 (given [] [0x4B]))).status = .done := by decide

theorem witness_BfoldIsHeaderThenTable :
    finRecords (given [] [0x4B]) = some [] ∧ (after (exec .tblb (given [] [0x4B]))).status = .done ∧
      (after (exec .tblb (given [] []))).status ≠ .done := ⟨rfl, by decide, by decide⟩

theorem witness_FileArchiveRoundTrip :
    let s := given [0x41] [0x4B]
    let t := after (cfileWith t0 s)
    let u := given t.out [0x4B]
    EntRt t0 ∧ s.inLen.toNat ≤ t0.bufCap.toNat ∧ cfileWith t0 s = .next t ∧ t.status = .done ∧ inBytes u = t.out ∧
      keyBytes u = keyBytes s := ⟨t0_entRt, by decide, rfl, by decide, by decide, rfl⟩

theorem witness_FolderArchiveRoundTrip :
    let t := after (bfoldWith t0 oneFile)
    let u := given t.out []
    EntRt t0 ∧ (∀ k p d, t0.hostWrite k p d = true) ∧ finRecords oneFile = some [record [0x61] [0x68] false] ∧
      (∀ rec ∈ [record [0x61] [0x68] false], rec.data.length ≤ t0.bufCap.toNat) ∧ bfoldWith t0 oneFile = .next t ∧
      t.status = .done ∧ inBytes u = t.out :=
  ⟨t0_entRt, fun _ _ _ => rfl, rfl, by decide, rfl, by decide, by decide⟩

/-- Clause by clause: a key; no record; a file's header; a folder's header with the table of no entry. -/
theorem witness_ArchiveCommandsComplete :
    (given [] [0x4B]).klen ≠ 0 ∧
    (∃ b, finRecords (given [] [0x4B]) = some [] ∧ tableBuild Config.block (keyBytes (given [] [0x4B])) [] = .ok b ∧
      6 + (given [] [0x4B]).klen.toNat + b.tbl.length ≤ Config.block.bufCap.toNat) ∧
    (∃ h, readHeader Config.block (inBytes (archive 1 [0x4B, 0])) = .ok h ∧ flagDecode Config.block h.flagRaw = false) ∧
    (∃ h, readHeader Config.block (inBytes (archive 1 [0x4B, 1, 0, 0, 0, 0])) = .ok h ∧
      flagDecode Config.block h.flagRaw = true ∧ h.key ≠ [] ∧
      h.hlen + 4 ≤ (archive 1 [0x4B, 1, 0, 0, 0, 0]).inLen.toNat) := by
  refine ⟨by decide, ⟨_, rfl, rfl, by decide⟩, ⟨_, readHeader_archive 1 [0x4B, 0] (by decide) (by decide), rfl⟩,
    ⟨_, readHeader_archive 1 [0x4B, 1, 0, 0, 0, 0] (by decide) (by decide), rfl, ?_, ?_⟩⟩
  · intro h
    have := congrArg List.length h
    rw [obfuscate_length] at this
    exact absurd this (by decide)
  · decide

/-! The whole machine. -/

theorem witness_RegisterWriters_FoutOnlyGrows :
    exec .menc (given [0x41] [0x4B]) = .next (after (exec .menc (given [0x41] [0x4B]))) ∧
      exec .tblx (given [0x4B, 0x4A, 0x49, 0x48] [0x4B]) =
        .next (after (exec .tblx (given [0x4B, 0x4A, 0x49, 0x48] [0x4B]))) := ⟨rfl, rfl⟩

theorem witness_FrameOfCompletedCommands :
    Instr.ksx.space = .command ∧ exec .ksx (given [0x05] [0x4B]) = .next (after (exec .ksx (given [0x05] [0x4B]))) ∧
      (after (exec .ksx (given [0x05] [0x4B]))).status = .done := ⟨rfl, rfl, rfl⟩

theorem witness_CausesOfEachInstruction :
    exec .ksx (given [0x05] []) = .next (after (exec .ksx (given [0x05] []))) ∧ (given [0x05] []).status ≠ .error ∧
      (after (exec .ksx (given [0x05] []))).status = .error := ⟨rfl, by decide, rfl⟩

theorem witness_ResultsIgnoreInternals :
    let s := given [0x05] [0x4B]
    let s' := { s with tok := [0xFF], litBuf := [0x01], tp := 9, ht := { cells := [(3, 7)], base := some 0 } }
    Instr.menc.space = .command ∧ s ≠ s' ∧ s.kept = s'.kept ∧ exec .menc s = .next (after (exec .menc s)) :=
  ⟨rfl, by decide, rfl, rfl⟩

/-- A state that meets the invariant, at the token grain, and its step. -/
theorem running_inv : State.Inv (running [0x00] [] 0) where
  keyCanonical := rfl
  inCanonical := by decide
  finCanonical := rfl
  finBounded := by decide
  htCanonical := rfl
  outBounded := by decide
  tokBounded := by decide
  entBounded := by decide
  wrkBounded := by decide
  tblBounded := by decide
  litBufBounded := by decide
  hlenRange := .inl rfl
  errorRegs := .inr ⟨by decide, rfl, rfl, rfl⟩
  foutCounted := by decide
  tokensBusy := .inr rfl
  tpInside := fun src next h => by
    obtain ⟨rfl, rfl⟩ : TokenSource.input = src ∧ After.command = next := by simpa [running] using h
    decide
  entryInside := fun src path blen h => by simp [running] at h

theorem witness_InvariantKept_NoFaultFromInvariant :
    State.Inv (running [0x00] [] 0) ∧ step (running [0x00] [] 0) = .next (after (step (running [0x00] [] 0))) :=
  ⟨running_inv, rfl⟩

end Sys2Proof.Tests
end

section
/-! Two runs of one command from states that agree on what the block keeps between commands (spec/10_state.md R45) end
alike: a simulation, one lemma for each part of a command, from which `ResultsIgnoreInternals` follows. -/

namespace Sys2Proof.Machine

/-- Two bodies end alike: both well, in states related by `R`, or both in the same error, in states that agree on what the
block keeps. -/
inductive Body.Alike (R : State → State → Prop) : Body → Body → Prop
  | ok {s s' : State} (h : R s s') : Alike R (.ok s) (.ok s')
  | raised (r : Raise) {s s' : State} (h : s.kept = s'.kept) : Alike R (.raised r s) (.raised r s')

/-- The states agree on what the block keeps. -/
abbrev SameKept (s s' : State) : Prop := s.kept = s'.kept

/-- The states agree also on where a table extraction stands between two entries. -/
structure SameTable (s s' : State) : Prop where
  kept : s.kept = s'.kept
  tbl : s.tbl = s'.tbl
  pp : s.pp = s'.pp
  eidx : s.eidx = s'.eidx

/-- And on where the detokenizer stands inside an entry. -/
structure SameEntry (s s' : State) : Prop extends SameTable s s' where
  tok : s.tok = s'.tok
  tp : s.tp = s'.tp
  run : s.run = s'.run

variable {cfg : Config} {s s' : State}

/-! What a command reads depends on what is kept: each of these functions gives on `s.kept`, by unfolding, what it gives on
`s`, so a fact about `s` is the function applied to both sides of `s.kept = s'.kept`. The same holds below of every update. -/

theorem inBytes_of_kept (h : s.kept = s'.kept) : inBytes s = inBytes s' := (congrArg inBytes h :)

/-- The bytes after a header that has been read. -/
theorem afterHeader_of_kept (h : s.kept = s'.kept) : (inBytes s).drop s.hlen.toNat = (inBytes s').drop s'.hlen.toNat :=
  (congrArg (fun k : State => (inBytes k).drop k.hlen.toNat) h :)

theorem keyBytes_of_kept (h : s.kept = s'.kept) : keyBytes s = keyBytes s' := (congrArg keyBytes h :)

theorem finRecords_of_kept (h : s.kept = s'.kept) : finRecords s = finRecords s' := (congrArg finRecords h :)

theorem out_of_kept (h : s.kept = s'.kept) : s.out = s'.out := (congrArg State.out h :)

theorem tokenBytes_of_kept (h : s.kept = s'.kept) (ht : s.tok = s'.tok) (src : TokenSource) :
    tokenBytes s src = tokenBytes s' src := by
  cases src with
  | input => exact inBytes_of_kept h
  | tok => exact ht

/-! How bodies are put together. -/

theorem alike_andThen {R R' : State → State → Prop} {b b' : Body} {f f' : State → Body} (h : b.Alike R b')
    (hf : ∀ s s', R s s' → (f s).Alike R' (f' s')) : (b.andThen f).Alike R' (b'.andThen f') := by
  cases h with
  | ok h => exact hf _ _ h
  | raised r h => exact .raised r h

theorem alike_mono {R R' : State → State → Prop} {b b' : Body} (h : b.Alike R b') (hR : ∀ s s', R s s' → R' s s') :
    b.Alike R' b' := by
  cases h with
  | ok h => exact .ok (hR _ _ h)
  | raised r h => exact .raised r h

theorem alike_bodyOf {α : Type} {R : State → State → Prop} {x x' : Except Raise α} {store store' : α → State}
    (hx : x = x') (h : s.kept = s'.kept) (hR : ∀ a, R (store a) (store' a)) :
    (bodyOf x s store).Alike R (bodyOf x' s' store') := by
  subst hx
  cases x with
  | ok a => exact .ok (hR a)
  | error r => exact .raised r h

theorem kept_settle {b b' : Body} (h : b.Alike SameKept b') : b.settle.kept = b'.settle.kept := by
  cases h with
  | ok h => exact (congrArg (fun k => (finish k).kept) h :)
  | raised r h => exact (congrArg (fun k => (abort r k).kept) h :)

/-! The parts of a command. -/

theorem appendOut_alike {info : Nat} {v v' : List Byte} (hv : v = v') (h : s.kept = s'.kept) :
    (appendOut cfg info v s).Alike SameKept (appendOut cfg info v' s') := by
  subst hv
  exact alike_bodyOf (by rw [out_of_kept h]) h fun o => (congrArg (fun k : State => { k with out := o }) h :)

theorem startOut_kept (h : s.kept = s'.kept) : (startOut s).kept = (startOut s').kept :=
  (congrArg startOut h :)

theorem startExtract_kept (h : s.kept = s'.kept) : (startExtract s).kept = (startExtract s').kept :=
  (congrArg startExtract h :)

/-- The detokenizer reads its token buffer, `TP` and `OUT`; an error's datum may be the entry's index. -/
theorem detokenize_alike {R : State → State → Prop} (h : s.kept = s'.kept)
    (hT : tokenBytes s (runSource s) = tokenBytes s' (runSource s')) (hp : s.tp = s'.tp)
    (hi : ∀ n, tokenInfo s n = tokenInfo s' n) (hR : ∀ d, R (storeDetok s d) (storeDetok s' d)) :
    (detokenize cfg s).Alike R (detokenize cfg s') := by
  have hd : detokOf s = detokOf s' := by
    simp only [detokOf, hp, out_of_kept h]
  unfold detokenize
  dsimp only
  rw [hT, hd]
  cases detokRun cfg (tokenBytes s' (runSource s')) (tokenBytes s' (runSource s')).length (detokOf s') with
  | ok d => exact .ok (hR d)
  | error r =>
    rw [detokBody_error, detokBody_error, hi]
    exact .raised _ h

theorem payloadDecompress_alike {p p' : List Byte} (hp : p = p') (h : s.kept = s'.kept) :
    (payloadDecompress cfg p s).Alike SameKept (payloadDecompress cfg p' s') := by
  subst hp
  have hu : ∀ u, (startTokens .tok .command (storeUnpacked u s)).kept =
      (startTokens .tok .command (storeUnpacked u s')).kept := fun u =>
    (congrArg (fun k => (startTokens .tok .command (storeUnpacked u k)).kept) h :)
  refine alike_andThen (R := fun t t' => ∃ u, t = startTokens .tok .command (storeUnpacked u s) ∧
    t' = startTokens .tok .command (storeUnpacked u s')) (alike_bodyOf (by rw [keyBytes_of_kept h]) h fun u =>
      ⟨u, rfl, rfl⟩) ?_
  rintro _ _ ⟨u, rfl, rfl⟩
  exact detokenize_alike (hu u) rfl rfl (fun _ => rfl) fun d =>
    (congrArg (fun k : State => { k with out := d.out }) (hu u) :)

theorem loadHeader_alike (h : s.kept = s'.kept) : (loadHeader cfg s).Alike SameKept (loadHeader cfg s') :=
  alike_bodyOf (by rw [inBytes_of_kept h]) h fun x => (congrArg (storeHeader cfg x) h :)

theorem writeHeader_alike {flag : Byte} (h : s.kept = s'.kept) :
    (writeHeader cfg flag s).Alike SameKept (writeHeader cfg flag s') :=
  alike_andThen (appendOut_alike (by rw [keyBytes_of_kept h]) h) fun _ _ h =>
    .ok (congrArg (fun k : State => { k with hlen := BitVec.ofNat 9 (Config.minHeader + k.klen.toNat) }) h :)

theorem archiveBody_alike {flag : Byte} {p p' : List Byte} (hp : p = p') (h : s.kept = s'.kept) :
    (archiveBody cfg flag p s).Alike SameKept (archiveBody cfg flag p' s') := by
  subst hp
  have hk : s.klen = s'.klen := (congrArg State.klen h :)
  unfold archiveBody
  rw [hk]
  split
  · exact .raised _ h
  · exact alike_andThen (writeHeader_alike h) fun _ _ h => appendOut_alike rfl h

/-- `PayloadCompress` leaves one `WRK`, whatever was there. -/
theorem compressBody_alike {src src' : List Byte} (hs : src = src') (h : s.kept = s'.kept) :
    (bodyOf (payloadCompress cfg (keyBytes s) src) s fun p => storePayload p s).Alike
      (fun t t' => t.kept = t'.kept ∧ t.wrk = t'.wrk)
      (bodyOf (payloadCompress cfg (keyBytes s') src') s' fun p => storePayload p s') :=
  alike_bodyOf (by rw [keyBytes_of_kept h, hs]) h fun p =>
    ⟨(congrArg (fun k => (storePayload p k).kept) h :), rfl⟩

/-- `TableBuild` leaves one `TBL`, whatever was there. -/
theorem buildBody_alike {recs : List FinRecord} (h : s.kept = s'.kept) :
    (buildBody cfg recs s).Alike (fun t t' => t.kept = t'.kept ∧ t.tbl = t'.tbl) (buildBody cfg recs s') := by
  refine alike_bodyOf (by rw [keyBytes_of_kept h]) h fun b => ⟨?_, rfl⟩
  obtain ⟨tbl, last⟩ := b
  cases last with
  | none => exact h
  | some p => exact (congrArg (fun k => (storePayload p k).kept) h :)

/-! A table extraction. -/

theorem entryStart_alike (h : SameTable s s') : (entryStart cfg s).Alike SameEntry (entryStart cfg s') := by
  have hp : parseEntry cfg s.tbl s.pp.toNat = parseEntry cfg s'.tbl s'.pp.toNat := by rw [h.tbl, h.pp]
  unfold entryStart
  rw [hp]
  cases parseEntry cfg s'.tbl s'.pp.toNat with
  | error c =>
    dsimp only
    rw [h.eidx]
    exact .raised _ h.kept
  | ok e =>
    refine alike_bodyOf (by rw [h.eidx, keyBytes_of_kept h.kept]) h.kept fun u =>
      ⟨⟨?_, h.tbl, rfl, h.eidx⟩, rfl, rfl, rfl⟩
    exact (congrArg (fun k => (startTokens .tok .command (storeUnpacked u k)).kept) h.kept :)

theorem detokenize_alike_entry (h : SameEntry s s') : (detokenize cfg s).Alike SameEntry (detokenize cfg s') :=
  detokenize_alike h.kept (by simp only [runSource, h.run, tokenBytes_of_kept h.kept h.tok]) h.tp
    (fun _ => by simp only [tokenInfo, h.run, h.eidx]) fun d =>
    ⟨⟨(congrArg (fun k : State => { k with out := d.out }) h.kept :), h.tbl, h.pp, h.eidx⟩, h.tok, rfl, h.run⟩

/-- The host is asked about the same record at the same moment, so it gives the same answer. -/
theorem entryFinish_alike {path : List Byte} {blen : Nat} (h : SameTable s s') :
    (entryFinish cfg path blen s).Alike SameTable (entryFinish cfg path blen s') := by
  have hd : s.draws = s'.draws := (congrArg State.draws h.kept :)
  have hw : cfg.hostWrite s.draws path s.out = cfg.hostWrite s'.draws path s'.out := by
    rw [hd, out_of_kept h.kept]
  have hpp : BitVec.ofNat 32 (s.pp.toNat + blen) = BitVec.ofNat 32 (s'.pp.toNat + blen) := by rw [h.pp]
  unfold entryFinish
  dsimp only
  rw [hw]
  split
  · refine .ok ⟨?_, h.tbl, hpp, congrArg (· + 1) h.eidx⟩
    exact (congrArg
      (fun k : State =>
        { k with
          fout := k.fout ++ [FoutRecord.mk path k.out]
          foutCnt := k.foutCnt + 1
          draws := k.draws + 1 })
      h.kept :)
  · rw [h.eidx]
    exact .raised _ (congrArg (fun k : State => { k with draws := k.draws + 1 }) h.kept :)

theorem afterTokens_alike (h : SameTable s s') (hr : s.run = s'.run) :
    (afterTokens cfg s).Alike SameTable (afterTokens cfg s') := by
  unfold afterTokens
  rw [hr]
  split
  · exact entryFinish_alike h
  · exact .ok h
  · exact .ok h

theorem entryBody_alike (h : SameTable s s') : (entryBody cfg s).Alike SameTable (entryBody cfg s') :=
  alike_andThen (alike_andThen (entryStart_alike h) fun _ _ h => detokenize_alike_entry h) fun _ _ h =>
    afterTokens_alike h.toSameTable h.run

theorem extractLoop_alike (n : Nat) (h : SameTable s s') :
    (extractLoop cfg n s).Alike SameTable (extractLoop cfg n s') := by
  induction n generalizing s s' with
  | zero => exact .ok h
  | succ n ih => exact alike_andThen (entryBody_alike h) fun _ _ h => ih h

/-- The extraction writes `TBL`, `PP` and `EIDX` before it reads them. -/
theorem tableExtract_alike {p p' : List Byte} (hp : p = p') (h : s.kept = s'.kept) :
    (tableExtract cfg p s).Alike SameKept (tableExtract cfg p' s') := by
  subst hp
  have hk : (s.klen = 0) = (s'.klen = 0) := (congrArg (fun k : State => k.klen = 0) h :)
  unfold tableExtract
  simp only [hk, keyBytes_of_kept h]
  split
  · exact .raised _ h
  · split
    · exact .raised _ h
    · exact alike_mono (extractLoop_alike _ ⟨h, rfl, rfl, rfl⟩) fun _ _ h => h.kept

theorem endExtract_alike (h : s.kept = s'.kept) : (endExtract s).Alike SameKept (endExtract s') :=
  .ok (congrArg (fun k : State => { k with out := [] }) h :)

/-! The commands. -/

/-- Whatever next state the first outcome is, the second is one too, and the two agree on what the block keeps. -/
def KeptFollows (o o' : Host.Outcome State Fault Refusal) : Prop :=
  ∀ t, o = .next t → ∃ t', o' = .next t' ∧ t'.kept = t.kept

theorem keptFollows_next {t t' : State} (h : t.kept = t'.kept) : KeptFollows (.next t) (.next t') := by
  rintro _ ⟨⟩
  exact ⟨t', rfl, h.symm⟩

theorem keptFollows_settle {b b' : Body} (h : b.Alike SameKept b') : KeptFollows (.next b.settle) (.next b'.settle) :=
  keptFollows_next (kept_settle h)

theorem mencWith_keptFollows (h : s.kept = s'.kept) : KeptFollows (mencWith cfg s) (mencWith cfg s') :=
  keptFollows_settle <| alike_bodyOf (congrArg (tokenize cfg) (inBytes_of_kept (startOut_kept h))) (startOut_kept h)
    fun t => (congrArg (fun k : State => { k with out := t.dst }) h :)

theorem mdecWith_keptFollows (h : s.kept = s'.kept) : KeptFollows (mdecWith cfg s) (mdecWith cfg s') := by
  have hs : (startTokens .input .command s).kept = (startTokens .input .command s').kept := startOut_kept h
  refine keptFollows_settle (detokenize_alike hs (inBytes_of_kept hs) rfl (fun _ => rfl) fun d => ?_)
  exact (congrArg (fun k : State => { k with out := d.out }) h :)

theorem eencWith_keptFollows (h : s.kept = s'.kept) : KeptFollows (eencWith cfg s) (eencWith cfg s') := by
  unfold eencWith
  dsimp only
  rw [inBytes_of_kept (startOut_kept h)]
  refine keptFollows_settle ?_
  split
  · exact .raised _ (startOut_kept h)
  · exact appendOut_alike rfl (startOut_kept h)

theorem edecWith_keptFollows (h : s.kept = s'.kept) : KeptFollows (edecWith cfg s) (edecWith cfg s') := by
  have he : (startOut s).expLen = (startOut s').expLen := (congrArg State.expLen h :)
  unfold edecWith
  dsimp only
  rw [inBytes_of_kept (startOut_kept h), he]
  refine keptFollows_settle ?_
  split
  · exact .raised _ (startOut_kept h)
  · exact appendOut_alike rfl (startOut_kept h)

theorem ksxWith_keptFollows (h : s.kept = s'.kept) : KeptFollows (ksxWith cfg s) (ksxWith cfg s') := by
  have hk : ((startOut s).klen = 0) = ((startOut s').klen = 0) := (congrArg (fun k : State => k.klen = 0) h :)
  have ho : keystream (keyBytes (startOut s)) (inBytes (startOut s)) =
      keystream (keyBytes (startOut s')) (inBytes (startOut s')) := by
    rw [inBytes_of_kept (startOut_kept h), keyBytes_of_kept (startOut_kept h)]
  unfold ksxWith
  simp only [hk, ho]
  refine keptFollows_settle ?_
  split
  · exact .raised _ (startOut_kept h)
  · exact .ok (congrArg
      (fun k : State => { k with out := keystream (keyBytes (startOut s')) (inBytes (startOut s')) }) h :)

theorem hdrwWith_keptFollows (h : s.kept = s'.kept) : KeptFollows (hdrwWith cfg s) (hdrwWith cfg s') := by
  have hf : s.flag = s'.flag := (congrArg State.flag h :)
  unfold hdrwWith
  rw [hf]
  exact keptFollows_settle (writeHeader_alike (startOut_kept h))

theorem hdrrWith_keptFollows (h : s.kept = s'.kept) : KeptFollows (hdrrWith cfg s) (hdrrWith cfg s') := by
  unfold hdrrWith
  rw [inBytes_of_kept h]
  split
  · exact keptFollows_next (congrArg (fun k => (abortUnwritten _ k).kept) (startOut_kept h) :)
  · exact keptFollows_settle (appendOut_alike rfl (congrArg (storeHeader cfg _) (startOut_kept h) :))

theorem rhdrWith_keptFollows (h : s.kept = s'.kept) : KeptFollows (rhdrWith cfg s) (rhdrWith cfg s') :=
  keptFollows_settle (loadHeader_alike (startOut_kept h))

theorem fpcWith_keptFollows (h : s.kept = s'.kept) : KeptFollows (fpcWith cfg s) (fpcWith cfg s') :=
  keptFollows_settle <|
    alike_andThen (compressBody_alike (inBytes_of_kept (startOut_kept h)) (startOut_kept h)) fun _ _ h =>
      appendOut_alike h.2 h.1

theorem cfileWith_keptFollows (h : s.kept = s'.kept) : KeptFollows (cfileWith cfg s) (cfileWith cfg s') :=
  keptFollows_settle <|
    alike_andThen (compressBody_alike (inBytes_of_kept (startOut_kept h)) (startOut_kept h)) fun _ _ h =>
      archiveBody_alike h.2 h.1

theorem fpdWith_keptFollows (h : s.kept = s'.kept) : KeptFollows (fpdWith cfg s) (fpdWith cfg s') :=
  keptFollows_settle (payloadDecompress_alike (inBytes_of_kept h) (startOut_kept h))

theorem chooseKey_kept {k : List Byte} (h : s.kept = s'.kept) : (chooseKey cfg k s).kept = (chooseKey cfg k s').kept := by
  unfold chooseKey
  split
  · exact h
  · exact (congrArg (setKey k) h :)

theorem dfileWith_keptFollows (h : s.kept = s'.kept) : KeptFollows (dfileWith cfg s) (dfileWith cfg s') := by
  unfold dfileWith
  rw [keyBytes_of_kept h]
  refine keptFollows_settle (alike_andThen (loadHeader_alike (startOut_kept h)) fun t t' h => ?_)
  have hf : t.flag = t'.flag := (congrArg State.flag h :)
  have hr : t.flagRaw = t'.flagRaw := (congrArg State.flagRaw h :)
  rw [hf, hr]
  split
  · exact .raised _ h
  · have hc := chooseKey_kept (cfg := cfg) (k := keyBytes s') h
    exact payloadDecompress_alike (afterHeader_of_kept hc) hc

/-- The records are the same, and with one missing both refuse. -/
theorem tblbWith_keptFollows (h : s.kept = s'.kept) : KeptFollows (tblbWith cfg s) (tblbWith cfg s') := by
  unfold tblbWith
  rw [finRecords_of_kept h]
  split
  · rintro _ ⟨⟩
  · exact keptFollows_settle <| alike_andThen (buildBody_alike (startOut_kept h)) fun _ _ h => appendOut_alike h.2 h.1

theorem bfoldWith_keptFollows (h : s.kept = s'.kept) : KeptFollows (bfoldWith cfg s) (bfoldWith cfg s') := by
  unfold bfoldWith
  rw [finRecords_of_kept h]
  split
  · rintro _ ⟨⟩
  · exact keptFollows_settle <| alike_andThen (buildBody_alike (startOut_kept h)) fun _ _ h => archiveBody_alike h.2 h.1

theorem tblxWith_keptFollows (h : s.kept = s'.kept) : KeptFollows (tblxWith cfg s) (tblxWith cfg s') :=
  keptFollows_settle <|
    alike_andThen (tableExtract_alike (inBytes_of_kept h) (startExtract_kept h)) fun _ _ h => endExtract_alike h

theorem xfoldWith_keptFollows (h : s.kept = s'.kept) : KeptFollows (xfoldWith cfg s) (xfoldWith cfg s') := by
  refine keptFollows_settle <| alike_andThen (alike_andThen (loadHeader_alike (startExtract_kept h)) fun t t' h => ?_)
    fun _ _ h => endExtract_alike h
  have hf : t.flag = t'.flag := (congrArg State.flag h :)
  have hr : t.flagRaw = t'.flagRaw := (congrArg State.flagRaw h :)
  rw [hf, hr]
  split
  · exact .raised _ h
  · exact tableExtract_alike (afterHeader_of_kept h) h

/-- Settles O57, by a simulation: the two runs go through bodies that end alike, command by command. -/
theorem resultsIgnoreInternals : Obligations.ResultsIgnoreInternals := by
  unfold Obligations.ResultsIgnoreInternals
  intro i s s' t hi h ht
  refine (?_ : KeptFollows (exec i s) (exec i s')) t ht
  cases i with
  | lit raw => cases hi
  | matchRef lm3 off => cases hi
  | menc => exact mencWith_keptFollows h
  | mdec => exact mdecWith_keptFollows h
  | eenc => exact eencWith_keptFollows h
  | edec => exact edecWith_keptFollows h
  | ksx => exact ksxWith_keptFollows (cfg := Config.block) h
  | hdrw => exact hdrwWith_keptFollows h
  | hdrr => exact hdrrWith_keptFollows h
  | fpc => exact fpcWith_keptFollows h
  | fpd => exact fpdWith_keptFollows h
  | tblb => exact tblbWith_keptFollows h
  | tblx => exact tblxWith_keptFollows h
  | cfile => exact cfileWith_keptFollows h
  | dfile => exact dfileWith_keptFollows h
  | bfold => exact bfoldWith_keptFollows h
  | xfold => exact xfoldWith_keptFollows h
  | rhdr => exact rhdrWith_keptFollows h

end Sys2Proof.Machine
end

section
/-! What each instruction may write: one table of places, one lemma for each part of a command, and the inversion of `exec`
they give. The claims about who writes which register follow from the table. -/

namespace Sys2Proof.Machine

variable {cfg : Config} {s t u : State}

/-! Groups of places: `s` with the places a part of a command may write taken from `v`. Each is one update of `s`, so that
two of them are compared field by field at once. -/

/-- `OUT`. -/
def takeOut (s v : State) : State := { s with out := v.out }

/-- The detokenizer (spec/40_match_codec.md R130). -/
def takeDetok (s v : State) : State := { s with tp := v.tp, out := v.out, run := v.run }

/-- The tokenizer into `OUT` (R141). -/
def takeTokenizer (s v : State) : State := { s with ht := v.ht, litBuf := v.litBuf, ip := v.ip, out := v.out }

/-- `PayloadCompress` (spec/44_file_payload.md R221). -/
def takeCompressed (s v : State) : State :=
  { s with
    ht := v.ht, litBuf := v.litBuf, ip := v.ip, out := v.out
    tok := v.tok, tokLen := v.tokLen, ent := v.ent, wrk := v.wrk }

/-- `PayloadDecompress` (R226). -/
def takeDecompressed (s v : State) : State :=
  { s with
    tp := v.tp, out := v.out, run := v.run
    tok := v.tok, tokLen := v.tokLen, expLen := v.expLen, wrk := v.wrk }

/-- `TableBuild` (spec/45_folder_payload.md R241). -/
def takeBuilt (s v : State) : State :=
  { s with
    ht := v.ht, litBuf := v.litBuf, ip := v.ip, out := v.out
    tok := v.tok, tokLen := v.tokLen, ent := v.ent, wrk := v.wrk
    tbl := v.tbl, eidx := v.eidx }

/-- `TableExtract` (R250 to R258). -/
def takeExtracted (s v : State) : State :=
  { s with
    tp := v.tp, out := v.out, run := v.run
    tok := v.tok, tokLen := v.tokLen, expLen := v.expLen, wrk := v.wrk
    tbl := v.tbl, pp := v.pp, ecnt := v.ecnt, eidx := v.eidx
    fout := v.fout, foutCnt := v.foutCnt, draws := v.draws }

/-- `ReadHeader` (spec/43_header_framer.md R206). -/
def takeHeader (s v : State) : State :=
  { s with key := v.key, klen := v.klen, flag := v.flag, flagRaw := v.flagRaw, hlen := v.hlen }

/-- The header's length (R200). -/
def takeHlen (s v : State) : State := { s with hlen := v.hlen }

/-- What an instruction may write before it ends: `s` with those places taken from `v`. -/
def takeInstr : Instr → State → State → State
  | .lit _, s, v => takeDetok s v
  | .matchRef _ _, s, v => takeDetok s v
  | .menc, s, v => takeTokenizer s v
  | .mdec, s, v => takeDetok s v
  | .eenc, s, v => takeOut s v
  | .edec, s, v => takeOut s v
  | .ksx, s, v => takeOut s v
  | .hdrw, s, v => takeHlen (takeOut s v) v
  | .hdrr, s, v => takeHeader (takeOut s v) v
  | .fpc, s, v => takeCompressed s v
  | .fpd, s, v => takeDecompressed s v
  | .tblb, s, v => takeBuilt s v
  | .tblx, s, v => takeExtracted s v
  | .cfile, s, v => takeHlen (takeCompressed s v) v
  | .dfile, s, v => takeHeader (takeDecompressed s v) v
  | .bfold, s, v => takeHlen (takeBuilt s v) v
  | .xfold, s, v => takeHeader (takeExtracted s v) v
  | .rhdr, s, v => takeHeader (takeOut s v) v

/-- `u` is `s` but for the places that `w` takes from it. -/
def Writes (w : State → State → State) (s u : State) : Prop := u = w s u

/-- The state in which a body ends. -/
def Body.state : Body → State
  | .ok s => s
  | .raised _ s => s

theorem writes_mono {w w' : State → State → State} {s' : State} (h : Writes w' s' u) (hw : ∀ v, Writes w s (w' s' v)) :
    Writes w s u := by
  have hu := hw u
  rwa [← (h : u = w' s' u)] at hu

/-- Parts one after the other write together what `w` takes. -/
theorem writes_andThen {w₁ w₂ w : State → State → State} {b : Body} {f : State → Body} (h : Writes w₁ s b.state)
    (hf : ∀ u, Writes w₂ u (f u).state) (h₁ : ∀ v, Writes w s (w₁ s v))
    (h₂ : ∀ v v', Writes w s (w₂ (w₁ s v) v')) : Writes w s (b.andThen f).state := by
  cases b with
  | raised r u => exact writes_mono h h₁
  | ok u =>
    have h : u = w₁ s u := h
    have hu := h₂ u (f u).state
    rwa [← h, ← (hf u : (f u).state = w₂ u (f u).state)] at hu

/-- A result stored or an error raised writes what the store writes. -/
theorem writes_bodyOf {α : Type} {w : State → State → State} {x : Except Raise α} {store : α → State}
    (he : Writes w s u) (ho : ∀ a, Writes w s (store a)) : Writes w s (bodyOf x u store).state := by
  cases x with
  | ok a => exact ho a
  | error r => exact he

/-! The parts of a command. -/

theorem appendOut_writes {info : Nat} {v : List Byte} : Writes takeOut s (appendOut cfg info v s).state :=
  writes_bodyOf rfl fun _ => rfl

theorem detokBody_writes {x : Except Raise Detok} : Writes takeDetok s (detokBody s x).state := by
  cases x <;> rfl

theorem detokenize_writes : Writes takeDetok s (detokenize cfg s).state := detokBody_writes

theorem compressBody_writes {x : Except Raise Payload} :
    Writes takeCompressed s (bodyOf x (startOut s) fun p => storePayload p (startOut s)).state :=
  writes_bodyOf rfl fun _ => rfl

theorem payloadDecompress_writes {p : List Byte} : Writes takeDecompressed s (payloadDecompress cfg p s).state :=
  writes_andThen (w₁ := takeDecompressed) (writes_bodyOf rfl fun _ => rfl) (fun _ => detokenize_writes) (fun _ => rfl)
    fun _ _ => rfl

theorem loadHeader_writes : Writes takeHeader s (loadHeader cfg s).state := writes_bodyOf rfl fun _ => rfl

theorem writeHeader_writes {flag : Byte} :
    Writes (fun s v => takeHlen (takeOut s v) v) s (writeHeader cfg flag s).state :=
  writes_andThen (w₂ := takeHlen) appendOut_writes (fun _ => rfl) (fun _ => rfl) fun _ _ => rfl

theorem archiveBody_writes {flag : Byte} {p : List Byte} :
    Writes (fun s v => takeHlen (takeOut s v) v) s (archiveBody cfg flag p s).state := by
  unfold archiveBody
  split
  · rfl
  · exact writes_andThen writeHeader_writes (fun _ => appendOut_writes) (fun _ => rfl) fun _ _ => rfl

theorem buildBody_writes {recs : List FinRecord} : Writes takeBuilt s (buildBody cfg recs (startOut s)).state := by
  refine writes_bodyOf rfl fun b => ?_
  obtain ⟨tbl, last⟩ := b
  cases last <;> rfl

/-- Up to the detokenizer an entry writes what `PayloadDecompress` does, and `PP`. -/
theorem entryStart_writes :
    Writes (fun s v => { takeDecompressed s v with pp := v.pp }) s (entryStart cfg s).state := by
  unfold entryStart
  split
  · rfl
  · exact writes_bodyOf rfl fun _ => rfl

theorem afterTokens_writes : Writes takeExtracted s (afterTokens cfg s).state := by
  unfold afterTokens
  split
  · unfold entryFinish
    dsimp only
    split <;> rfl
  · rfl
  · rfl

theorem entryBody_writes : Writes takeExtracted s (entryBody cfg s).state :=
  writes_andThen (w₁ := takeExtracted)
    (writes_andThen entryStart_writes (fun _ => detokenize_writes) (fun _ => rfl) fun _ _ => rfl)
    (fun _ => afterTokens_writes) (fun _ => rfl) fun _ _ => rfl

theorem extractLoop_writes (n : Nat) : Writes takeExtracted s (extractLoop cfg n s).state := by
  induction n generalizing s with
  | zero => rfl
  | succ n ih => exact writes_andThen entryBody_writes (fun _ => ih) (fun _ => rfl) fun _ _ => rfl

theorem endExtract_writes : Writes takeOut s (endExtract s).state := rfl

theorem tableExtract_writes {p : List Byte} : Writes takeExtracted s (tableExtract cfg p s).state := by
  unfold tableExtract
  dsimp only
  split
  · rfl
  · split
    · rfl
    · exact extractLoop_writes _

theorem resumeExtract_writes : Writes takeExtracted s (resumeExtract cfg s).state :=
  writes_andThen (w₁ := takeExtracted)
    (writes_andThen afterTokens_writes (fun _ => extractLoop_writes _) (fun _ => rfl) fun _ _ => rfl)
    (fun _ => endExtract_writes) (fun _ => rfl) fun _ _ => rfl

/-! How an instruction ends. -/

/-- How `exec` leaves the state `u` that an instruction's own part has reached: a token goes on, a command ends, an error
aborts (spec/70_reset_and_hazards.md R356, spec/60_exceptions.md R315). -/
inductive Leaves (u : State) : State → Prop
  | goesOn : Leaves u u
  | ends : Leaves u (finish u)
  | aborts (r : Raise) : Leaves u (abort r u)
  | abortsUnwritten (r : Raise) : Leaves u (abortUnwritten r u)

theorem settle_leaves (b : Body) : Leaves b.state b.settle := by
  cases b with
  | ok s => exact .ends
  | raised r s => exact .aborts r

theorem resume_leaves (b : Body) : Leaves b.state b.resume := by
  cases b with
  | ok s => exact .goesOn
  | raised r s => exact .aborts r

/-- What the end of an instruction may write: all that an abort writes (R315, R316). -/
def takeEnd (s v : State) : State :=
  { s with
    status := v.status, errKind := v.errKind, errCause := v.errCause, errInfo := v.errInfo
    ht := v.ht, litBuf := v.litBuf, ip := v.ip, tp := v.tp, out := v.out, run := v.run
    tok := v.tok, tokLen := v.tokLen, expLen := v.expLen, ent := v.ent, wrk := v.wrk
    tbl := v.tbl, pp := v.pp, ecnt := v.ecnt, eidx := v.eidx, draws := v.draws }

theorem leaves_writes (h : Leaves u t) : Writes takeEnd u t := by
  cases h <;> rfl

/-- An instruction that has not aborted has written nothing at its end but `STATUS` and where the engine stands. -/
theorem leaves_done (h : Leaves u t) (hd : t.status = .done) : t = { u with status := t.status, run := t.run } := by
  cases h with
  | goesOn => rfl
  | ends => rfl
  | aborts r => cases hd
  | abortsUnwritten r => cases hd

/-- `STATUS` and the error registers at the end of an instruction (spec/10_state.md R39). -/
theorem leaves_status (h : Leaves u t) :
    ((t.status = u.status ∨ t.status = .done) ∧
      t.errKind = u.errKind ∧ t.errCause = u.errCause ∧ t.errInfo = u.errInfo) ∨
    (t.status = .error ∧ ∃ c : Cause, t.errKind = c.kind.code ∧ t.errCause = c.code) := by
  cases h with
  | goesOn => exact .inl ⟨.inl rfl, rfl, rfl, rfl⟩
  | ends => exact .inl ⟨.inr rfl, rfl, rfl, rfl⟩
  | aborts r => exact .inr ⟨rfl, r.cause, rfl, rfl⟩
  | abortsUnwritten r => exact .inr ⟨rfl, r.cause, rfl, rfl⟩

/-! The inversion of `exec`. -/

/-- An outcome is a next state, which leaves a state reached from `s` by writing what `w` takes. -/
def Ran (w : State → State → State) (s : State) (o : Host.Outcome State Fault Refusal) : Prop :=
  ∀ t, o = .next t → ∃ u, Writes w s u ∧ Leaves u t

theorem ran_settle {w : State → State → State} {b : Body} (h : Writes w s b.state) : Ran w s (.next b.settle) := by
  rintro _ ⟨⟩
  exact ⟨b.state, h, settle_leaves b⟩

theorem ran_resume {w : State → State → State} {b : Body} (h : Writes w s b.state) : Ran w s (.next b.resume) := by
  rintro _ ⟨⟩
  exact ⟨b.state, h, resume_leaves b⟩

theorem ran_refused {w : State → State → State} {r : Refusal} : Ran w s (.refused r) := by
  rintro _ ⟨⟩

theorem mencWith_ran : Ran takeTokenizer s (mencWith cfg s) := ran_settle (writes_bodyOf rfl fun _ => rfl)

theorem mdecWith_ran : Ran takeDetok s (mdecWith cfg s) := ran_settle detokenize_writes

theorem eencWith_ran : Ran takeOut s (eencWith cfg s) := by
  refine ran_settle ?_
  split
  · rfl
  · exact appendOut_writes

theorem edecWith_ran : Ran takeOut s (edecWith cfg s) := by
  refine ran_settle ?_
  split
  · rfl
  · exact appendOut_writes

theorem ksxWith_ran : Ran takeOut s (ksxWith cfg s) := by
  refine ran_settle ?_
  split <;> rfl

theorem hdrwWith_ran : Ran (fun s v => takeHlen (takeOut s v) v) s (hdrwWith cfg s) :=
  ran_settle (writes_mono writeHeader_writes fun _ => rfl)

theorem hdrrWith_ran : Ran (fun s v => takeHeader (takeOut s v) v) s (hdrrWith cfg s) := by
  unfold hdrrWith
  split
  · rintro _ ⟨⟩
    exact ⟨startOut s, rfl, .abortsUnwritten _⟩
  · exact ran_settle (writes_mono appendOut_writes fun _ => rfl)

theorem fpcWith_ran : Ran takeCompressed s (fpcWith cfg s) :=
  ran_settle (writes_andThen compressBody_writes (fun _ => appendOut_writes) (fun _ => rfl) fun _ _ => rfl)

theorem cfileWith_ran : Ran (fun s v => takeHlen (takeCompressed s v) v) s (cfileWith cfg s) :=
  ran_settle (writes_andThen compressBody_writes (fun _ => archiveBody_writes) (fun _ => rfl) fun _ _ => rfl)

theorem tblbWith_ran : Ran takeBuilt s (tblbWith cfg s) := by
  unfold tblbWith
  split
  · exact ran_refused
  · exact ran_settle (writes_andThen buildBody_writes (fun _ => appendOut_writes) (fun _ => rfl) fun _ _ => rfl)

theorem bfoldWith_ran : Ran (fun s v => takeHlen (takeBuilt s v) v) s (bfoldWith cfg s) := by
  unfold bfoldWith
  split
  · exact ran_refused
  · exact ran_settle (writes_andThen buildBody_writes (fun _ => archiveBody_writes) (fun _ => rfl) fun _ _ => rfl)

theorem dfileWith_ran : Ran (fun s v => takeHeader (takeDecompressed s v) v) s (dfileWith cfg s) := by
  have hh : Writes (fun s v => takeHeader (takeOut s v) v) s (loadHeader cfg (startOut s)).state :=
    writes_mono loadHeader_writes fun _ => rfl
  refine ran_settle (writes_andThen (w₂ := fun s v => takeHeader (takeDecompressed s v) v) hh (fun u => ?_)
    (fun _ => rfl) fun _ _ => rfl)
  split
  · rfl
  · refine writes_mono payloadDecompress_writes fun _ => ?_
    unfold chooseKey
    split <;> rfl

theorem tblxWith_ran : Ran takeExtracted s (tblxWith cfg s) :=
  ran_settle (writes_andThen (w₁ := takeExtracted) tableExtract_writes (fun _ => endExtract_writes) (fun _ => rfl)
    fun _ _ => rfl)

theorem xfoldWith_ran : Ran (fun s v => takeHeader (takeExtracted s v) v) s (xfoldWith cfg s) := by
  have hh : Writes (fun s v => takeHeader (takeExtracted s v) v) s (loadHeader cfg (startExtract s)).state :=
    writes_mono loadHeader_writes fun _ => rfl
  refine ran_settle (writes_andThen (w₁ := fun s v => takeHeader (takeExtracted s v) v)
    (writes_andThen (w₂ := takeExtracted) hh (fun u => ?_) (fun _ => rfl) fun _ _ => rfl)
    (fun _ => endExtract_writes) (fun _ => rfl) fun _ _ => rfl)
  split
  · rfl
  · exact tableExtract_writes

/-- Every instruction writes what `takeInstr` says, and ends in one of the four ways of `Leaves`. -/
theorem exec_ran (i : Instr) (s : State) : Ran (takeInstr i) s (exec i s) := by
  cases i with
  | lit raw => exact ran_resume detokBody_writes
  | matchRef lm3 off => exact ran_resume detokBody_writes
  | menc => exact mencWith_ran
  | mdec => exact mdecWith_ran
  | eenc => exact eencWith_ran
  | edec => exact edecWith_ran
  | ksx => exact ksxWith_ran (cfg := Config.block)
  | hdrw => exact hdrwWith_ran
  | hdrr => exact hdrrWith_ran
  | fpc => exact fpcWith_ran
  | fpd => exact ran_settle payloadDecompress_writes
  | tblb => exact tblbWith_ran
  | tblx => exact tblxWith_ran
  | cfile => exact cfileWith_ran
  | dfile => exact dfileWith_ran
  | bfold => exact bfoldWith_ran
  | xfold => exact xfoldWith_ran
  | rhdr => exact ran_settle (writes_mono loadHeader_writes fun _ => rfl)

/-! What the table of writes leaves alone. -/

theorem takeInstr_inputs {i : Instr} (h : Writes (takeInstr i) s u) :
    u.cmd = s.cmd ∧ u.inMem = s.inMem ∧ u.inLen = s.inLen ∧ u.fin = s.fin ∧ u.finCnt = s.finCnt ∧
      u.epoch = s.epoch := by
  rw [(h : u = takeInstr i s u)]
  cases i <;> exact ⟨rfl, rfl, rfl, rfl, rfl, rfl⟩

/-- `STATUS`, the error registers and the host's side are written by no instruction's own part. -/
theorem takeInstr_outside {i : Instr} (h : Writes (takeInstr i) s u) :
    u.status = s.status ∧ u.errKind = s.errKind ∧ u.errCause = s.errCause ∧ u.errInfo = s.errInfo ∧
      u.pending = s.pending ∧ u.hostData = s.hostData := by
  rw [(h : u = takeInstr i s u)]
  cases i <;> exact ⟨rfl, rfl, rfl, rfl, rfl, rfl⟩

theorem takeInstr_key {i : Instr} (h : Writes (takeInstr i) s u) (hi : i ∉ [.hdrr, .rhdr, .dfile, .xfold]) :
    u.klen = s.klen ∧ u.flag = s.flag ∧ u.flagRaw = s.flagRaw ∧ u.key = s.key := by
  rw [(h : u = takeInstr i s u)]
  cases i <;> simp at hi <;> exact ⟨rfl, rfl, rfl, rfl⟩

theorem takeInstr_hlen {i : Instr} (h : Writes (takeInstr i) s u)
    (hi : i ∉ [.hdrr, .rhdr, .dfile, .xfold, .hdrw, .cfile, .bfold]) : u.hlen = s.hlen := by
  rw [(h : u = takeInstr i s u)]
  cases i <;> simp at hi <;> rfl

theorem takeInstr_fout {i : Instr} (h : Writes (takeInstr i) s u) (hi : i ∉ [.tblx, .xfold]) :
    u.fout = s.fout ∧ u.foutCnt = s.foutCnt := by
  rw [(h : u = takeInstr i s u)]
  cases i <;> simp at hi <;> exact ⟨rfl, rfl⟩

theorem takeInstr_tokLen {i : Instr} (h : Writes (takeInstr i) s u)
    (hi : i ∉ [.fpc, .cfile, .fpd, .dfile, .tblb, .bfold, .tblx, .xfold]) :
    u.tokLen = s.tokLen ∧ u.tok = s.tok ∧ u.wrk = s.wrk := by
  rw [(h : u = takeInstr i s u)]
  cases i <;> simp at hi <;> exact ⟨rfl, rfl, rfl⟩

theorem takeInstr_expLen {i : Instr} (h : Writes (takeInstr i) s u) (hi : i ∉ [.fpd, .dfile, .tblx, .xfold]) :
    u.expLen = s.expLen := by
  rw [(h : u = takeInstr i s u)]
  cases i <;> simp at hi <;> rfl

theorem takeInstr_tokenizer {i : Instr} (h : Writes (takeInstr i) s u) (hi : i ∉ [.menc, .fpc, .cfile, .tblb, .bfold]) :
    u.ht = s.ht ∧ u.litBuf = s.litBuf ∧ u.ip = s.ip := by
  rw [(h : u = takeInstr i s u)]
  cases i <;> simp at hi <;> exact ⟨rfl, rfl, rfl⟩

theorem takeInstr_ent {i : Instr} (h : Writes (takeInstr i) s u) (hi : i ∉ [.fpc, .cfile, .tblb, .bfold]) :
    u.ent = s.ent := by
  rw [(h : u = takeInstr i s u)]
  cases i <;> simp at hi <;> rfl

theorem takeInstr_tbl {i : Instr} (h : Writes (takeInstr i) s u) (hi : i ∉ [.tblb, .bfold, .tblx, .xfold]) :
    u.tbl = s.tbl := by
  rw [(h : u = takeInstr i s u)]
  cases i <;> simp at hi <;> rfl

/-- Settles O53: neither the table of writes nor the end of an instruction lists any of these places. -/
theorem registerWriters : Obligations.RegisterWriters := by
  unfold Obligations.RegisterWriters
  intro i s t ht
  obtain ⟨u, hu, hl⟩ := exec_ran i s t ht
  obtain ⟨hcmd, hin, hinLen, hfin, hfinCnt, hepoch⟩ := takeInstr_inputs hu
  rw [(leaves_writes hl : t = takeEnd u t)]
  refine ⟨⟨hin, hinLen, hfin, hfinCnt, hcmd, fun a => ?_⟩, fun hi => ?_, fun hi => (takeInstr_hlen hu hi :)⟩
  · change readIn u a = readIn s a
    simp only [readIn, hin, hepoch]
  · obtain ⟨hklen, hflag, hflagRaw, hkey⟩ := takeInstr_key hu hi
    refine ⟨hklen, hflag, hflagRaw, fun j => ?_⟩
    change readKey u j = readKey s j
    simp only [readKey, hkey, hepoch]

/-- Settles O54: a command that ends `DONE` has written at its end `STATUS` and `run` alone. -/
theorem frameOfCompletedCommands : Obligations.FrameOfCompletedCommands := by
  unfold Obligations.FrameOfCompletedCommands
  intro i s t _ ht hd
  obtain ⟨u, hu, hl⟩ := exec_ran i s t ht
  obtain ⟨-, hkind, hcause, hinfo, hpending, hdata⟩ := takeInstr_outside hu
  rw [leaves_done hl hd]
  exact ⟨hkind, hcause, hinfo, hpending, hdata, fun hi => (takeInstr_tokLen hu hi :).1,
    fun hi => (takeInstr_expLen hu hi :), fun hi => (takeInstr_tokenizer hu hi :), fun hi => (takeInstr_ent hu hi :),
    fun hi => (takeInstr_tokLen hu hi :).2, fun hi => (takeInstr_tbl hu hi :)⟩

/-! The records emitted. -/

/-- `u` has at most `n` records more than `s`, and `FOUT_CNT` counts them (spec/10_state.md R42). -/
def Emits (n : Nat) (s u : State) : Prop :=
  ∃ recs, recs.length ≤ n ∧ u.fout = s.fout ++ recs ∧ u.foutCnt = s.foutCnt + BitVec.ofNat 32 recs.length

theorem emits_none {n : Nat} (h : u.fout = s.fout) (hc : u.foutCnt = s.foutCnt) : Emits n s u :=
  ⟨[], n.zero_le, by simpa using h, by simpa using hc⟩

theorem emits_mono {m n : Nat} (hmn : m ≤ n) (h : Emits m s u) : Emits n s u := by
  obtain ⟨recs, hl, hfout, hcnt⟩ := h
  exact ⟨recs, hl.trans hmn, hfout, hcnt⟩

theorem emits_andThen {m n : Nat} {b : Body} {f : State → Body} (h : Emits m s b.state)
    (hf : ∀ u, Emits n u (f u).state) : Emits (n + m) s (b.andThen f).state := by
  obtain ⟨recs, hl, hfout, hcnt⟩ := h
  cases b with
  | raised r u => exact ⟨recs, by omega, hfout, hcnt⟩
  | ok u =>
    have hfout : u.fout = s.fout ++ recs := hfout
    have hcnt : u.foutCnt = s.foutCnt + BitVec.ofNat 32 recs.length := hcnt
    obtain ⟨recs', hl', hfout', hcnt'⟩ := hf u
    refine ⟨recs ++ recs', by simp; omega, ?_, ?_⟩
    · rw [andThen_ok, hfout', hfout, List.append_assoc]
    · rw [andThen_ok, hcnt', hcnt, List.length_append, BitVec.ofNat_add, BitVec.add_assoc]

theorem afterTokens_emits : Emits 1 s (afterTokens cfg s).state := by
  unfold afterTokens
  split
  · unfold entryFinish
    dsimp only
    split
    · exact ⟨[_], le_rfl, rfl, rfl⟩
    · exact emits_none rfl rfl
  · exact emits_none rfl rfl
  · exact emits_none rfl rfl

theorem entryBody_emits : Emits 1 s (entryBody cfg s).state := by
  have hs : Emits 0 s (entryStart cfg s).state := by
    rw [(entryStart_writes : (entryStart cfg s).state = _)]
    exact emits_none rfl rfl
  have hd : ∀ u, Emits 0 u (detokenize cfg u).state := fun u => by
    rw [(detokenize_writes : (detokenize cfg u).state = _)]
    exact emits_none rfl rfl
  exact emits_andThen (emits_andThen hs hd) fun _ => afterTokens_emits

theorem extractLoop_emits (n : Nat) : Emits n s (extractLoop cfg n s).state := by
  induction n generalizing s with
  | zero => exact emits_none rfl rfl
  | succ n ih => exact emits_andThen entryBody_emits fun _ => ih

/-- A table's count is below 2^32, so `FOUT_CNT` holds the number of records emitted. -/
theorem tableExtract_emits {p : List Byte} : Emits (2 ^ 32 - 1) s (tableExtract cfg p s).state := by
  unfold tableExtract
  dsimp only
  split
  · exact emits_none rfl rfl
  · split
    · exact emits_none rfl rfl
    · exact emits_mono (Nat.le_pred_of_lt (unToc32_lt cfg _)) (extractLoop_emits _)

theorem xfoldBody_emits :
    Emits (2 ^ 32 - 1) (startExtract s)
      ((loadHeader cfg (startExtract s)).andThen fun s =>
        if s.flag = 0 then .raised ⟨.notFolderArchive, s.flagRaw.toNat⟩ s
        else tableExtract cfg ((inBytes s).drop s.hlen.toNat) s).state := by
  have hh : Emits 0 (startExtract s) (loadHeader cfg (startExtract s)).state := by
    rw [(loadHeader_writes : (loadHeader cfg (startExtract s)).state = _)]
    exact emits_none rfl rfl
  refine emits_andThen hh fun u => ?_
  split
  · exact emits_none rfl rfl
  · exact tableExtract_emits

/-- What an extracting command leaves of `FOUT` when its body started with `FOUT_CNT = 0` (R250). -/
theorem settle_emits {b : Body} (h : Emits (2 ^ 32 - 1) (startExtract s) b.state) :
    s.fout <+: (b.andThen endExtract).settle.fout ∧
      (b.andThen endExtract).settle.foutCnt.toNat = (b.andThen endExtract).settle.fout.length - s.fout.length := by
  have hb : (b.andThen endExtract).settle.fout = b.state.fout ∧
      (b.andThen endExtract).settle.foutCnt = b.state.foutCnt := by
    cases b <;> exact ⟨rfl, rfl⟩
  obtain ⟨recs, hl, hfout, hcnt⟩ := h
  have hcnt : b.state.foutCnt = BitVec.ofNat 32 recs.length := by simpa using hcnt
  rw [hb.1, hb.2, hfout, hcnt]
  refine ⟨List.prefix_append _ _, ?_⟩
  simp
  omega

/-- Settles O55: the records are counted through the extraction's loop; no other command writes `FOUT` at all. -/
theorem foutOnlyGrows : Obligations.FoutOnlyGrows := by
  unfold Obligations.FoutOnlyGrows
  intro i s t ht
  by_cases hi : i ∈ [Instr.tblx, Instr.xfold]
  · have hx : s.fout <+: t.fout ∧ t.foutCnt.toNat = t.fout.length - s.fout.length := by
      obtain rfl | rfl : i = .tblx ∨ i = .xfold := by simpa using hi
      · cases ht
        exact settle_emits tableExtract_emits
      · cases ht
        exact settle_emits xfoldBody_emits
    exact ⟨hx.1, fun h => absurd hi h, fun _ => hx.2⟩
  · obtain ⟨u, hu, hl⟩ := exec_ran i s t ht
    have hf := takeInstr_fout hu hi
    rw [(leaves_writes hl : t = takeEnd u t)]
    exact ⟨hf.1 ▸ List.prefix_rfl, fun _ => hf, fun h => absurd h hi⟩

end Sys2Proof.Machine
end

section
/-! The step: what becomes of `STATUS`, why no step faults, and the state after power-on. -/

namespace Sys2Proof.Machine

variable {s t u : State}

/-! `STATUS` and the error registers (spec/10_state.md R39). -/

/-- `u` has the `STATUS` and the error registers of `s`. -/
structure SameStatus (s u : State) : Prop where
  status : u.status = s.status
  errKind : u.errKind = s.errKind
  errCause : u.errCause = s.errCause
  errInfo : u.errInfo = s.errInfo

/-- The engine ends an illegal code at once, or leaves a state with the `STATUS` and the error registers it started from. -/
theorem engineStep_leaves (h : engineStep s = .next t) :
    t = abortIllegal s ∨ ∃ u, SameStatus s u ∧ Leaves u t := by
  have hexec : ∀ i, exec i s = .next t → ∃ u, SameStatus s u ∧ Leaves u t := fun i hi => by
    obtain ⟨u, hu, hl⟩ := exec_ran i s t hi
    obtain ⟨hstatus, hkind, hcause, hinfo, -, -⟩ := takeInstr_outside hu
    exact ⟨u, ⟨hstatus, hkind, hcause, hinfo⟩, hl⟩
  unfold engineStep at h
  split at h
  · unfold stepCommand at h
    split at h
    · exact .inr (hexec _ h)
    · cases h
      exact .inl rfl
  · right
    unfold stepTokens at h
    dsimp only at h
    split at h
    · cases h
      unfold haltTokens
      split
      · exact ⟨s, ⟨rfl, rfl, rfl, rfl⟩, .ends⟩
      · refine ⟨_, ?_, settle_leaves _⟩
        rw [(resumeExtract_writes : (resumeExtract Config.block s).state = _)]
        exact ⟨rfl, rfl, rfl, rfl⟩
    · split at h
      · cases h
      · split at h
        · exact hexec _ h
        · cases h
          exact ⟨s, ⟨rfl, rfl, rfl, rfl⟩, .aborts _⟩

/-- The engine's step while busy goes on or ends `DONE` with the error registers untouched, or ends `ERROR` with a kind and a
cause that belong together. -/
theorem engineStep_status (hb : s.status = .busy) (h : engineStep s = .next t) :
    ((t.status = .busy ∨ t.status = .done) ∧
      t.errKind = s.errKind ∧ t.errCause = s.errCause ∧ t.errInfo = s.errInfo) ∨
    (t.status = .error ∧ ∃ c : Cause, t.errKind = c.kind.code ∧ t.errCause = c.code) := by
  rcases engineStep_leaves h with rfl | ⟨u, hu, hl⟩
  · exact .inr ⟨rfl, .illegalCommand, rfl, rfl⟩
  · rw [← hu.errKind, ← hu.errCause, ← hu.errInfo, ← hb, ← hu.status]
    exact leaves_status hl

/-- The registers a host write fills (R38). -/
def takeOperands (s v : State) : State :=
  { s with
    klen := v.klen, flag := v.flag, expLen := v.expLen, inLen := v.inLen, finCnt := v.finCnt, key := v.key }

/-- A host write of a register other than `CMD` writes operands alone. -/
theorem hostWriteReg_writes {no : Nat} {v : Word} (h : no ≠ 0) : Writes takeOperands s (hostWriteReg no v s) := by
  unfold hostWriteReg
  split
  · exact absurd rfl h
  · rfl
  · rfl
  · rfl
  · rfl
  · rfl
  · split <;> rfl

/-- An access resets the block, starts a command, or leaves `STATUS` and the error registers alone. -/
theorem serveAccess_status {a : HostAccess} {rest : List HostAccess} (h : serveAccess a rest s = .next t) :
    ((a = .reset ∨ ∃ k, a = .resetDuring k) ∧
      t.status = .idle ∧ t.errKind = 0 ∧ t.errCause = 0 ∧ t.errInfo = 0) ∨
    ((∃ v, a = .writeReg 0 v) ∧ t.status = .busy ∧ t.errKind = 0 ∧ t.errCause = 0 ∧ t.errInfo = 0) ∨
    SameStatus s t := by
  cases a with
  | reset =>
    cases h
    exact .inl ⟨.inl rfl, rfl, rfl, rfl, rfl⟩
  | resetDuring k =>
    cases h
    exact .inl ⟨.inr ⟨k, rfl⟩, rfl, rfl, rfl, rfl⟩
  | writeReg no v =>
    cases h
    by_cases hno : no = 0
    · subst hno
      exact .inr (.inl ⟨⟨v, rfl⟩, rfl, rfl, rfl, rfl⟩)
    · rw [(hostWriteReg_writes hno : hostWriteReg no v { s with pending := rest } = _)]
      exact .inr (.inr ⟨rfl, rfl, rfl, rfl⟩)
  | readReg no =>
    cases h
    refine .inr (.inr ?_)
    unfold hostReadReg
    split <;> exact ⟨rfl, rfl, rfl, rfl⟩
  | writeFin i r =>
    simp only [serveAccess, hostAccess] at h
    split at h
    · cases h
    · cases h
      exact .inr (.inr ⟨rfl, rfl, rfl, rfl⟩)
  | writeIn i b => cases h; exact .inr (.inr ⟨rfl, rfl, rfl, rfl⟩)
  | readIn i => cases h; exact .inr (.inr ⟨rfl, rfl, rfl, rfl⟩)
  | writeOut i b => cases h; exact .inr (.inr ⟨rfl, rfl, rfl, rfl⟩)
  | readOut i => cases h; exact .inr (.inr ⟨rfl, rfl, rfl, rfl⟩)

/-- Who moves decides what becomes of `STATUS`: the host resets or starts a command, the engine ends one, or nothing
changes. -/
theorem step_status (h : step s = .next t) :
    ((∃ a rest, s.pending = a :: rest ∧ (a = .reset ∨ ∃ k, a = .resetDuring k)) ∧
      t.status = .idle ∧ t.errKind = 0 ∧ t.errCause = 0 ∧ t.errInfo = 0) ∨
    ((s.status ≠ .busy ∧ ∃ v rest, s.pending = .writeReg 0 v :: rest) ∧
      t.status = .busy ∧ t.errKind = 0 ∧ t.errCause = 0 ∧ t.errInfo = 0) ∨
    (s.status = .busy ∧ t.status = .done ∧
      t.errKind = s.errKind ∧ t.errCause = s.errCause ∧ t.errInfo = s.errInfo) ∨
    (s.status = .busy ∧ t.status = .error ∧ ∃ c : Cause, t.errKind = c.kind.code ∧ t.errCause = c.code) ∨
    SameStatus s t := by
  cases hn : nextAccess s with
  | some p =>
    obtain ⟨a, rest⟩ := p
    obtain ⟨hp, hserved⟩ := nextAccess_some hn
    have h : serveAccess a rest s = .next t := by simpa only [step, hn] using h
    rcases serveAccess_status h with ⟨ha, ht⟩ | ⟨⟨v, rfl⟩, ht⟩ | hs
    · exact .inl ⟨⟨a, rest, hp, ha⟩, ht⟩
    · exact .inr (.inl ⟨⟨fun hb => Bool.false_ne_true (hserved hb), v, rest, hp⟩, ht⟩)
    · exact .inr (.inr (.inr (.inr hs)))
  | none =>
    by_cases hb : s.status = .busy
    · rw [step_engine hb hn] at h
      rcases engineStep_status hb h with ⟨ht | ht, hkind, hcause, hinfo⟩ | ⟨ht, hc⟩
      · exact .inr (.inr (.inr (.inr ⟨ht.trans hb.symm, hkind, hcause, hinfo⟩)))
      · exact .inr (.inr (.inl ⟨hb, ht, hkind, hcause, hinfo⟩))
      · exact .inr (.inr (.inr (.inl ⟨hb, ht, hc⟩)))
    · obtain rfl : s = t := by simpa only [step, hn, hb, if_false, Host.Outcome.next.injEq] using h
      exact .inr (.inr (.inr (.inr ⟨rfl, rfl, rfl, rfl⟩)))

/-- Settles O12, by the cases of who moves; a step that changes nothing is one clause for each value of `STATUS`. -/
theorem statusTransitions : Obligations.StatusTransitions := by
  unfold Obligations.StatusTransitions
  intro s t h
  rcases step_status h with ⟨hr, ht, herr⟩ | ⟨⟨hb, hw⟩, ht, herr⟩ | ⟨hb, ht, herr⟩ | ⟨hb, ht, hc⟩ |
    ⟨hs, hkind, hcause, hinfo⟩
  · exact .inl ⟨ht, hr, herr⟩
  · exact .inr (.inr (.inr (.inl ⟨ht, hb, hw, herr⟩)))
  · exact .inr (.inr (.inr (.inr (.inl ⟨ht, .inl hb, herr⟩))))
  · exact .inr (.inr (.inr (.inr (.inr (.inr ⟨ht, hb, hc⟩)))))
  · cases hq : s.status with
    | idle => exact .inr (.inl ⟨hs.trans hq, rfl, hkind, hcause, hinfo⟩)
    | busy => exact .inr (.inr (.inl ⟨hs.trans hq, rfl, hkind, hcause, hinfo⟩))
    | done => exact .inr (.inr (.inr (.inr (.inl ⟨hs.trans hq, .inr rfl, hkind, hcause, hinfo⟩))))
    | error => exact .inr (.inr (.inr (.inr (.inr (.inl ⟨hs.trans hq, rfl, hkind, hcause, hinfo⟩)))))

/-! Faults. -/

/-- The outcome is no fault. -/
def NoFault (o : Host.Outcome State Fault Refusal) : Prop := ∀ r, o ≠ .fault r

theorem noFault_next : NoFault (.next t) := fun _ h => nomatch h

theorem noFault_refused {r : Refusal} : NoFault (.refused r) := fun _ h => nomatch h

theorem exec_noFault (i : Instr) (s : State) : NoFault (exec i s) := by
  cases i with
  | tblb =>
    change NoFault (tblbWith Config.block s)
    unfold tblbWith
    split
    · exact noFault_refused
    · exact noFault_next
  | bfold =>
    change NoFault (bfoldWith Config.block s)
    unfold bfoldWith
    split
    · exact noFault_refused
    · exact noFault_next
  | _ => exact noFault_next

theorem serveAccess_noFault (a : HostAccess) (rest : List HostAccess) (s : State) : NoFault (serveAccess a rest s) := by
  cases a with
  | writeFin i r =>
    simp only [serveAccess, hostAccess]
    split
    · exact noFault_refused
    · exact noFault_next
  | _ => exact noFault_next

/-- The one fault is a token pointer past the end of the stream (spec/10_state.md R30). -/
theorem engineStep_noFault (h : ∀ src next, s.run = .tokens src next → s.tp.toNat ≤ tokenLen s src) :
    NoFault (engineStep s) := by
  unfold engineStep
  split
  · unfold stepCommand
    split
    · exact exec_noFault _ _
    · exact noFault_next
  · rename_i src next hrun
    have htp : ¬s.tp.toNat > tokenLen s src := Nat.not_lt.mpr (h src next hrun)
    unfold stepTokens
    dsimp only
    rw [if_neg htp]
    split
    · exact noFault_next
    · split
      · exact exec_noFault _ _
      · exact noFault_next

/-- Settles O60: accesses and instructions never fault, and the invariant keeps `TP` inside the token buffer. -/
theorem noFaultFromInvariant : Obligations.NoFaultFromInvariant := by
  unfold Obligations.NoFaultFromInvariant
  intro s r hinv
  unfold step
  split
  · exact serveAccess_noFault _ _ _ r
  · split
    · exact engineStep_noFault hinv.tpInside r
    · exact noFault_next r

/-! Power-on. -/

/-- Settles O11: the fields of `State.reset`, and the engine waits with no access pending. -/
theorem powerOnValues : Obligations.PowerOnValues :=
  ⟨rfl, rfl, rfl, rfl, rfl, rfl, rfl, rfl, rfl, rfl, rfl, rfl, rfl, rfl, rfl, rfl,
    step_waits (by decide) rfl⟩

/-- Settles O58: the memories are empty, a drawn buffer is cut to its bound, and the engine is not at the token grain. -/
theorem invariantAtReset : Obligations.InvariantAtReset := by
  obtain ⟨hkey, hin, hfin, hht⟩ := wf_reset
  exact {
    keyCanonical := hkey
    inCanonical := hin
    finCanonical := hfin
    finBounded := fun e he => nomatch he
    htCanonical := hht
    outBounded := Nat.zero_le _
    tokBounded := List.length_take_le _ _
    entBounded := List.length_take_le _ _
    wrkBounded := List.length_take_le _ _
    tblBounded := List.length_take_le _ _
    litBufBounded := List.length_take_le _ _
    hlenRange := .inl rfl
    errorRegs := .inr ⟨by decide, rfl, rfl, rfl⟩
    foutCounted := Nat.zero_le _
    tokensBusy := .inl rfl
    tpInside := fun _ _ h => nomatch h
    entryInside := fun _ _ _ h => nomatch h }

end Sys2Proof.Machine
end

section
/-! The host's accesses to registers, windows and records (spec/10_state.md R38, R41; spec/20_memory.md R64, R68). -/

namespace Sys2Proof.Machine

variable {s t u : State} {rest : List HostAccess}

/-- Two steps of the machine, one after the other. -/
theorem run_two (h : step s = .next t) (h' : step t = .next u) : core.run 2 s = .next u := by
  have h : core.step s = .next t := h
  have h' : core.step t = .next u := h'
  simp only [Host.Core.run, h, h']

/-! Register numbers beyond the table's first fifteen. -/

theorem isKeyReg_iff {no : Nat} : isKeyReg no = true ↔ 256 ≤ no ∧ no ≤ 510 := by
  simp only [isKeyReg, decide_eq_true_eq, Config.keyRegs, Config.klenBytes]
  omega

theorem regValue_key {no : Nat} (h1 : 256 ≤ no) (h2 : no ≤ 510) :
    regValue s no = some ((readKey s (no - 256)).setWidth 32) := by
  rw [regValue_beyond s (by omega), if_pos (isKeyReg_iff.mpr ⟨h1, h2⟩)]

theorem regValue_unlisted {no : Nat} (h : (15 ≤ no ∧ no ≤ 255) ∨ 511 ≤ no) : regValue s no = none := by
  rw [regValue_beyond s (by omega), if_neg (by rw [isKeyReg_iff]; omega)]

theorem hostWriteReg_beyond (v : Word) {no : Nat} (h : 14 ≤ no) :
    hostWriteReg no v s =
      if isKeyReg no then { s with key := setEntry s.key (no - 256) (v.setWidth 8) } else s := by
  obtain ⟨n, rfl⟩ : ∃ n, no = n + 14 := ⟨no - 14, by omega⟩
  rfl

/-- A register the host may only read and an unlisted number ignore the write. -/
theorem hostWriteReg_ignored (v : Word) {no : Nat}
    (h : no ∈ [1, 2, 3, 4, 7, 10, 11, 12, 14] ∨ (15 ≤ no ∧ no ≤ 255) ∨ 511 ≤ no) : hostWriteReg no v s = s := by
  rcases h with h | h
  · simp only [List.mem_cons, List.not_mem_nil, or_false] at h
    rcases h with rfl | rfl | rfl | rfl | rfl | rfl | rfl | rfl | rfl <;> rfl
  · rw [hostWriteReg_beyond v (by omega), if_neg (by rw [isKeyReg_iff]; omega)]

/-- The registers the host writes as operands, with their widths (R38). -/
def OperandReg (no width : Nat) : Prop :=
  (no = 5 ∧ width = 8) ∨ (no = 6 ∧ width = 1) ∨ (no = 8 ∧ width = 32) ∨ (no = 9 ∧ width = 32) ∨
    (no = 13 ∧ width = 32) ∨ (256 ≤ no ∧ no ≤ 510 ∧ width = 8)

/-- A value cut to a narrower register and read as a word. -/
theorem toNat_setWidth_cut (v : Word) {width : Nat} (h : width ≤ 32) :
    ((v.setWidth width).setWidth 32).toNat = v.toNat % 2 ^ width := by
  simp only [BitVec.toNat_setWidth]
  exact Nat.mod_eq_of_lt ((Nat.mod_lt _ (Nat.two_pow_pos _)).trans_le (Nat.pow_le_pow_right (by omega) h))

/-- An operand register reads back as written, cut to its width. -/
theorem regValue_hostWriteReg_same {no width : Nat} (v : Word) (h : OperandReg no width) :
    ∃ x, regValue (hostWriteReg no v s) no = some x ∧ x.toNat = v.toNat % 2 ^ width := by
  have hv : v.toNat = v.toNat % 2 ^ 32 := (Nat.mod_eq_of_lt v.isLt).symm
  rcases h with ⟨rfl, rfl⟩ | ⟨rfl, rfl⟩ | ⟨rfl, rfl⟩ | ⟨rfl, rfl⟩ | ⟨rfl, rfl⟩ | ⟨h1, h2, rfl⟩
  · exact ⟨_, rfl, toNat_setWidth_cut v (by decide)⟩
  · exact ⟨_, rfl, toNat_setWidth_cut v (by decide)⟩
  · exact ⟨_, rfl, hv⟩
  · exact ⟨_, rfl, hv⟩
  · exact ⟨_, rfl, hv⟩
  · refine ⟨_, regValue_key h1 h2, ?_⟩
    rw [hostWriteReg_beyond v (by omega), if_pos (isKeyReg_iff.mpr ⟨h1, h2⟩)]
    simp only [readKey, getEntry_setEntry_same, Option.getD_some]
    exact toNat_setWidth_cut v (by decide)

/-- Among the first fifteen numbers a written operand register changes its own value alone. -/
theorem regValue_table_other {no other : Nat} (v : Word) (h : no ∈ [5, 6, 8, 9, 13]) (ho : other < 15) :
    other = no ∨ regValue (hostWriteReg no v s) other = regValue s other := by
  simp only [List.mem_cons, List.not_mem_nil, or_false] at h
  rcases h with rfl | rfl | rfl | rfl | rfl <;> interval_cases other <;> simp [regValue, hostWriteReg, outLen]

/-- Every other register reads as before. -/
theorem regValue_hostWriteReg_other {no width other : Nat} (v : Word) (h : OperandReg no width) (hne : other ≠ no) :
    regValue (hostWriteReg no v s) other = regValue s other := by
  by_cases hkey : 256 ≤ no ∧ no ≤ 510
  · rw [hostWriteReg_beyond v (by omega), if_pos (isKeyReg_iff.mpr hkey)]
    by_cases ho : 15 ≤ other
    · rw [regValue_beyond _ ho, regValue_beyond _ ho]
      split
      · rename_i hreg
        have hr := isKeyReg_iff.mp hreg
        simp only [readKey, getEntry_setEntry_other _ _ (show other - 256 ≠ no - 256 by omega)]
      · rfl
    · interval_cases other <;> rfl
  · have hno : no ∈ [5, 6, 8, 9, 13] := by
      simp only [List.mem_cons, List.not_mem_nil, or_false]
      unfold OperandReg at h
      omega
    by_cases ho : 15 ≤ other
    · have hk : (hostWriteReg no v s).key = s.key ∧ (hostWriteReg no v s).epoch = s.epoch := by
        simp only [List.mem_cons, List.not_mem_nil, or_false] at hno
        rcases hno with rfl | rfl | rfl | rfl | rfl <;> exact ⟨rfl, rfl⟩
      rw [regValue_beyond _ ho, regValue_beyond _ ho, readKey, readKey, hk.1, hk.2]
    · exact (regValue_table_other v hno (by omega)).resolve_left hne

/-! One step for each access. -/

theorem step_writeReg {no : Nat} {v : Word} (hb : s.status ≠ .busy) (hp : s.pending = .writeReg no v :: rest) :
    step s = .next (hostWriteReg no v { s with pending := rest }) := step_serves hb hp

theorem step_readReg {no : Nat} {v : Word} (hb : s.status ≠ .busy) (hp : s.pending = .readReg no :: rest)
    (hv : regValue s no = some v) : step s = .next { s with pending := rest, hostData := v } := by
  have hv : regValue { s with pending := rest } no = some v := hv
  rw [step_serves hb hp]
  exact congrArg Host.Outcome.next (hostReadReg_listed hv)

theorem step_readReg_unlisted {no : Nat} (hb : s.status ≠ .busy) (hp : s.pending = .readReg no :: rest)
    (hv : regValue s no = none) :
    step s =
      .next
        { s with
          pending := rest
          hostData := Config.unspecifiedWord .hostRead s.draws
          draws := s.draws + 1 } := by
  have hv : regValue { s with pending := rest } no = none := hv
  rw [step_serves hb hp]
  exact congrArg Host.Outcome.next (hostReadReg_unlisted hv)

theorem step_readIn {i : Word} (hb : s.status ≠ .busy) (hp : s.pending = .readIn i :: rest) :
    step s = .next { s with pending := rest, hostData := (readIn s i.toNat).setWidth 32 } := step_serves hb hp

theorem step_readOut {i : Word} (hb : s.status ≠ .busy) (hp : s.pending = .readOut i :: rest) :
    step s = .next { s with pending := rest, hostData := (readOut s i.toNat).setWidth 32 } := step_serves hb hp

/-- The values of the first fifteen registers (R38). -/
theorem regValue_table {no : Nat} {v code : Word} (hc : code = s.status.code.setWidth 32)
    (h : (no, v) ∈
      [(0, s.cmd.setWidth 32), (1, code), (2, s.errKind.setWidth 32), (3, s.errCause.setWidth 32), (4, s.errInfo),
       (5, s.klen.setWidth 32), (6, s.flag.setWidth 32), (7, s.flagRaw.setWidth 32), (8, s.expLen), (9, s.inLen),
       (10, BitVec.ofNat 32 s.out.length), (11, s.hlen.setWidth 32), (12, s.tokLen), (13, s.finCnt), (14, s.foutCnt)]) :
    regValue s no = some v := by
  simp only [List.mem_cons, List.not_mem_nil, or_false, Prod.mk.injEq] at h
  rcases h with ⟨rfl, rfl⟩ | ⟨rfl, rfl⟩ | ⟨rfl, rfl⟩ | ⟨rfl, rfl⟩ | ⟨rfl, rfl⟩ | ⟨rfl, rfl⟩ | ⟨rfl, rfl⟩ | ⟨rfl, rfl⟩ |
    ⟨rfl, rfl⟩ | ⟨rfl, rfl⟩ | ⟨rfl, rfl⟩ | ⟨rfl, rfl⟩ | ⟨rfl, rfl⟩ | ⟨rfl, rfl⟩ | ⟨rfl, rfl⟩
  case inr.inl => exact congrArg some hc.symm
  all_goals rfl

/-! The claims, one for each kind of access. -/

/-- A written operand register reads back; nothing else of the table, of the windows or of the records changes. -/
theorem writeReg_readReg {no width : Nat} {v : Word} (hb : s.status ≠ .busy)
    (hp : s.pending = .writeReg no v :: .readReg no :: rest) (h : OperandReg no width) :
    ∃ t, core.run 2 s = .next t ∧ t.hostData.toNat = v.toNat % 2 ^ width ∧ t.pending = rest ∧
      (∀ other, other ≠ no → regValue t other = regValue s other) ∧
      (∀ a, readIn t a = readIn s a) ∧ t.out = s.out ∧ t.fin = s.fin ∧ t.fout = s.fout ∧
      t =
        { s with
          klen := t.klen
          flag := t.flag
          expLen := t.expLen
          inLen := t.inLen
          finCnt := t.finCnt
          key := t.key
          hostData := t.hostData
          pending := rest } := by
  have hno : no ≠ 0 := by unfold OperandReg at h; omega
  obtain ⟨x, hx, hxv⟩ := regValue_hostWriteReg_same (s := { s with pending := .readReg no :: rest }) v h
  have hother := fun other (ho : other ≠ no) =>
    regValue_hostWriteReg_other (s := { s with pending := .readReg no :: rest }) v h ho
  have hstep := step_writeReg hb hp
  have hw : hostWriteReg no v { s with pending := .readReg no :: rest } = _ := hostWriteReg_writes hno
  generalize hostWriteReg no v { s with pending := .readReg no :: rest } = w at hx hother hstep hw
  have hread : step w = .next { w with pending := rest, hostData := x } :=
    step_readReg (by rw [hw]; exact hb) (by rw [hw]; rfl) hx
  refine ⟨_, run_two hstep hread, hxv, rfl, hother, ?_⟩
  rw [hw]
  exact ⟨fun _ => rfl, rfl, rfl, rfl, rfl⟩

theorem writeIn_readIn {i : Word} {b : Byte} (hb : s.status ≠ .busy)
    (hp : s.pending = .writeIn i b :: .readIn i :: rest) :
    ∃ t, core.run 2 s = .next t ∧ t.hostData = b.setWidth 32 ∧
      t = { s with inMem := t.inMem, hostData := t.hostData, pending := rest } ∧
      ∀ a, readIn t a = if a = i.toNat then b else readIn s a := by
  have hw : step s = .next { s with pending := .readIn i :: rest, inMem := setEntry s.inMem i.toNat b } :=
    step_serves hb hp
  refine ⟨_, run_two hw (step_readIn (by exact hb) rfl), ?_, rfl, fun a => ?_⟩
  · simp only [readIn, getEntry_setEntry_same, Option.getD_some]
  · change (getEntry (setEntry s.inMem i.toNat b) a).getD _ = _
    split
    · rename_i ha
      rw [ha, getEntry_setEntry_same, Option.getD_some]
    · rename_i ha
      rw [getEntry_setEntry_other _ _ ha]
      rfl

theorem readOut_twice {i : Word} (hb : s.status ≠ .busy) (hp : s.pending = .readOut i :: .readOut i :: rest) :
    ∃ t u, step s = .next t ∧ step t = .next u ∧ u.hostData = t.hostData ∧
      (∀ b, s.out[i.toNat]? = some b → t.hostData = b.setWidth 32) ∧
      u = { s with hostData := u.hostData, pending := rest } := by
  refine ⟨_, _, step_readOut hb hp, step_readOut (by exact hb) rfl, rfl, fun b h => ?_, rfl⟩
  simp only [readOut, h, Option.getD_some]

theorem writeFin_stores {i : Word} {r : FinRecord} (hb : s.status ≠ .busy) (hp : s.pending = .writeFin i r :: rest)
    (hpath : r.path.length ≤ Config.block.bufCap.toNat) (hdata : r.data.length ≤ Config.block.bufCap.toNat) :
    ∃ t, step s = .next t ∧ t = { s with fin := t.fin, pending := rest } ∧
      ∀ e, getEntry t.fin e = if e = i.toNat then some r else getEntry s.fin e := by
  have hfits : ¬(r.path.length > Config.block.bufCap.toNat ∨ r.data.length > Config.block.bufCap.toNat) := by omega
  refine ⟨{ s with pending := rest, fin := setEntry s.fin i.toNat r }, ?_, rfl, fun e => ?_⟩
  · rw [step_serves hb hp]
    exact if_neg hfits
  · split
    · rename_i he
      rw [he]
      exact getEntry_setEntry_same _ _ _
    · rename_i he
      exact getEntry_setEntry_other _ _ he

/-- Settles O9: one lemma for each kind of access. -/
theorem hostRegisterWrites : Obligations.HostRegisterWrites := by
  unfold Obligations.HostRegisterWrites
  refine ⟨fun s no v rest hb hp h => ?_, fun s no width v rest hb hp h => writeReg_readReg hb hp h,
    fun s no v rest hb hp h => ?_, fun s no rest hb hp h => ⟨_, step_readReg_unlisted hb hp (regValue_unlisted h)⟩,
    fun s i b rest hb hp => writeIn_readIn hb hp, fun s i rest hb hp => readOut_twice hb hp,
    fun s i b rest hb hp => step_serves hb hp,
    fun s i r rest hb hp hpath hdata => writeFin_stores hb hp hpath hdata⟩
  · rw [step_writeReg hb hp, hostWriteReg_ignored v h]
  · rcases h with h | ⟨h1, h2, rfl⟩
    · exact step_readReg hb hp (regValue_table (by cases s.status <;> rfl) h)
    · exact step_readReg hb hp (regValue_key h1 h2)

end Sys2Proof.Machine
end

section
/-! The invariant of the machine. Its clauses come in three groups, each kept for a reason of its own: the memories and
buffers stay bounded, one lemma for each part of a command; the error registers follow `STATUS`; the engine at the token
grain stays inside its token buffer and its table. -/

namespace Sys2Proof.Machine

variable {cfg : Config} {s t u : State}

/-- The clauses of `State.Inv` that hold also inside a command, wherever the engine stands: what the memories, tables,
buffers and result registers may hold. -/
structure State.Bounded (s : State) : Prop where
  keyCanonical : Memory.wf Config.keyRegs s.key = true
  inCanonical : Memory.wf (2 ^ 32) s.inMem = true
  finCanonical : canonical (2 ^ 32) s.fin = true
  finBounded : ∀ e ∈ s.fin, e.2.path.length ≤ 2 ^ 32 - 1 ∧ e.2.data.length ≤ 2 ^ 32 - 1
  htCanonical : canonical Config.htSlots s.ht.cells = true
  outBounded : s.out.length ≤ 2 ^ 32 - 1
  tokBounded : s.tok.length ≤ 2 ^ 32 - 1
  entBounded : s.ent.length ≤ 2 ^ 32 - 1
  wrkBounded : s.wrk.length ≤ 2 ^ 32 - 1
  tblBounded : s.tbl.length ≤ 2 ^ 32 - 1
  litBufBounded : s.litBuf.length ≤ 126
  hlenRange : s.hlen = 0 ∨ (6 ≤ s.hlen.toNat ∧ s.hlen.toNat ≤ 261)
  foutCounted : s.foutCnt.toNat ≤ s.fout.length

/-- The clauses of `State.Inv` about the engine at the token grain. -/
structure State.RunInside (s : State) : Prop where
  tokensBusy : s.run = .fetch ∨ s.status = .busy
  tpInside : ∀ src next, s.run = .tokens src next → s.tp.toNat ≤ tokenLen s src
  entryInside :
    ∀ src path blen, s.run = .tokens src (.entry path blen) →
      s.eidx.toNat < s.ecnt.toNat ∧ s.pp.toNat + blen ≤ s.tbl.length

theorem inv_bounded (h : s.Inv) : s.Bounded := { h with }

theorem inv_runInside (h : s.Inv) : s.RunInside := { h with }

/-! Bounds. -/

theorem bufCap_le (cfg : Config) : cfg.bufCap.toNat ≤ 2 ^ 32 - 1 := Nat.le_pred_of_lt cfg.bufCap.isLt

theorem inBytes_length_le (s : State) : (inBytes s).length ≤ 2 ^ 32 - 1 := by
  rw [inBytes_length]
  exact Nat.le_pred_of_lt s.inLen.isLt

theorem appendTo_bounded {info : Nat} {buf v o : List Byte} (h : appendTo cfg info buf v = .ok o) :
    o.length ≤ 2 ^ 32 - 1 :=
  (appendTo_ok h).2.trans (bufCap_le cfg)

/-- Writing one entry lists no other new entry. -/
theorem mem_setEntry {α : Type} {m : List (Nat × α)} {a : Nat} {v : α} {e : Nat × α} (h : e ∈ setEntry m a v) :
    e = (a, v) ∨ e ∈ m := by
  induction m with
  | nil => exact .inl (List.mem_singleton.mp h)
  | cons x rest ih =>
    obtain ⟨k, w⟩ := x
    unfold setEntry at h
    split at h
    · exact List.mem_cons.mp h
    · split at h
      · exact (List.mem_cons.mp h).imp_right (List.mem_cons_of_mem _)
      · rcases List.mem_cons.mp h with rfl | h
        · exact .inr List.mem_cons_self
        · exact (ih h).imp_right (List.mem_cons_of_mem _)

/-! The tokenizer (spec/40_match_codec.md R141 to R147). -/

/-- The tokenizer's table is canonical and its destination within the capacity. -/
structure Tokenizer.Bounded (t : Tokenizer) : Prop where
  htCanonical : canonical Config.htSlots t.ht.cells = true
  dstBounded : t.dst.length ≤ 2 ^ 32 - 1

theorem htSet_canonical {ht : HashTable} (src : List Byte) (i : Nat) (p : Word)
    (h : canonical Config.htSlots ht.cells = true) :
    canonical Config.htSlots (ht.set (hashAt cfg src i) p).cells = true :=
  canonical_setEntry p (cfg.hash3 _ _ _).isLt h

theorem enterSkipped_canonical {src : List Byte} {n j : Nat} {ht : HashTable}
    (h : canonical Config.htSlots ht.cells = true) :
    canonical Config.htSlots (enterSkipped cfg src n j ht).cells = true := by
  induction n generalizing j ht with
  | zero => exact h
  | succ n ih =>
    refine ih ?_
    split
    · exact htSet_canonical src j _ h
    · exact h

theorem searchMatch_canonical {src : List Byte} {t : Tokenizer} (h : canonical Config.htSlots t.ht.cells = true) :
    canonical Config.htSlots (searchMatch cfg src t).2.2.cells = true := by
  rw [searchMatch_eq]
  split
  · have hset := htSet_canonical (cfg := cfg) src t.ip (BitVec.ofNat 32 t.ip) h
    split
    · exact hset
    · split
      · exact hset
      · exact hset
  · exact h

theorem flushLits_bounded {t t' : Tokenizer} (ht : t.Bounded) (h : flushLits cfg t = .ok t') : t'.Bounded := by
  unfold flushLits at h
  split at h
  · cases h
    exact ht
  · split at h
    · cases h
    · rename_i happ
      cases h
      exact ⟨ht.htCanonical, appendTo_bounded happ⟩

theorem emitMatch_bounded {src : List Byte} {mlen moff : Nat} {t t' : Tokenizer} (ht : t.Bounded)
    (h : emitMatch cfg src mlen moff t = .ok t') : t'.Bounded := by
  unfold emitMatch at h
  split at h
  · cases h
  · rename_i hflush
    have hf := flushLits_bounded ht hflush
    split at h
    · cases h
    · rename_i happ
      cases h
      refine ⟨?_, appendTo_bounded happ⟩
      dsimp only
      split
      · exact enterSkipped_canonical hf.htCanonical
      · exact hf.htCanonical

theorem takeLiteral_bounded {src : List Byte} {t t' : Tokenizer} (ht : t.Bounded)
    (h : takeLiteral cfg src t = .ok t') : t'.Bounded := by
  unfold takeLiteral at h
  have ht' : Tokenizer.Bounded { t with litBuf := t.litBuf ++ [src.getD t.ip 0], ip := t.ip + 1 } := { ht with }
  dsimp only at h
  split at h
  · exact flushLits_bounded ht' h
  · cases h
    exact ht'

theorem tokenizerStep_bounded {src : List Byte} {t t' : Tokenizer} (ht : t.Bounded)
    (h : tokenizerStep cfg src t = .ok t') : t'.Bounded := by
  have hs : Tokenizer.Bounded { t with ht := (searchMatch cfg src t).2.2 } :=
    ⟨searchMatch_canonical ht.htCanonical, ht.dstBounded⟩
  unfold tokenizerStep at h
  dsimp only at h
  split at h
  · exact emitMatch_bounded hs h
  · exact takeLiteral_bounded hs h

theorem tokenizerRun_bounded {src : List Byte} {fuel : Nat} {t t' : Tokenizer} (ht : t.Bounded)
    (h : tokenizerRun cfg src fuel t = .ok t') : t'.Bounded := by
  induction fuel generalizing t with
  | zero =>
    cases h
    exact ht
  | succ fuel ih =>
    unfold tokenizerRun at h
    split at h
    · split at h
      · rename_i hstep
        exact ih (tokenizerStep_bounded ht hstep) h
      · cases h
    · cases h
      exact ht

theorem tokenize_bounded {src : List Byte} {t : Tokenizer} (h : tokenize cfg src = .ok t) : t.Bounded := by
  unfold tokenize at h
  split at h
  · rename_i hrun
    exact flushLits_bounded (tokenizerRun_bounded ⟨rfl, Nat.zero_le _⟩ hrun) h
  · cases h

theorem storeTokenizer_bounded {x : Tokenizer} {src : List Byte} (h : s.Bounded) (hx : tokenize cfg src = .ok x) :
    (storeTokenizer x s).Bounded :=
  { h with
    htCanonical := (tokenize_bounded hx).htCanonical
    litBufBounded := (congrArg List.length (tokenize_ok_litBuf hx)).trans_le (Nat.zero_le _) }

/-! How bodies are put together. -/

theorem bounded_andThen {b : Body} {f : State → Body} (h : b.state.Bounded)
    (hf : ∀ u : State, u.Bounded → (f u).state.Bounded) : (b.andThen f).state.Bounded := by
  cases b with
  | ok u => exact hf u h
  | raised r u => exact h

theorem bounded_bodyOf {α : Type} {x : Except Raise α} {store : α → State} (h : s.Bounded)
    (hx : ∀ a, x = .ok a → (store a).Bounded) : (bodyOf x s store).state.Bounded := by
  cases x with
  | ok a => exact hx a rfl
  | error r => exact h

/-- An abort draws each internal buffer afresh, cut to its bound (spec/60_exceptions.md R316). -/
theorem forget_bounded (h : s.Bounded) : (forget s).Bounded :=
  { h with
    htCanonical := rfl
    outBounded := Nat.zero_le _
    tokBounded := List.length_take_le _ _
    entBounded := List.length_take_le _ _
    wrkBounded := List.length_take_le _ _
    tblBounded := List.length_take_le _ _
    litBufBounded := List.length_take_le _ _ }

theorem leaves_bounded (h : u.Bounded) (hl : Leaves u t) : t.Bounded := by
  cases hl with
  | goesOn => exact h
  | ends => exact { h with }
  | aborts r => exact { forget_bounded h with }
  | abortsUnwritten r => exact { forget_bounded h with }

/-! The parts of a command. -/

theorem setOut_bounded {o : List Byte} (h : s.Bounded) (ho : o.length ≤ 2 ^ 32 - 1) :
    State.Bounded { s with out := o } := { h with outBounded := ho }

theorem startOut_bounded (h : s.Bounded) : (startOut s).Bounded := setOut_bounded h (Nat.zero_le _)

theorem startExtract_bounded (h : s.Bounded) : (startExtract s).Bounded :=
  { startOut_bounded h with foutCounted := Nat.zero_le _ }

theorem startTokens_bounded {src : TokenSource} {next : After} (h : s.Bounded) : (startTokens src next s).Bounded :=
  { startOut_bounded h with }

theorem appendOut_bounded {info : Nat} {v : List Byte} (h : s.Bounded) : (appendOut cfg info v s).state.Bounded :=
  bounded_bodyOf h fun _ ho => setOut_bounded h (appendTo_bounded ho)

theorem detokBody_bounded {x : Except Raise Detok} (h : s.Bounded)
    (hx : ∀ d, x = .ok d → d.out.length ≤ 2 ^ 32 - 1) : (detokBody s x).state.Bounded := by
  cases x with
  | ok d => exact { setOut_bounded h (hx d rfl) with }
  | error r => exact h

/-- Every token checks the capacity, so a run of them keeps the bound it started with. -/
theorem detokRun_bounded {T : List Byte} {fuel : Nat} {d d' : Detok} (hd : d.out.length ≤ 2 ^ 32 - 1)
    (h : detokRun cfg T fuel d = .ok d') : d'.out.length ≤ 2 ^ 32 - 1 := by
  induction fuel generalizing d with
  | zero =>
    cases h
    exact hd
  | succ fuel ih =>
    unfold detokRun at h
    split at h
    · split at h
      · rename_i hstep
        obtain ⟨-, -, -, hcap⟩ := detokStep_ok hstep
        exact ih (hcap.trans (bufCap_le cfg)) h
      · cases h
    · cases h
      exact hd

theorem detokenize_bounded (h : s.Bounded) : (detokenize cfg s).state.Bounded :=
  detokBody_bounded h fun _ hd => detokRun_bounded h.outBounded hd

theorem storePayload_bounded {p : Payload} {key src : List Byte} (h : s.Bounded)
    (hp : payloadCompress cfg key src = .ok p) : (storePayload p s).Bounded := by
  obtain ⟨-, htz, -, hent, -, hwrk⟩ := payloadCompress_ok hp
  have hcap := bufCap_le cfg
  exact
    { storeTokenizer_bounded h htz with
      tokBounded := (tokenize_bounded htz).dstBounded
      entBounded := show p.ent.length ≤ _ by omega
      wrkBounded := show p.wrk.length ≤ _ by omega }

theorem compressBody_bounded {key src : List Byte} (h : s.Bounded) :
    (bodyOf (payloadCompress cfg key src) s fun p => storePayload p s).state.Bounded :=
  bounded_bodyOf h fun _ hp => storePayload_bounded h hp

theorem storeUnpacked_bounded {w : Unpacked} {key payload : List Byte} (h : s.Bounded)
    (hp : payload.length ≤ 2 ^ 32 - 1) (hw : payloadUnpack cfg key payload = .ok w) : (storeUnpacked w s).Bounded := by
  obtain ⟨-, -, hwrk, -, hlen, -, htok⟩ := payloadUnpack_ok hw
  exact
    { h with
      tokBounded := (htok.trans_le hlen).trans (bufCap_le cfg)
      wrkBounded := show w.wrk.length ≤ _ by rwa [hwrk, keystream_length] }

theorem payloadDecompress_bounded {payload : List Byte} (h : s.Bounded) (hp : payload.length ≤ 2 ^ 32 - 1) :
    (payloadDecompress cfg payload s).state.Bounded :=
  bounded_andThen (bounded_bodyOf h fun _ hw => startTokens_bounded (storeUnpacked_bounded h hp hw))
    fun _ => detokenize_bounded

/-! The header (spec/43_header_framer.md R200, R206). -/

/-- A header has 6 bytes and its key, whose length is a byte (spec/10_state.md R36). -/
theorem hlen_range (k : Byte) :
    6 ≤ (BitVec.ofNat 9 (6 + k.toNat)).toNat ∧ (BitVec.ofNat 9 (6 + k.toNat)).toNat ≤ 261 := by
  have := k.isLt
  rw [BitVec.toNat_ofNat]
  omega

theorem setKey_bounded {k : List Byte} (h : s.Bounded) (hk : k.length ≤ 255) : (setKey k s).Bounded :=
  { h with keyCanonical := wf_setKey hk h.keyCanonical }

theorem storeHeader_bounded {x : Header} {src : List Byte} (h : s.Bounded) (hx : readHeader cfg src = .ok x) :
    (storeHeader cfg x s).Bounded := by
  obtain ⟨-, -, hfields, hkey⟩ := readHeader_ok hx
  have hk : x.key.length ≤ 255 := hkey.trans_le (Nat.le_pred_of_lt (src.getD 4 0).isLt)
  have hlen : x.hlen = 6 + (src.getD 4 0).toNat := congrArg Header.hlen hfields
  have hrange := hlen_range (src.getD 4 0)
  rw [← hlen] at hrange
  exact { setKey_bounded h hk with hlenRange := .inr hrange }

theorem loadHeader_bounded (h : s.Bounded) : (loadHeader cfg s).state.Bounded :=
  bounded_bodyOf h fun _ hx => storeHeader_bounded h hx

theorem writeHeader_bounded {flag : Byte} (h : s.Bounded) : (writeHeader cfg flag s).state.Bounded :=
  bounded_andThen (appendOut_bounded h) fun u hu => { hu with hlenRange := .inr (hlen_range u.klen) }

theorem archiveBody_bounded {flag : Byte} {payload : List Byte} (h : s.Bounded) :
    (archiveBody cfg flag payload s).state.Bounded := by
  unfold archiveBody
  split
  · exact h
  · exact bounded_andThen (writeHeader_bounded h) fun _ => appendOut_bounded

theorem chooseKey_bounded (h : s.Bounded) (v : State) : (chooseKey cfg (keyBytes v) s).Bounded := by
  unfold chooseKey
  split
  · exact h
  · exact setKey_bounded h ((keyBytes_length v).trans_le (Nat.le_pred_of_lt v.klen.isLt))

/-! The folder table (spec/45_folder_payload.md R241, R251 to R258). -/

/-- The table so far fits, and what the last entry's compression left may be stored in any state. -/
structure Built.Bounded (b : Built) : Prop where
  tblBounded : b.tbl.length ≤ 2 ^ 32 - 1
  lastStored : ∀ p, b.last = some p → ∀ s : State, s.Bounded → (storePayload p s).Bounded

theorem buildEntry_bounded {key tbl : List Byte} {rec : FinRecord} {b : Built}
    (h : buildEntry cfg key rec tbl = .ok b) : b.Bounded := by
  obtain ⟨p, hp, hlast, -, -, hcap⟩ := buildEntry_ok h
  refine ⟨hcap.trans (bufCap_le cfg), fun q hq s hs => ?_⟩
  obtain rfl : p = q := Option.some.inj (hlast.symm.trans hq)
  exact storePayload_bounded hs hp

theorem buildLoop_bounded {key : List Byte} {e : Nat} {recs : List FinRecord} {b b' : Built} (hb : b.Bounded)
    (h : buildLoop cfg key e recs b = .ok b') : b'.Bounded := by
  induction recs generalizing e b with
  | nil =>
    cases h
    exact hb
  | cons rec rest ih =>
    unfold buildLoop at h
    cases hentry : buildEntry cfg key rec b.tbl with
    | error r =>
      rw [hentry] at h
      cases h
    | ok b₁ =>
      rw [hentry] at h
      exact ih (buildEntry_bounded hentry) h

theorem tableBuild_bounded {key : List Byte} {recs : List FinRecord} {b : Built}
    (h : tableBuild cfg key recs = .ok b) : b.Bounded := by
  unfold tableBuild at h
  split at h
  · cases h
  · split at h
    · cases h
    · split at h
      · cases h
      · rename_i hloop
        cases h
        have hstart : Built.Bounded { tbl := toc32 cfg recs.length, last := none } :=
          ⟨by simp, fun _ hp => nomatch hp⟩
        have hb := buildLoop_bounded hstart hloop
        exact ⟨(keystream_length _ _).trans_le hb.tblBounded, hb.lastStored⟩

theorem storeBuilt_bounded {n : Nat} {b : Built} (h : s.Bounded) (hb : b.Bounded) : (storeBuilt n b s).Bounded := by
  obtain ⟨tbl, last⟩ := b
  cases last with
  | none => exact { h with tblBounded := hb.tblBounded }
  | some p => exact { hb.lastStored p rfl s h with tblBounded := hb.tblBounded }

theorem buildBody_bounded {recs : List FinRecord} (h : s.Bounded) : (buildBody cfg recs s).state.Bounded :=
  bounded_bodyOf h fun _ hb => storeBuilt_bounded h (tableBuild_bounded hb)

/-- The block of an entry lies inside the table, so what unpacking leaves of it fits. -/
theorem entryStart_bounded (h : s.Bounded) : (entryStart cfg s).state.Bounded := by
  unfold entryStart
  split
  · exact h
  · rename_i e hparse
    have hblock : e.block.length ≤ 2 ^ 32 - 1 := by
      have := (parseEntry_ok hparse).2
      have := h.tblBounded
      omega
    refine bounded_bodyOf h fun w hw => startTokens_bounded ?_
    cases hunpack : payloadUnpack cfg (keyBytes s) e.block with
    | error r =>
      rw [hunpack] at hw
      cases hw
    | ok w' =>
      rw [hunpack] at hw
      cases hw
      exact storeUnpacked_bounded { h with } hblock hunpack

/-- A record emitted is counted once; the count falls to 0 when it wraps. -/
theorem entryFinish_bounded {path : List Byte} {blen : Nat} (h : s.Bounded) :
    (entryFinish cfg path blen s).state.Bounded := by
  unfold entryFinish
  dsimp only
  split
  · refine { h with foutCounted := ?_ }
    have hcount := h.foutCounted
    change (s.foutCnt + 1).toNat ≤ (s.fout ++ [_]).length
    rw [List.length_append, List.length_singleton, BitVec.toNat_add]
    exact (Nat.mod_le _ _).trans (Nat.add_le_add_right hcount 1)
  · exact { h with }

theorem afterTokens_bounded (h : s.Bounded) : (afterTokens cfg s).state.Bounded := by
  unfold afterTokens
  split
  · exact entryFinish_bounded h
  · exact h
  · exact h

theorem entryBody_bounded (h : s.Bounded) : (entryBody cfg s).state.Bounded :=
  bounded_andThen (bounded_andThen (entryStart_bounded h) fun _ => detokenize_bounded) fun _ => afterTokens_bounded

theorem extractLoop_bounded (n : Nat) (h : s.Bounded) : (extractLoop cfg n s).state.Bounded := by
  induction n generalizing s with
  | zero => exact h
  | succ n ih => exact bounded_andThen (entryBody_bounded h) fun _ => ih

theorem tableExtract_bounded {payload : List Byte} (h : s.Bounded) (hp : payload.length ≤ 2 ^ 32 - 1) :
    (tableExtract cfg payload s).state.Bounded := by
  have htbl : (keystream (keyBytes s) payload).length ≤ 2 ^ 32 - 1 := by rwa [keystream_length]
  unfold tableExtract
  dsimp only
  split
  · exact h
  · split
    · exact { h with tblBounded := htbl }
    · exact extractLoop_bounded _ { h with tblBounded := htbl }

theorem endExtract_bounded (h : s.Bounded) : (endExtract s).state.Bounded := startOut_bounded h

theorem resumeExtract_bounded (h : s.Bounded) : (resumeExtract cfg s).state.Bounded :=
  bounded_andThen (bounded_andThen (afterTokens_bounded h) fun _ => extractLoop_bounded _) fun _ => endExtract_bounded

/-! The instructions. -/

/-- A next state, if the outcome is one, is bounded. -/
def BoundedNext (o : Host.Outcome State Fault Refusal) : Prop := ∀ t, o = .next t → t.Bounded

theorem boundedNext_next (h : t.Bounded) : BoundedNext (.next t) := by
  rintro _ ⟨⟩
  exact h

theorem boundedNext_refused {r : Refusal} : BoundedNext (.refused r) := fun _ h => nomatch h

theorem boundedNext_settle {b : Body} (h : b.state.Bounded) : BoundedNext (.next b.settle) :=
  boundedNext_next (leaves_bounded h (settle_leaves b))

theorem boundedNext_resume {b : Body} (h : b.state.Bounded) : BoundedNext (.next b.resume) :=
  boundedNext_next (leaves_bounded h (resume_leaves b))

theorem litWith_boundedNext {raw : List Byte} (h : s.Bounded) : BoundedNext (litWith cfg raw s) :=
  boundedNext_resume <| detokBody_bounded h fun _ hd => by
    obtain ⟨-, hcap, rfl⟩ := litToken_ok hd
    exact (List.length_append.trans_le hcap).trans (bufCap_le cfg)

theorem matchWith_boundedNext {lm3 : BitVec 7} {off : BitVec 16} (h : s.Bounded) :
    BoundedNext (matchWith cfg lm3 off s) :=
  boundedNext_resume <| detokBody_bounded h fun _ hd => by
    obtain ⟨-, -, -, hcap, rfl⟩ := matchToken_ok hd
    exact ((copyBytes_length _ _ _).trans_le hcap).trans (bufCap_le cfg)

theorem mencWith_boundedNext (h : s.Bounded) : BoundedNext (mencWith cfg s) :=
  boundedNext_settle <| bounded_bodyOf (startOut_bounded h) fun _ hx =>
    storeTokenizer_bounded (setOut_bounded (startOut_bounded h) (tokenize_bounded hx).dstBounded) hx

theorem mdecWith_boundedNext (h : s.Bounded) : BoundedNext (mdecWith cfg s) :=
  boundedNext_settle (detokenize_bounded (startTokens_bounded h))

theorem eencWith_boundedNext (h : s.Bounded) : BoundedNext (eencWith cfg s) := by
  refine boundedNext_settle ?_
  split
  · exact startOut_bounded h
  · exact appendOut_bounded (startOut_bounded h)

theorem edecWith_boundedNext (h : s.Bounded) : BoundedNext (edecWith cfg s) := by
  refine boundedNext_settle ?_
  split
  · exact startOut_bounded h
  · exact appendOut_bounded (startOut_bounded h)

theorem ksxWith_boundedNext (h : s.Bounded) : BoundedNext (ksxWith cfg s) := by
  refine boundedNext_settle ?_
  split
  · exact startOut_bounded h
  · exact setOut_bounded (startOut_bounded h) ((keystream_length _ _).trans_le (inBytes_length_le _))

theorem hdrrWith_boundedNext (h : s.Bounded) : BoundedNext (hdrrWith cfg s) := by
  unfold hdrrWith
  split
  · exact boundedNext_next (leaves_bounded (startOut_bounded h) (.abortsUnwritten _))
  · rename_i hread
    exact boundedNext_settle (appendOut_bounded (storeHeader_bounded (startOut_bounded h) hread))

theorem fpcWith_boundedNext (h : s.Bounded) : BoundedNext (fpcWith cfg s) :=
  boundedNext_settle <| bounded_andThen (compressBody_bounded (startOut_bounded h)) fun _ => appendOut_bounded

theorem cfileWith_boundedNext (h : s.Bounded) : BoundedNext (cfileWith cfg s) :=
  boundedNext_settle <| bounded_andThen (compressBody_bounded (startOut_bounded h)) fun _ => archiveBody_bounded

theorem fpdWith_boundedNext (h : s.Bounded) : BoundedNext (fpdWith cfg s) :=
  boundedNext_settle (payloadDecompress_bounded (startOut_bounded h) (inBytes_length_le s))

theorem dfileWith_boundedNext (h : s.Bounded) : BoundedNext (dfileWith cfg s) := by
  refine boundedNext_settle <| bounded_andThen (loadHeader_bounded (startOut_bounded h)) fun u hu => ?_
  split
  · exact hu
  · exact payloadDecompress_bounded (chooseKey_bounded hu s)
      ((List.drop_sublist _ _).length_le.trans (inBytes_length_le _))

theorem tblbWith_boundedNext (h : s.Bounded) : BoundedNext (tblbWith cfg s) := by
  unfold tblbWith
  split
  · exact boundedNext_refused
  · exact boundedNext_settle <| bounded_andThen (buildBody_bounded (startOut_bounded h)) fun _ => appendOut_bounded

theorem bfoldWith_boundedNext (h : s.Bounded) : BoundedNext (bfoldWith cfg s) := by
  unfold bfoldWith
  split
  · exact boundedNext_refused
  · exact boundedNext_settle <| bounded_andThen (buildBody_bounded (startOut_bounded h)) fun _ => archiveBody_bounded

theorem tblxWith_boundedNext (h : s.Bounded) : BoundedNext (tblxWith cfg s) :=
  boundedNext_settle <| bounded_andThen (tableExtract_bounded (startExtract_bounded h) (inBytes_length_le s))
    fun _ => endExtract_bounded

theorem xfoldWith_boundedNext (h : s.Bounded) : BoundedNext (xfoldWith cfg s) := by
  refine boundedNext_settle <| bounded_andThen
    (bounded_andThen (loadHeader_bounded (startExtract_bounded h)) fun u hu => ?_) fun _ => endExtract_bounded
  split
  · exact hu
  · exact tableExtract_bounded hu ((List.drop_sublist _ _).length_le.trans (inBytes_length_le _))

theorem exec_bounded (i : Instr) (h : s.Bounded) : BoundedNext (exec i s) := by
  cases i with
  | lit raw => exact litWith_boundedNext h
  | matchRef lm3 off => exact matchWith_boundedNext h
  | menc => exact mencWith_boundedNext h
  | mdec => exact mdecWith_boundedNext h
  | eenc => exact eencWith_boundedNext h
  | edec => exact edecWith_boundedNext h
  | ksx => exact ksxWith_boundedNext (cfg := Config.block) h
  | hdrw => exact boundedNext_settle (writeHeader_bounded (startOut_bounded h))
  | hdrr => exact hdrrWith_boundedNext h
  | fpc => exact fpcWith_boundedNext h
  | fpd => exact fpdWith_boundedNext h
  | tblb => exact tblbWith_boundedNext h
  | tblx => exact tblxWith_boundedNext h
  | cfile => exact cfileWith_boundedNext h
  | dfile => exact dfileWith_boundedNext h
  | bfold => exact bfoldWith_boundedNext h
  | xfold => exact xfoldWith_boundedNext h
  | rhdr => exact boundedNext_settle (loadHeader_bounded (startOut_bounded h))

/-! The step keeps the bounds. -/

theorem haltTokens_bounded {next : After} (h : s.Bounded) : (haltTokens next s).Bounded := by
  cases next with
  | command => exact { h with }
  | entry path blen => exact leaves_bounded (resumeExtract_bounded h) (settle_leaves _)

theorem stepTokens_bounded {src : TokenSource} {next : After} (h : s.Bounded) :
    BoundedNext (stepTokens src next s) := by
  unfold stepTokens
  dsimp only
  split
  · exact boundedNext_next (haltTokens_bounded h)
  · split
    · exact fun _ ht => nomatch ht
    · split
      · exact exec_bounded _ h
      · exact boundedNext_resume h

theorem engineStep_bounded (h : s.Bounded) : BoundedNext (engineStep s) := by
  unfold engineStep
  split
  · unfold stepCommand
    split
    · exact exec_bounded _ h
    · exact boundedNext_next { startOut_bounded h with }
  · exact stepTokens_bounded h

theorem hostWriteReg_bounded {no : Nat} {v : Word} (h : s.Bounded) : (hostWriteReg no v s).Bounded := by
  by_cases hno : no = 0
  · subst hno
    exact { h with }
  · have hkey := wf_hostWriteReg no v h.keyCanonical
    rw [(hostWriteReg_writes hno : hostWriteReg no v s = _)]
    exact { h with keyCanonical := hkey }

theorem hostReadReg_bounded {no : Nat} (h : s.Bounded) : (hostReadReg no s).Bounded := by
  unfold hostReadReg
  split
  · exact { h with }
  · exact { h with }

/-- A reset bounds every place, whatever it held (spec/10_state.md R46). -/
theorem resetTo_bounded (rest : List HostAccess) (s : State) : (resetTo rest s).Bounded where
  keyCanonical := rfl
  inCanonical := rfl
  finCanonical := rfl
  finBounded := fun _ he => nomatch he
  htCanonical := rfl
  outBounded := Nat.zero_le _
  tokBounded := List.length_take_le _ _
  entBounded := List.length_take_le _ _
  wrkBounded := List.length_take_le _ _
  tblBounded := List.length_take_le _ _
  litBufBounded := List.length_take_le _ _
  hlenRange := .inl rfl
  foutCounted := Nat.zero_le _

/-- A record longer than the capacity is not supplied (R41). -/
theorem writeFin_boundedNext {i : Word} {r : FinRecord} (h : s.Bounded) :
    BoundedNext (hostAccess (.writeFin i r) s) := by
  unfold hostAccess
  dsimp only
  split
  · exact boundedNext_refused
  · rename_i hfits
    have hcap := bufCap_le Config.block
    refine boundedNext_next
      { h with
        finCanonical := canonical_setEntry r i.isLt h.finCanonical
        finBounded := fun e he => ?_ }
    rcases mem_setEntry he with rfl | he
    · dsimp only
      omega
    · exact h.finBounded e he

theorem serveAccess_bounded {a : HostAccess} {rest : List HostAccess} (h : s.Bounded) :
    BoundedNext (serveAccess a rest s) := by
  have hrest : State.Bounded { s with pending := rest } := { h with }
  cases a with
  | writeReg no v => exact boundedNext_next (hostWriteReg_bounded hrest)
  | readReg no => exact boundedNext_next (hostReadReg_bounded hrest)
  | writeIn i b => exact boundedNext_next { h with inCanonical := canonical_setEntry b i.isLt h.inCanonical }
  | readIn i => exact boundedNext_next { h with }
  | writeOut i b => exact boundedNext_next hrest
  | readOut i => exact boundedNext_next { h with }
  | writeFin i r => exact writeFin_boundedNext hrest
  | reset => exact boundedNext_next (resetTo_bounded _ _)
  | resetDuring k => exact boundedNext_next (resetTo_bounded _ _)

theorem step_bounded (h : s.Bounded) : BoundedNext (step s) := by
  unfold step
  split
  · exact serveAccess_bounded h
  · split
    · exact engineStep_bounded h
    · exact boundedNext_next h

/-! The error registers (spec/10_state.md R39). -/

/-- They hold a kind and a cause that belong together after an error, and are clear otherwise. -/
def ErrorRegsFit (s : State) : Prop :=
  (s.status = .error ∧ ∃ c : Cause, s.errKind = c.kind.code ∧ s.errCause = c.code) ∨
    (s.status ≠ .error ∧ s.errKind = 0 ∧ s.errCause = 0 ∧ s.errInfo = 0)

theorem errorRegsFit_sameStatus (h : ErrorRegsFit s) (ht : SameStatus s t) : ErrorRegsFit t := by
  obtain ⟨hstatus, hkind, hcause, hinfo⟩ := ht
  unfold ErrorRegsFit
  rwa [hstatus, hkind, hcause, hinfo]

/-- A busy block has no error pending. -/
theorem errorRegsFit_busy (h : ErrorRegsFit s) (hb : s.status = .busy) :
    s.errKind = 0 ∧ s.errCause = 0 ∧ s.errInfo = 0 := by
  rcases h with ⟨herr, -⟩ | ⟨-, hclear⟩
  · rw [hb] at herr
    cases herr
  · exact hclear

theorem step_errorRegsFit (h : ErrorRegsFit s) (ht : step s = .next t) : ErrorRegsFit t := by
  rcases step_status ht with ⟨-, hs, hclear⟩ | ⟨-, hs, hclear⟩ | ⟨hb, hs, hkind, hcause, hinfo⟩ | ⟨-, hs, hc⟩ | hsame
  · exact .inr ⟨by rw [hs]; decide, hclear⟩
  · exact .inr ⟨by rw [hs]; decide, hclear⟩
  · obtain ⟨hkind₀, hcause₀, hinfo₀⟩ := errorRegsFit_busy h hb
    exact .inr ⟨by rw [hs]; decide, hkind.trans hkind₀, hcause.trans hcause₀, hinfo.trans hinfo₀⟩
  · exact .inl ⟨hs, hc⟩
  · exact errorRegsFit_sameStatus h hsame

/-! The engine's place (spec/10_state.md R30, R31). -/

theorem runInside_of_fetch (h : s.run = .fetch) : s.RunInside where
  tokensBusy := .inl h
  tpInside := fun _ _ hr => by rw [h] at hr; cases hr
  entryInside := fun _ _ _ hr => by rw [h] at hr; cases hr

theorem settle_run (b : Body) : b.settle.run = .fetch := by
  cases b <;> rfl

/-- A command is over in one step: the engine stands at the next command. -/
theorem exec_command_run {i : Instr} (hi : i.space = .command) (h : exec i s = .next t) : t.run = .fetch := by
  cases i with
  | lit raw => cases hi
  | matchRef lm3 off => cases hi
  | hdrr =>
    change hdrrWith Config.block s = .next t at h
    unfold hdrrWith at h
    split at h
    · cases h
      rfl
    · cases h
      exact settle_run _
  | tblb =>
    change tblbWith Config.block s = .next t at h
    unfold tblbWith at h
    split at h
    · cases h
    · cases h
      exact settle_run _
  | bfold =>
    change bfoldWith Config.block s = .next t at h
    unfold bfoldWith at h
    split at h
    · cases h
    · cases h
      exact settle_run _
  | _ =>
    cases h
    exact settle_run _

/-- A token that does not pass the end of the buffer leaves the engine inside it; an error ends the command. -/
theorem resume_runInside {x : Except Raise Detok} (h : s.RunInside)
    (hx : ∀ d, x = .ok d → d.tp ≤ tokenLen s (runSource s)) : (detokBody s x).resume.RunInside := by
  cases x with
  | error r => exact runInside_of_fetch rfl
  | ok d =>
    refine { h with tpInside := fun src next hr => ?_ }
    have hr : s.run = .tokens src next := hr
    have hle : d.tp ≤ tokenLen s src := by
      have := hx d rfl
      rwa [runSource, hr] at this
    have hlen : tokenLen (storeDetok s d) src = tokenLen s src := by cases src <;> rfl
    exact ((Nat.mod_le _ _).trans hle).trans_eq hlen.symm

/-- A decoded token is a `LIT` or a `MATCH`, each of which checks the bytes left (spec/40_match_codec.md R133, R134). -/
theorem exec_token_runInside {i : Instr} (hi : i.space = .token) (h : s.RunInside) (ht : exec i s = .next t) :
    t.RunInside := by
  cases i with
  | lit raw =>
    cases ht
    refine resume_runInside h fun d hd => ?_
    obtain ⟨htp, -, rfl⟩ := litToken_ok hd
    exact htp
  | matchRef lm3 off =>
    cases ht
    refine resume_runInside h fun d hd => ?_
    obtain ⟨htp, -, -, -, rfl⟩ := matchToken_ok hd
    exact htp
  | _ => cases hi

theorem haltTokens_run (next : After) (s : State) : (haltTokens next s).run = .fetch := by
  cases next with
  | command => rfl
  | entry path blen => exact settle_run _

theorem engineStep_runInside (h : s.RunInside) (ht : engineStep s = .next t) : t.RunInside := by
  unfold engineStep at ht
  split at ht
  · unfold stepCommand at ht
    split at ht
    · rename_i hdecode
      exact runInside_of_fetch (exec_command_run (decodeCommand_space hdecode) ht)
    · cases ht
      exact runInside_of_fetch rfl
  · unfold stepTokens at ht
    dsimp only at ht
    split at ht
    · cases ht
      exact runInside_of_fetch (haltTokens_run _ _)
    · split at ht
      · cases ht
      · split at ht
        · rename_i hdecode
          exact exec_token_runInside (decodeToken_space hdecode).1 h ht
        · cases ht
          exact runInside_of_fetch rfl

/-- No access moves the engine but to a command's start; a busy one is read or reset. -/
theorem serveAccess_run {a : HostAccess} {rest : List HostAccess} (h : serveAccess a rest s = .next t) :
    t.run = .fetch ∨ t.run = s.run := by
  cases a with
  | writeReg no v =>
    cases h
    by_cases hno : no = 0
    · subst hno
      exact .inl rfl
    · rw [(hostWriteReg_writes hno : hostWriteReg no v { s with pending := rest } = _)]
      exact .inr rfl
  | readReg no =>
    cases h
    unfold hostReadReg
    right
    split <;> rfl
  | writeFin i r =>
    simp only [serveAccess, hostAccess] at h
    split at h
    · cases h
    · cases h
      exact .inr rfl
  | writeIn i b => cases h; exact .inr rfl
  | readIn i => cases h; exact .inr rfl
  | writeOut i b => cases h; exact .inr rfl
  | readOut i => cases h; exact .inr rfl
  | reset => cases h; exact .inl rfl
  | resetDuring k => cases h; exact .inl rfl

theorem serveAccess_runInside {a : HostAccess} {rest : List HostAccess} (h : s.RunInside)
    (ha : s.status = .busy → servedWhileBusy a = true) (ht : serveAccess a rest s = .next t) : t.RunInside := by
  by_cases hb : s.status = .busy
  · rcases servedWhileBusy_cases (ha hb) with rfl | rfl | ⟨k, rfl⟩
    · cases ht
      exact runInside_of_fetch rfl
    · cases ht
      refine { h with tpInside := fun src next hr => ?_ }
      exact (h.tpInside src next hr).trans_eq (by cases src <;> rfl)
    · cases ht
      exact runInside_of_fetch rfl
  · have hs : s.run = .fetch := h.tokensBusy.resolve_right hb
    rcases serveAccess_run ht with hr | hr
    · exact runInside_of_fetch hr
    · exact runInside_of_fetch (hr.trans hs)

theorem step_runInside (h : s.RunInside) (ht : step s = .next t) : t.RunInside := by
  unfold step at ht
  split at ht
  · rename_i hn
    exact serveAccess_runInside h (nextAccess_some hn).2 ht
  · split at ht
    · exact engineStep_runInside h ht
    · cases ht
      exact h

/-- Settles O59: a step keeps each of the three groups of clauses. -/
theorem invariantKept : Obligations.InvariantKept := by
  unfold Obligations.InvariantKept
  intro s t hinv ht
  exact
    { step_bounded (inv_bounded hinv) t ht, step_runInside (inv_runInside hinv) ht with
      errorRegs := step_errorRegsFit hinv.errorRegs ht }

end Sys2Proof.Machine
end

section
/-! The encodings of the two spaces (spec/30_encoding.md R90 to R96, R110 to R112): decoder and encoder against each other, and
the step that executes what it fetches. -/

namespace Sys2Proof

/-! Bytes of a `MATCH` (R92, R94). -/

theorem toNat_append_eq_add {m n : Nat} (a : BitVec m) (b : BitVec n) : (a ++ b).toNat = 2 ^ n * a.toNat + b.toNat := by
  rw [BitVec.toNat_append, ← Nat.shiftLeft_add_eq_or_of_lt b.isLt, Nat.shiftLeft_eq, Nat.mul_comm]

theorem toNat_low7 {c : Byte} (h : 128 ≤ c.toNat) : (c.extractLsb' 0 7).toNat = c.toNat - 128 := by
  have := c.isLt
  simp only [BitVec.extractLsb'_toNat, Nat.shiftRight_zero]
  omega

/-- A match's command byte is the flag bit and its low seven bits. -/
theorem flag_append_low7 {c : Byte} (h : 128 ≤ c.toNat) : 1#1 ++ c.extractLsb' 0 7 = c := by
  apply BitVec.eq_of_toNat_eq
  rw [toNat_append_eq_add, toNat_low7 h]
  simp only [BitVec.toNat_ofNat]
  omega

theorem encode_matchRef_bytes {c : Byte} (hi lo : Byte) (h : 128 ≤ c.toNat) :
    encode (.matchRef (c.extractLsb' 0 7) (hi ++ lo)) = [c, hi, lo] := by
  rw [encode_matchRef, flag_append_low7 h, BitVec.extractLsb'_append_eq_left, BitVec.extractLsb'_append_eq_right]

theorem offset_bytes_append (off : BitVec 16) : off.extractLsb' 8 8 ++ off.extractLsb' 0 8 = off :=
  (BitVec.extractLsb'_append_extractLsb'_eq_extractLsb' rfl).trans BitVec.extractLsb'_eq_self

/-! The token space. -/

theorem decodeToken_encode_lit {raw : List Byte} (rest : List Byte) (h : raw.length ≤ 127) :
    decodeToken (encode (.lit raw) ++ rest) = .ok (.lit raw, rest) := by
  have hc : (BitVec.ofNat 8 raw.length).toNat = raw.length := by
    rw [BitVec.toNat_ofNat]
    omega
  rw [encode, List.cons_append, decodeToken_lit (by omega) (by simp [hc]), hc, List.take_left, List.drop_left]

theorem decodeToken_encode_matchRef (lm3 : BitVec 7) (off : BitVec 16) (rest : List Byte) :
    decodeToken (encode (.matchRef lm3 off) ++ rest) = .ok (.matchRef lm3 off, rest) := by
  have hc : 128 ≤ (1#1 ++ lm3).toNat := by
    rw [toNat_append_eq_add]
    exact Nat.le_add_right 128 _
  have hd := decodeToken_match (off.extractLsb' 8 8) (off.extractLsb' 0 8) rest hc
  rwa [BitVec.extractLsb'_append_eq_right, offset_bytes_append] at hd

theorem decodeToken_encode {i : Instr} (rest : List Byte) (hs : i.space = .token) (hw : i.wellFormed = true) :
    decodeToken (encode i ++ rest) = .ok (i, rest) := by
  cases i with
  | lit raw => exact decodeToken_encode_lit rest (of_decide_eq_true hw)
  | matchRef lm3 off => exact decodeToken_encode_matchRef lm3 off rest
  | _ => cases hs

theorem encode_of_decodeToken {bytes rest : List Byte} {i : Instr} (h : decodeToken bytes = .ok (i, rest)) :
    bytes = encode i ++ rest := by
  obtain ⟨c, tail, rfl, -, hl, rfl, rfl⟩ | ⟨c, hi, lo, rfl, hc, rfl⟩ := decodeToken_ok h
  · simp [encode, Nat.min_eq_left hl]
  · rw [encode_matchRef_bytes hi lo hc]
    rfl

/-! The command space. -/

theorem exists_commandCode {i : Instr} (h : i.space = .command) :
    ∃ code, encode i = [code] ∧ decodeCommand code = .ok i := by
  cases i with
  | lit _ => cases h
  | matchRef _ _ => cases h
  | _ => exact ⟨_, rfl, rfl⟩

theorem wellFormed_of_command {i : Instr} (h : i.space = .command) : i.wellFormed = true := by
  cases i with
  | lit _ => cases h
  | _ => rfl

theorem encode_of_decodeCommand {code : Byte} {i : Instr} (h : decodeCommand code = .ok i) : encode i = [code] := by
  unfold decodeCommand at h
  split at h
  case h_17 => cases h
  all_goals
    rename_i hcode
    cases h
    exact congrArg (fun b => [b]) (BitVec.eq_of_toNat_eq hcode.symm)

/-- A command takes one byte, and its code alone names it (R110, R111). -/
theorem decode_command_iff {bytes rest : List Byte} {i : Instr} :
    decode .command bytes = .ok (i, rest) ↔ ∃ code, bytes = code :: rest ∧ decodeCommand code = .ok i := by
  cases bytes with
  | nil => simp [decode]
  | cons code tail =>
    cases hd : decodeCommand code with
    | error e => simp [decode, hd, Except.map]
    | ok j => simp [decode, hd, Except.map, and_comm]

/-- The codes outside the table (R112). -/
theorem decodeCommand_illegal {code : Byte}
    (h : code = 0x00 ∨ (0x0C ≤ code.toNat ∧ code.toNat ≤ 0x0F) ∨ 0x15 ≤ code.toNat) :
    decodeCommand code = .error .illegalCommand := by
  have h : code.toNat = 0 ∨ (0x0C ≤ code.toNat ∧ code.toNat ≤ 0x0F) ∨ 0x15 ≤ code.toNat :=
    h.imp_left (congrArg BitVec.toNat)
  unfold decodeCommand
  split
  case h_17 => rfl
  all_goals omega

/-- Settles O2, in the token space by the two formats, in the command space by the table of codes. -/
theorem decodeOfEncodeIsIdentity : Obligations.DecodeOfEncodeIsIdentity := by
  unfold Obligations.DecodeOfEncodeIsIdentity
  intro i rest hw
  cases hs : i.space with
  | token => exact decodeToken_encode rest hs hw
  | command =>
    obtain ⟨code, hcode, hd⟩ := exists_commandCode hs
    exact decode_command_iff.mpr ⟨code, by rw [hcode]; rfl, hd⟩

/-- Settles O3, by what each of the two decoders can answer. -/
theorem encodeOfDecodeIsIdentity : Obligations.EncodeOfDecodeIsIdentity := by
  unfold Obligations.EncodeOfDecodeIsIdentity
  intro sp bytes rest i h
  cases sp with
  | token =>
    obtain ⟨hspace, hwf⟩ := decodeToken_space h
    exact ⟨encode_of_decodeToken h, hwf, hspace⟩
  | command =>
    obtain ⟨code, rfl, hd⟩ := decode_command_iff.mp h
    have hspace := decodeCommand_space hd
    exact ⟨by rw [encode_of_decodeCommand hd]; rfl, wellFormed_of_command hspace, hspace⟩

/-- Settles O1, by running the decoder on the eleven words. -/
theorem writtenWordsDecode : Obligations.WrittenWordsDecode := by
  unfold Obligations.WrittenWordsDecode
  decide

end Sys2Proof

namespace Sys2Proof.Machine

/-- Settles O4: the four outcomes of the decoder, by the format and by whether the token's bytes are there. -/
theorem tokenLengthAndOperands : Obligations.TokenLengthAndOperands := by
  unfold Obligations.TokenLengthAndOperands
  intro c rest
  by_cases hc : c.toNat < 128
  · simp only [hc, if_true]
    split
    · rename_i hl
      have hl : c.toNat ≤ rest.length := by omega
      refine ⟨.lit (rest.take c.toNat), ?_, ?_, fun _ => rfl, fun h => absurd hc (Nat.not_lt.mpr h)⟩
      · rw [decodeToken_lit hc hl, Nat.add_sub_cancel_left]
      · simp [encode, hl, Nat.add_comm]
    · exact decodeToken_litTruncated hc (by omega)
  · simp only [hc, if_false]
    have hc : 128 ≤ c.toNat := Nat.not_lt.mp hc
    match rest with
    | [] => exact decodeToken_matchTruncated hc (by decide)
    | [_] => exact decodeToken_matchTruncated hc (by simp)
    | hi :: lo :: tail =>
      rw [if_pos (by simp only [List.length_cons]; omega)]
      refine ⟨.matchRef (c.extractLsb' 0 7) (hi ++ lo), decodeToken_match hi lo tail hc, rfl, fun h => h.elim, fun _ =>
        ⟨_, _, rfl, ?_, ?_⟩⟩
      · rw [matchLength, toNat_low7 hc]
      · exact toNat_append_eq_add hi lo

/-! Fetch and execute. -/

theorem engineStep_command {s : State} {i : Instr} (hr : s.run = .fetch) (hd : decodeCommand s.cmd = .ok i) :
    engineStep s = exec i s := by
  simp only [engineStep, hr, stepCommand, fetchCommand, hd]

theorem engineStep_illegal {s : State} {e : DecodeReject} (hr : s.run = .fetch) (hd : decodeCommand s.cmd = .error e) :
    engineStep s = .next (abortIllegal s) := by
  simp only [engineStep, hr, stepCommand, fetchCommand, hd]

theorem engineStep_token {s : State} {src : TokenSource} {next : After} {i : Instr} {rest : List Byte}
    (hr : s.run = .tokens src next) (hd : fetchToken s src = .ok (i, rest)) : engineStep s = exec i s := by
  simp only [engineStep, hr, stepTokens_decoded hd]

/-- Settles O6: with no access to serve the engine moves, and it executes what it fetches. -/
theorem stepRunsDecodedInstruction : Obligations.StepRunsDecodedInstruction := by
  unfold Obligations.StepRunsDecodedInstruction
  constructor
  · intro s i hbusy hnone hrun hd
    obtain ⟨code, hcode, hd⟩ := decode_command_iff.mp hd
    cases hcode
    rw [step_engine hbusy hnone, engineStep_command hrun hd]
  · intro s src next i rest hbusy hnone hrun hd
    rw [step_engine hbusy hnone, engineStep_token hrun hd]

theorem abortIllegal_fetch {s : State} (hr : s.run = .fetch) :
    abortIllegal s =
      { s with
        status := .error
        errKind := 6
        errCause := 0x60
        errInfo := s.cmd.setWidth 32
        out := [] } := by
  simp only [abortIllegal, setError, BitVec.ofNat_toNat, hr]
  rfl

/-- Settles O7: the codes are outside the table, and the abort of an illegal code is that state. -/
theorem illegalCommandAborts : Obligations.IllegalCommandAborts := by
  unfold Obligations.IllegalCommandAborts
  intro s hbusy hnone hrun hcode
  rw [step_engine hbusy hnone, engineStep_illegal hrun (decodeCommand_illegal hcode), abortIllegal_fetch hrun]

end Sys2Proof.Machine
end

section
/-! Token programs: what the detokenizer makes of the encoding of one (spec/40_match_codec.md R130 to R137), and with it the
pseudo-instructions (spec/30_encoding.md R114). -/

namespace Sys2Proof.Machine

variable {cfg : Config} {T raw pre post out : List Byte} {d d' : Detok} {prog : List Instr} {n : Nat}

/-- The bytes behind those of `out` that a token program produces (R133, R135). -/
def replay : List Instr → List Byte → List Byte
  | [], out => out
  | .lit raw :: rest, out => replay rest (out ++ raw)
  | .matchRef lm3 off :: rest, out => replay rest (copyBytes off.toNat (matchLength lm3) out)
  | _ :: rest, out => replay rest out

theorem encodeAll_cons (i : Instr) (prog : List Instr) : encodeAll (i :: prog) = encode i ++ encodeAll prog :=
  List.flatMap_cons

theorem encode_matchRef_length (lm3 : BitVec 7) (off : BitVec 16) : (encode (.matchRef lm3 off)).length = 3 := rfl

theorem encode_lit_length (raw : List Byte) : (encode (.lit raw)).length = raw.length + 1 := rfl

/-! One token at `TP`, with the bytes before and behind it. -/

theorem detokStep_encode_lit (hraw : raw.length ≤ 127) (hc : out.length + raw.length ≤ cfg.bufCap.toNat) :
    detokStep cfg (pre ++ (encode (.lit raw) ++ post)) ⟨pre.length, out⟩ =
      .ok ⟨(pre ++ encode (.lit raw)).length, out ++ raw⟩ := by
  have hn : pre.length + 1 + raw.length ≤ (pre ++ (encode (.lit raw) ++ post)).length := by
    simp only [List.length_append, encode_lit_length]
    omega
  simp only [detokStep, List.drop_left, decodeToken_encode_lit post hraw]
  rw [litToken_fits hn hc, List.length_append, encode_lit_length, Nat.add_assoc, Nat.add_comm 1]

theorem detokStep_encode_matchRef {lm3 : BitVec 7} {off : BitVec 16} (h1 : 1 ≤ off.toNat) (h2 : off.toNat ≤ out.length)
    (hc : out.length + matchLength lm3 ≤ cfg.bufCap.toNat) :
    detokStep cfg (pre ++ (encode (.matchRef lm3 off) ++ post)) ⟨pre.length, out⟩ =
      .ok ⟨(pre ++ encode (.matchRef lm3 off)).length, copyBytes off.toNat (matchLength lm3) out⟩ := by
  have hn : pre.length + 3 ≤ (pre ++ (encode (.matchRef lm3 off) ++ post)).length := by
    simp only [List.length_append, encode_matchRef_length]
    omega
  have ho : ¬(off.toNat = 0 ∨ out.length < off.toNat) := by omega
  simp only [detokStep, List.drop_left, decodeToken_encode_matchRef lm3 off post]
  rw [matchToken_fits hn ho hc, List.length_append, encode_matchRef_length]

/-! The run. -/

theorem detokRun_end (h : T.length ≤ d.tp) : detokRun cfg T n d = .ok d := by
  cases n with
  | zero => rfl
  | succ n => rw [detokRun, if_neg (Nat.not_lt.mpr h)]

theorem detokRun_step (h : detokStep cfg T d = .ok d') : detokRun cfg T (n + 1) d = detokRun cfg T n d' := by
  obtain ⟨hgrows, hinside, -⟩ := detokStep_ok h
  rw [detokRun, if_pos (hgrows.trans_le hinside), h]

/-- The detokenizer runs a token program from its first token to its end, when its offsets point at bytes already produced and
the bytes it produces fit. -/
theorem detokRun_encodeAll (hp : emittable out.length prog) (hc : out.length + produced prog ≤ cfg.bufCap.toNat)
    (hn : prog.length ≤ n) :
    detokRun cfg (pre ++ encodeAll prog) n ⟨pre.length, out⟩ =
      .ok ⟨(pre ++ encodeAll prog).length, replay prog out⟩ := by
  induction prog generalizing pre out n with
  | nil =>
    rw [detokRun_end (by simp [encodeAll])]
    simp [encodeAll, replay]
  | cons i prog ih =>
    obtain ⟨n, rfl⟩ : ∃ m, n = m + 1 := Nat.exists_eq_add_of_le' (Nat.le_of_add_left_le hn)
    have hfuel : prog.length ≤ n := Nat.le_of_succ_le_succ hn
    rw [encodeAll_cons]
    cases i with
    | lit raw =>
      obtain ⟨-, hraw, -, hrest⟩ := hp
      rw [produced, ← Nat.add_assoc] at hc
      rw [detokRun_step (detokStep_encode_lit hraw (Nat.le_of_add_right_le hc)), ← List.append_assoc, replay]
      exact ih (by rwa [List.length_append]) (by rwa [List.length_append]) hfuel
    | matchRef lm3 off =>
      obtain ⟨h1, h2, hrest⟩ := hp
      rw [produced, ← Nat.add_assoc] at hc
      rw [detokRun_step (detokStep_encode_matchRef h1 h2 (Nat.le_of_add_right_le hc)), ← List.append_assoc, replay]
      exact ih (by rwa [copyBytes_length]) (by rwa [copyBytes_length]) hfuel
    | _ => exact hp.elim

theorem encode_length_pos (i : Instr) : 1 ≤ (encode i).length := by
  cases i <;> exact Nat.succ_pos _

theorem length_le_encodeAll (prog : List Instr) : prog.length ≤ (encodeAll prog).length := by
  induction prog with
  | nil => exact Nat.zero_le _
  | cons i prog ih =>
    have := encode_length_pos i
    rw [encodeAll_cons, List.length_append, List.length_cons]
    omega

/-- `Decode` of an emittable token program is what the program produces. -/
theorem matchDecode_encodeAll (hp : emittable 0 prog) (hc : produced prog ≤ cfg.bufCap.toNat) :
    matchDecode cfg (encodeAll prog) = .ok (replay prog []) := by
  have hrun := detokRun_encodeAll (cfg := cfg) (pre := []) (out := []) hp (by simpa using hc) (length_le_encodeAll prog)
  rw [List.nil_append, List.length_nil] at hrun
  rw [matchDecode, hrun]

/-! `LITSTR`: its chunks do not depend on the bound on their number. -/

theorem litChunks_nil (fuel : Nat) : litChunks fuel [] = [] := by
  cases fuel <;> rfl

theorem litChunks_succ (fuel : Nat) {bs : List Byte} (h : bs ≠ []) :
    litChunks (fuel + 1) bs = .lit (bs.take 127) :: litChunks fuel (bs.drop 127) := by
  cases bs with
  | nil => exact absurd rfl h
  | cons b bs => rfl

theorem litChunks_bound_irrelevant {m n : Nat} {bs : List Byte} (hm : bs.length ≤ m) (hn : bs.length ≤ n) :
    litChunks m bs = litChunks n bs := by
  induction m generalizing n bs with
  | zero => rw [List.eq_nil_of_length_eq_zero (Nat.le_zero.mp hm), litChunks_nil, litChunks_nil]
  | succ m ih =>
    by_cases hb : bs = []
    · rw [hb, litChunks_nil, litChunks_nil]
    · have hpos := List.length_pos_iff.mpr hb
      obtain ⟨n, rfl⟩ : ∃ n', n = n' + 1 := Nat.exists_eq_add_of_le' (hpos.trans_le hn)
      have hdrop := List.length_drop (i := 127) (l := bs)
      rw [litChunks_succ m hb, litChunks_succ n hb, ih (n := n) (by omega) (by omega)]

theorem litStr_nil : litStr [] = [] := rfl

theorem litStr_of_ne_nil {bs : List Byte} (h : bs ≠ []) : litStr bs = .lit (bs.take 127) :: litStr (bs.drop 127) := by
  have hdrop : (bs.drop 127).length ≤ bs.length := by
    rw [List.length_drop]
    omega
  rw [litStr, litChunks_bound_irrelevant (Nat.le_refl _) (Nat.le_succ _), litChunks_succ _ h,
    litChunks_bound_irrelevant hdrop (Nat.le_refl _), litStr]

/-- Induction along the chunks of `LITSTR`. -/
theorem chunk_induction {motive : List Byte → Prop} (nil : motive [])
    (chunk : ∀ bs, bs ≠ [] → motive (bs.drop 127) → motive bs) (bs : List Byte) : motive bs := by
  induction hn : bs.length using Nat.strong_induction_on generalizing bs with
  | _ n ih =>
    by_cases hb : bs = []
    · exact hb ▸ nil
    · have hpos := List.length_pos_iff.mpr hb
      exact chunk bs hb (ih _ (by rw [List.length_drop]; omega) _ rfl)

theorem replay_litStr (bs out : List Byte) : replay (litStr bs) out = out ++ bs := by
  induction bs using chunk_induction generalizing out with
  | nil => exact (List.append_nil out).symm
  | chunk bs hb ih => rw [litStr_of_ne_nil hb, replay, ih, List.append_assoc, List.take_append_drop]

theorem produced_litStr (bs : List Byte) : produced (litStr bs) = bs.length := by
  induction bs using chunk_induction with
  | nil => rfl
  | chunk bs hb ih =>
    rw [litStr_of_ne_nil hb, produced, ih, List.length_take, List.length_drop]
    omega

theorem litStr_length (bs : List Byte) : (litStr bs).length = (bs.length + 126) / 127 := by
  induction bs using chunk_induction with
  | nil => rfl
  | chunk bs hb ih =>
    have hpos := List.length_pos_iff.mpr hb
    rw [litStr_of_ne_nil hb, List.length_cons, ih, List.length_drop]
    omega

/-- Every chunk but the last is full. -/
theorem emittable_litStr (p : Nat) (bs : List Byte) : emittable p (litStr bs) := by
  induction bs using chunk_induction generalizing p with
  | nil => trivial
  | chunk bs hb ih =>
    have hpos := List.length_pos_iff.mpr hb
    rw [litStr_of_ne_nil hb]
    refine ⟨by rw [List.length_take]; omega, List.length_take_le _ _, ?_, ih _⟩
    intro next tail hnext
    have hdrop : bs.drop 127 ≠ [] := fun hd => by simp [hd, litStr_nil] at hnext
    have hlong : 127 < bs.length := by simpa using hdrop
    exact List.length_take_of_le (Nat.le_of_lt hlong)

/-! `RUN`: a copy at distance 1 repeats its byte. -/

theorem copyBytes_one (b : Byte) (m : Nat) : copyBytes 1 m [b] = List.replicate (m + 1) b := by
  rw [copyBytes_closed 1 m [b] (Nat.le_refl _) (Nat.le_refl _)]
  simp [Nat.mod_one, List.replicate_succ]

theorem matchLength_runTok {k : Nat} (h1 : 4 ≤ k) (h2 : k ≤ 131) : matchLength (BitVec.ofNat 7 (k - 4)) = k - 1 := by
  simp only [matchLength, BitVec.toNat_ofNat, Config.minMatch]
  omega

theorem replay_runTok (b : Byte) {k : Nat} (h1 : 4 ≤ k) (h2 : k ≤ 131) : replay (runTok b k) [] = List.replicate k b := by
  have hcopy : replay (runTok b k) [] = copyBytes 1 (matchLength (BitVec.ofNat 7 (k - 4))) [b] := rfl
  rw [hcopy, matchLength_runTok h1 h2, copyBytes_one]
  congr 1
  omega

theorem produced_runTok (b : Byte) {k : Nat} (h1 : 4 ≤ k) (h2 : k ≤ 131) : produced (runTok b k) = k := by
  have hlen : produced (runTok b k) = 1 + (matchLength (BitVec.ofNat 7 (k - 4)) + 0) := rfl
  rw [hlen, matchLength_runTok h1 h2]
  omega

theorem emittable_runTok (b : Byte) (k : Nat) : emittable 0 (runTok b k) := by
  refine ⟨Nat.le_refl 1, by simp, ?_, Nat.le_refl 1, Nat.le_refl 1, trivial⟩
  intro next tail h
  cases h

/-- Settles O5: the three expansions are emittable programs, and the detokenizer replays them. -/
theorem pseudoInstructionsExpand : Obligations.PseudoInstructionsExpand := by
  unfold Obligations.PseudoInstructionsExpand
  refine ⟨fun bs hbs => ⟨?_, ?_⟩, rfl, rfl, fun b k h1 h2 => ?_⟩
  · rw [matchDecode_encodeAll (emittable_litStr 0 bs) (by rwa [produced_litStr]), replay_litStr, List.nil_append]
  · rw [litStr_length]
    split <;> omega
  · have hcap : produced (runTok b k) ≤ Config.block.bufCap.toNat := by
      rw [produced_runTok b h1 h2]
      exact h2.trans (by decide)
    rw [matchDecode_encodeAll (emittable_runTok b k) hcap, replay_runTok b h1 h2]

end Sys2Proof.Machine
end

section
/-! The detokenizer on the state (spec/40_match_codec.md R130 to R136): what its two instructions leave, what one step at the
token grain does, and `MDEC` as the run of these steps. -/

namespace Sys2Proof.Machine

variable {cfg : Config} {s : State} {src : TokenSource} {next : After} {d d' : Detok} {T : List Byte} {c : Byte}

/-! The instructions `LIT` and `MATCH`. -/

/-- The datum of an error raised at the token at `TP` (spec/60_exceptions.md R303). -/
theorem tokenInfo_tp (s : State) :
    tokenInfo s s.tp.toNat =
      (match s.run with
        | .tokens _ (.entry _ _) => s.eidx.toNat
        | _ => s.tp.toNat) := by
  unfold tokenInfo
  cases s.run with
  | fetch => rfl
  | tokens src next => cases next <;> rfl

theorem exec_lit (raw : List Byte) (s : State) :
    exec (.lit raw) s =
      .next (detokBody s (litToken Config.block (tokenLen s (runSource s)) raw (detokOf s))).resume := rfl

theorem exec_matchRef (lm3 : BitVec 7) (off : BitVec 16) (s : State) :
    exec (.matchRef lm3 off) s =
      .next (detokBody s
        (matchToken Config.block (tokenLen s (runSource s)) (matchLength lm3) off.toNat (detokOf s))).resume := rfl

/-- A refused token aborts the command with its cause and the datum of R303. -/
theorem resume_error_aborted (s : State) (c : Cause) (info : Nat) :
    Aborted c (tokenInfo s info) s (detokBody s (.error ⟨c, info⟩)).resume :=
  abort_aborted ⟨c, tokenInfo s info⟩ s

theorem aborts_lit {raw : List Byte} {x : Cause}
    (h : litToken Config.block (tokenLen s (runSource s)) raw (detokOf s) = .error ⟨x, s.tp.toNat⟩) :
    Aborts (.lit raw) s x (tokenInfo s s.tp.toNat) :=
  ⟨_, by rw [exec_lit, h], resume_error_aborted s x _⟩

theorem aborts_matchRef {lm3 : BitVec 7} {off : BitVec 16} {x : Cause}
    (h : matchToken Config.block (tokenLen s (runSource s)) (matchLength lm3) off.toNat (detokOf s) =
      .error ⟨x, s.tp.toNat⟩) :
    Aborts (.matchRef lm3 off) s x (tokenInfo s s.tp.toNat) :=
  ⟨_, by rw [exec_matchRef, h], resume_error_aborted s x _⟩

/-- Settles O16, by the three outcomes of a `LIT`. -/
theorem litExecutes : Obligations.LitExecutes := by
  unfold Obligations.LitExecutes
  intro s raw info hinfo
  obtain rfl : info = tokenInfo s s.tp.toNat := hinfo.trans (tokenInfo_tp s).symm
  split
  · rename_i htrunc
    exact aborts_lit (litToken_truncated htrunc)
  · rename_i hthere
    have hthere : (detokOf s).tp + 1 + raw.length ≤ tokenLen s (runSource s) := Nat.not_lt.mp hthere
    split
    · rename_i hover
      exact aborts_lit (litToken_overflow hthere hover)
    · rename_i hfits
      rw [exec_lit, litToken_fits hthere (Nat.not_lt.mp hfits)]
      rfl

/-- Settles O17, by the four outcomes of a `MATCH` and the closed form of its copy. -/
theorem matchExecutes : Obligations.MatchExecutes := by
  unfold Obligations.MatchExecutes
  intro s lm3 off info hinfo
  obtain rfl : info = tokenInfo s s.tp.toNat := hinfo.trans (tokenInfo_tp s).symm
  dsimp only
  split
  · rename_i htrunc
    exact aborts_matchRef (matchToken_truncated htrunc)
  · rename_i hthere
    have hthere : (detokOf s).tp + 3 ≤ tokenLen s (runSource s) := Nat.not_lt.mp hthere
    split
    · rename_i hbad
      exact aborts_matchRef (matchToken_badOffset hthere hbad)
    · rename_i hoff
      have hoff : ¬(off.toNat = 0 ∨ (detokOf s).out.length < off.toNat) := hoff
      split
      · rename_i hover
        exact aborts_matchRef (matchToken_overflow hthere hoff hover)
      · rename_i hfits
        have hfits : (detokOf s).out.length + matchLength lm3 ≤ Config.block.bufCap.toNat := Nat.not_lt.mp hfits
        rw [exec_matchRef, matchToken_fits hthere hoff hfits, copyBytes_closed _ _ _ (by omega) (by omega)]
        rfl

/-! One step at the token grain. -/

theorem runSource_tokens (hrun : s.run = .tokens src next) : runSource s = src := by
  simp only [runSource, hrun]

/-- Before the end of its buffer the detokenizer runs the token at `TP` (R132). -/
theorem step_token (hbusy : s.status = .busy) (hnone : nextAccess s = none) (hrun : s.run = .tokens src next)
    (htp : s.tp.toNat < tokenLen s src) :
    step s = .next (detokBody s (detokStep Config.block (tokenBytes s src) (detokOf s))).resume := by
  have hsrc := runSource_tokens hrun
  have hne : s.tp.toNat ≠ tokenLen s src := Nat.ne_of_lt htp
  have hle : ¬s.tp.toNat > tokenLen s src := Nat.not_lt.mpr (Nat.le_of_lt htp)
  rw [step_engine hbusy hnone]
  simp only [engineStep, hrun, stepTokens, hne, hle, if_false, fetchToken, detokStep, detokOf, tokenBytes_length]
  cases hd : decodeToken ((tokenBytes s src).drop s.tp.toNat) with
  | error e => rfl
  | ok p =>
    obtain ⟨i, rest⟩ := p
    rcases decodeToken_ok hd with ⟨c, tail, -, -, -, rfl, -⟩ | ⟨c, hi, lo, -, -, rfl⟩
    · dsimp only
      rw [exec_lit, hsrc]
      rfl
    · dsimp only
      rw [exec_matchRef, hsrc]
      rfl

/-- At the end of its buffer the detokenizer that runs for a command of its own ends it (R131). -/
theorem step_tokensEnd (hbusy : s.status = .busy) (hnone : nextAccess s = none) (hrun : s.run = .tokens src .command)
    (htp : s.tp.toNat = tokenLen s src) : step s = .next (finish s) := by
  rw [step_engine hbusy hnone]
  simp only [engineStep, hrun, stepTokens, htp, if_true, haltTokens]

theorem resume_status (s : State) (x : Except Raise Detok) :
    (detokBody s x).resume.status = s.status ∨ (detokBody s x).resume.status = .error := by
  cases x with
  | ok d => exact .inl rfl
  | error r => exact .inr rfl

/-- Settles O18, by the step at the end of the buffer and the step before it. -/
theorem detokenizerEndsExactlyAtTheEnd : Obligations.DetokenizerEndsExactlyAtTheEnd := by
  unfold Obligations.DetokenizerEndsExactlyAtTheEnd
  intro s src hbusy hnone hrun _
  refine ⟨fun hend => step_tokensEnd hbusy hnone hrun hend, fun hlt t ht => ?_⟩
  rw [step_token hbusy hnone hrun hlt] at ht
  cases ht
  rcases resume_status s (detokStep Config.block (tokenBytes s src) (detokOf s)) with h | h
  · simp [h, hbusy]
  · simp [h]

theorem drop_eq_getD_cons {n : Nat} (h : n < T.length) : T.drop n = T.getD n 0 :: T.drop (n + 1) := by
  rw [List.drop_eq_getElem_cons h, List.getD_eq_getElem _ _ h]

/-- The command byte at `TP` stands inside the buffer, in front of the bytes behind it. -/
theorem commandByte_drop {n : Nat} (h : T[n]? = some c) : n < T.length ∧ T.drop n = c :: T.drop (n + 1) := by
  obtain ⟨hn, rfl⟩ := List.getElem?_eq_some_iff.mp h
  exact ⟨hn, List.drop_eq_getElem_cons hn⟩

/-- A step that executes a token aborts when the token does. -/
theorem stepAborts_of_aborts {i : Instr} {x : Cause} {info : Nat} (hstep : step s = exec i s) (h : Aborts i s x info) :
    StepAborts s x info := by
  obtain ⟨t, ht, ha⟩ := h
  exact ⟨t, hstep.trans ht, ha⟩

/-- Before a token that the decoder rejects, the step aborts with that token's error (R133, R134). -/
theorem stepAborts_of_rejected {e : DecodeReject} (hbusy : s.status = .busy) (hnone : nextAccess s = none)
    (hrun : s.run = .tokens src .command) (htp : s.tp.toNat < tokenLen s src)
    (hd : decodeToken ((tokenBytes s src).drop s.tp.toNat) = .error e) :
    StepAborts s (tokenReject s.tp.toNat e).cause s.tp.toNat := by
  have hinfo : tokenInfo s (tokenReject s.tp.toNat e).info = s.tp.toNat := by
    cases e <;> simp only [tokenReject, tokenInfo, hrun]
  have hs : detokStep Config.block (tokenBytes s src) (detokOf s) = .error (tokenReject s.tp.toNat e) := by
    simp only [detokStep, detokOf, hd]
  refine ⟨_, step_token hbusy hnone hrun htp, ?_⟩
  rw [hs]
  have ha := resume_error_aborted s (tokenReject s.tp.toNat e).cause (tokenReject s.tp.toNat e).info
  rwa [hinfo] at ha

/-- Settles O14: a truncated token is rejected by the decoder, every other `LIT` is executed (O6, O16). -/
theorem litStep : Obligations.LitStep := by
  unfold Obligations.LitStep
  intro s src c hbusy hnone hrun hc hlit
  obtain ⟨htp, hdrop⟩ := commandByte_drop hc
  have htail : ((tokenBytes s src).drop (s.tp.toNat + 1)).length = tokenLen s src - (s.tp.toNat + 1) := by simp
  rw [tokenBytes_length] at htp
  split
  · rename_i htrunc
    refine stepAborts_of_rejected (e := .literalTruncated) hbusy hnone hrun htp ?_
    rw [hdrop, decodeToken_litTruncated hlit (by omega)]
  · rename_i hthere
    have hlen : (slice (tokenBytes s src) (s.tp.toNat + 1) c.toNat).length = c.toNat :=
      slice_length (by rw [tokenBytes_length]; omega)
    have hstep : step s = exec (.lit (slice (tokenBytes s src) (s.tp.toNat + 1) c.toNat)) s :=
      stepRunsDecodedInstruction.2 s src .command _ _ hbusy hnone hrun
        ((congrArg decodeToken hdrop).trans (decodeToken_lit hlit (by omega)))
    have hexec := litExecutes s (slice (tokenBytes s src) (s.tp.toNat + 1) c.toNat) s.tp.toNat (by rw [hrun])
    rw [hlen, runSource_tokens hrun, if_neg hthere] at hexec
    split
    · rename_i hover
      rw [if_pos hover] at hexec
      exact stepAborts_of_aborts hstep hexec
    · rename_i hfits
      rw [if_neg hfits] at hexec
      exact hstep.trans hexec

/-- Settles O15: a truncated token is rejected by the decoder, every other `MATCH` is executed (O6, O17). -/
theorem matchStep : Obligations.MatchStep := by
  unfold Obligations.MatchStep
  intro s src c hbusy hnone hrun hc hmatch
  obtain ⟨htp, hdrop⟩ := commandByte_drop hc
  have htail : ((tokenBytes s src).drop (s.tp.toNat + 1)).length = tokenLen s src - (s.tp.toNat + 1) := by simp
  rw [tokenBytes_length] at htp
  dsimp only
  split
  · rename_i htrunc
    refine stepAborts_of_rejected (e := .offsetTruncated) hbusy hnone hrun htp ?_
    rw [hdrop, decodeToken_matchTruncated hmatch (by omega)]
  · rename_i hthere
    rw [drop_eq_getD_cons (n := s.tp.toNat + 1) (by rw [tokenBytes_length]; omega),
      drop_eq_getD_cons (n := s.tp.toNat + 2) (by rw [tokenBytes_length]; omega)] at hdrop
    generalize (tokenBytes s src).getD (s.tp.toNat + 1) 0 = hi at hdrop ⊢
    generalize (tokenBytes s src).getD (s.tp.toNat + 2) 0 = lo at hdrop ⊢
    have hstep : step s = exec (.matchRef (c.extractLsb' 0 7) (hi ++ lo)) s :=
      stepRunsDecodedInstruction.2 s src .command _ _ hbusy hnone hrun
        ((congrArg decodeToken hdrop).trans (decodeToken_match hi lo _ hmatch))
    have hexec := matchExecutes s (c.extractLsb' 0 7) (hi ++ lo) s.tp.toNat (by rw [hrun])
    have hoff : (hi ++ lo).toNat = 256 * hi.toNat + lo.toNat := toNat_append_eq_add hi lo
    dsimp only at hexec
    rw [toNat_low7 hmatch, hoff, runSource_tokens hrun, if_neg hthere] at hexec
    by_cases hbad : 256 * hi.toNat + lo.toNat = 0 ∨ 256 * hi.toNat + lo.toNat > s.out.length
    · rw [if_pos hbad] at hexec ⊢
      exact stepAborts_of_aborts hstep hexec
    · by_cases hover : s.out.length + (c.toNat - 128 + 3) > Config.block.bufCap.toNat
      · rw [if_neg hbad, if_pos hover] at hexec ⊢
        exact stepAborts_of_aborts hstep hexec
      · rw [if_neg hbad, if_neg hover] at hexec ⊢
        exact hstep.trans hexec

/-! `MDEC` as the run of the token steps. -/

theorem tokenBytes_storeDetok (s : State) (d : Detok) (src : TokenSource) :
    tokenBytes (storeDetok s d) src = tokenBytes s src := by
  cases src <;> rfl

theorem tokenLen_storeDetok (s : State) (d : Detok) (src : TokenSource) :
    tokenLen (storeDetok s d) src = tokenLen s src := by
  cases src <;> rfl

theorem detokOf_storeDetok (h : d.tp < 2 ^ 32) : detokOf (storeDetok s d) = d := by
  simp only [detokOf, storeDetok, BitVec.toNat_ofNat, Nat.mod_eq_of_lt h]

theorem run_succ {k : Nat} (h : step s = .next t) : core.run (k + 1) s = core.run k t := by
  have h : core.step s = .next t := h
  simp only [Host.Core.run, h]

/-- A state in which the engine waits for the host stays as it is. -/
theorem run_waits (k : Nat) (h : step s = .next s) : core.run k s = .next s := by
  induction k with
  | zero => rfl
  | succ k ih => rw [run_succ h, ih]

/-- At the end of the token buffer the command ends and the engine then waits. -/
theorem run_tokensEnd (k : Nat) (hbusy : s.status = .busy) (hpending : s.pending = [])
    (hrun : s.run = .tokens src .command) (htp : s.tp.toNat = tokenLen s src) :
    core.run (k + 1) s = .next (finish s) := by
  have hnone : nextAccess s = none := by simp only [nextAccess, hpending]
  have hwait : step (finish s) = .next (finish s) := step_waits (fun h => nomatch h) hpending
  rw [run_succ (step_tokensEnd hbusy hnone hrun htp), run_waits k hwait]

/-- The token steps from a place of the detokenizer on end as its run from there does, when `fuel` bounds the tokens left. -/
theorem run_tokenSteps {fuel : Nat} (hbusy : s.status = .busy) (hpending : s.pending = [])
    (hrun : s.run = .tokens src .command) (hcap : tokenLen s src < 2 ^ 32) (htp : d.tp ≤ tokenLen s src)
    (hfuel : tokenLen s src ≤ d.tp + fuel) :
    core.run (fuel + 1) (storeDetok s d) =
      .next (detokBody s (detokRun Config.block (tokenBytes s src) fuel d)).settle := by
  induction fuel generalizing d with
  | zero =>
    have hd := congrArg Detok.tp (detokOf_storeDetok (s := s) (d := d) (by omega))
    exact run_tokensEnd 0 hbusy hpending hrun (by rw [tokenLen_storeDetok]; exact hd.trans (by omega))
  | succ fuel ih =>
    have hd : detokOf (storeDetok s d) = d := detokOf_storeDetok (by omega)
    have htp' : (storeDetok s d).tp.toNat = d.tp := congrArg Detok.tp hd
    by_cases hend : d.tp = tokenLen s src
    · rw [detokRun_end (by rw [tokenBytes_length, hend])]
      exact run_tokensEnd (fuel + 1) hbusy hpending hrun (by rw [tokenLen_storeDetok, htp', hend])
    · have hlt : d.tp < tokenLen s src := by omega
      have hnone : nextAccess (storeDetok s d) = none := by simp only [nextAccess, storeDetok, hpending]
      have hstep := step_token (s := storeDetok s d) hbusy hnone hrun (by rwa [tokenLen_storeDetok, htp'])
      rw [hd, tokenBytes_storeDetok] at hstep
      rw [run_succ hstep]
      cases hs : detokStep Config.block (tokenBytes s src) d with
      | ok d' =>
        obtain ⟨hgrows, hinside, -⟩ := detokStep_ok hs
        rw [detokRun_step hs]
        exact ih (by rwa [tokenBytes_length] at hinside) (by omega)
      | error r =>
        have hwait : step (abort ⟨r.cause, tokenInfo s r.info⟩ s) = .next (abort ⟨r.cause, tokenInfo s r.info⟩ s) :=
          step_waits (fun h => nomatch h) hpending
        rw [detokRun, if_pos (by rwa [tokenBytes_length]), hs]
        exact run_waits (fuel + 1) hwait

theorem exec_mdec (s : State) :
    exec .mdec s =
      .next (detokBody (startTokens .input .command s)
        (detokRun Config.block (inBytes s) s.inLen.toNat ⟨0, []⟩)).settle := by
  rw [← inBytes_length s]
  rfl

/-- Settles O19, by the run of the token steps from the start. -/
theorem mdecIsItsTokenSteps : Obligations.MdecIsItsTokenSteps := by
  unfold Obligations.MdecIsItsTokenSteps
  intro s hbusy hpending
  rw [exec_mdec]
  exact run_tokenSteps (s := startTokens .input .command s) (src := .input) (d := ⟨0, []⟩)
    hbusy hpending rfl s.inLen.isLt (Nat.zero_le _) (Nat.le_add_left _ _)

/-- Settles O20: the run halts at the end of `IN` or raises the first failing token's error. -/
theorem mdecAnswersDecode : Obligations.MdecAnswersDecode := by
  unfold Obligations.MdecAnswersDecode
  intro s
  have hexec := exec_mdec s
  rw [matchDecode, inBytes_length]
  cases hrun : detokRun Config.block (inBytes s) s.inLen.toNat ⟨0, []⟩ with
  | ok d =>
    obtain ⟨htp, -, -⟩ := detokRun_ok (Nat.zero_le _) (by rw [inBytes_length]; omega) (Nat.zero_le _) hrun
    have htp : BitVec.ofNat 32 d.tp = s.inLen := by rw [htp, inBytes_length, BitVec.ofNat_toNat, BitVec.setWidth_eq]
    rw [hrun] at hexec
    have hleft : (detokBody (startTokens .input .command s) (.ok d)).settle =
        { s with out := d.out, tp := BitVec.ofNat 32 d.tp, status := .done, run := .fetch } := rfl
    rw [hleft, htp] at hexec
    exact hexec
  | error r =>
    rw [hrun] at hexec
    exact ⟨_, hexec, abort_aborted r s⟩

end Sys2Proof.Machine
end

section
/-! How long a decoded stream can be (spec/40_match_codec.md R137). -/

namespace Sys2Proof.Machine

variable {cfg : Config} {T : List Byte} {d d' : Detok} {b : Byte}

/-- One token adds at most 130 bytes for every three of the stream. -/
theorem detokStep_growth (h : detokStep cfg T d = .ok d') :
    3 * d'.out.length + 130 * d.tp ≤ 3 * d.out.length + 130 * d'.tp := by
  unfold detokStep at h
  cases hd : decodeToken (T.drop d.tp) with
  | error e => simp [hd] at h
  | ok p =>
    obtain ⟨i, rest⟩ := p
    rcases decodeToken_ok hd with ⟨c, tail, -, -, -, rfl, -⟩ | ⟨c, hi, lo, -, -, rfl⟩
    · simp only [hd] at h
      obtain ⟨-, -, rfl⟩ := litToken_ok h
      rw [List.length_append]
      dsimp only
      omega
    · simp only [hd] at h
      obtain ⟨-, -, -, -, rfl⟩ := matchToken_ok h
      have hlen : matchLength (c.extractLsb' 0 7) ≤ 130 := Nat.add_le_add_right (Nat.le_pred_of_lt (BitVec.isLt _)) 3
      rw [copyBytes_length]
      dsimp only
      omega

theorem detokRun_growth {fuel : Nat} (h : detokRun cfg T fuel d = .ok d') :
    3 * d'.out.length + 130 * d.tp ≤ 3 * d.out.length + 130 * d'.tp := by
  induction fuel generalizing d with
  | zero =>
    cases h
    exact Nat.le_refl _
  | succ fuel ih =>
    unfold detokRun at h
    split at h
    · cases hs : detokStep cfg T d with
      | error r => simp [hs] at h
      | ok d1 =>
        have hstep := detokStep_growth hs
        have hrest := ih (by simpa [hs] using h)
        omega
    · cases h
      exact Nat.le_refl _

theorem matchDecode_length {bytes : List Byte} (h : matchDecode cfg T = .ok bytes) : 3 * bytes.length ≤ 130 * T.length := by
  unfold matchDecode at h
  cases hrun : detokRun cfg T T.length { tp := 0, out := [] } with
  | error r => simp [hrun] at h
  | ok d =>
    obtain rfl : d.out = bytes := by simpa [hrun] using h
    obtain ⟨hend, -, -⟩ := detokRun_ok (Nat.zero_le _) (Nat.le_add_left _ _) (Nat.zero_le _) hrun
    simpa [hend] using detokRun_growth hrun

/-! The stream that reaches the bound: one literal, then copies of 130 bytes at distance 1. -/

/-- A copy at distance 1 lengthens a run of one byte. -/
theorem copyBytes_one_replicate (b : Byte) (k n : Nat) (hn : 1 ≤ n) :
    copyBytes 1 k (List.replicate n b) = List.replicate (n + k) b := by
  induction k generalizing n with
  | zero => rfl
  | succ k ih =>
    have hlast : (List.replicate n b).getD (n - 1) 0 = b := by
      rw [List.getD_eq_getElem _ _ (by rw [List.length_replicate]; omega), List.getElem_replicate]
    rw [copyBytes, List.length_replicate, hlast, ← List.replicate_succ', ih (n + 1) (by omega)]
    congr 1
    omega

/-- The token program `01 b` with `m` tokens `FF 00 01`. -/
def longestRun (b : Byte) (m : Nat) : List Instr := .lit [b] :: List.replicate m (.matchRef 127 1)

theorem encodeAll_longestRun (b : Byte) (m : Nat) :
    encodeAll (longestRun b m) = [0x01, b] ++ (List.replicate m [0xFF, 0x00, 0x01]).flatten := by
  rw [longestRun, encodeAll_cons, encodeAll, List.flatMap_def, List.map_replicate]
  rfl

theorem produced_longMatches (m : Nat) : produced (List.replicate m (.matchRef 127 1)) = 130 * m := by
  induction m with
  | zero => rfl
  | succ m ih =>
    rw [List.replicate_succ, produced, ih]
    change 127 + 3 + 130 * m = 130 * (m + 1)
    omega

theorem emittable_longMatches {p : Nat} (m : Nat) (hp : 1 ≤ p) : emittable p (List.replicate m (.matchRef 127 1)) := by
  induction m generalizing p with
  | zero => trivial
  | succ m ih => exact ⟨Nat.le_refl 1, hp, ih (Nat.le_add_right_of_le hp)⟩

theorem replay_longMatches {n : Nat} (m : Nat) (hn : 1 ≤ n) :
    replay (List.replicate m (.matchRef 127 1)) (List.replicate n b) = List.replicate (n + 130 * m) b := by
  induction m generalizing n with
  | zero => rfl
  | succ m ih =>
    have hcopy : copyBytes 1 130 (List.replicate n b) = List.replicate (n + 130) b := copyBytes_one_replicate b 130 n hn
    have hreplay : replay (List.replicate (m + 1) (.matchRef 127 1)) (List.replicate n b) =
        replay (List.replicate m (.matchRef 127 1)) (copyBytes 1 130 (List.replicate n b)) := rfl
    rw [hreplay, hcopy, ih (Nat.le_add_right_of_le hn), Nat.mul_succ, Nat.add_assoc, Nat.add_comm 130]

theorem emittable_longestRun (b : Byte) (m : Nat) : emittable 0 (longestRun b m) := by
  refine ⟨Nat.le_refl 1, by simp, fun next tail h => ?_, emittable_longMatches m (Nat.le_refl 1)⟩
  cases m <;> cases h

/-- Settles O21: each token keeps the ratio, and the example is an emittable program that the detokenizer replays. -/
theorem decodedLengthBound : Obligations.DecodedLengthBound := by
  unfold Obligations.DecodedLengthBound
  refine ⟨fun cfg T bytes h => matchDecode_length h, fun b m hm => ?_⟩
  have hproduced : produced (longestRun b m) = 1 + 130 * m := congrArg (1 + ·) (produced_longMatches m)
  rw [← encodeAll_longestRun, matchDecode_encodeAll (emittable_longestRun b m) (by rwa [hproduced])]
  exact congrArg Except.ok (replay_longMatches m (Nat.le_refl 1))

end Sys2Proof.Machine
end

section
/-! The tokenizer without its capacity check (spec/40_match_codec.md R142 to R149): what a step leaves when its output fits, and
that the check of R70 on every append only decides whether the whole stream fits. -/

namespace Sys2Proof.Machine

variable {cfg : Config} {src : List Byte} {t t' u : Tokenizer} {x : Except Raise Tokenizer}

/-! What the parts of a step leave. -/

/-- The pending run written as one `LIT` (R147). -/
def afterFlush (t : Tokenizer) : Tokenizer :=
  { t with litBuf := [], dst := t.dst ++ (if t.litBuf = [] then [] else encode (.lit t.litBuf)) }

/-- A `MATCH` of length `len` and offset `off` written behind the pending run (R145, R148). -/
def afterMatch (cfg : Config) (src : List Byte) (len off : Nat) (t : Tokenizer) : Tokenizer :=
  { afterFlush t with
    dst := (afterFlush t).dst ++ encode (.matchRef (BitVec.ofNat 7 (len - 3)) (BitVec.ofNat 16 off))
    ht := if cfg.insertSkipped then enterSkipped cfg src (len - 1) (t.ip + 1) t.ht else t.ht
    ip := t.ip + len }

/-- The byte at `IP` in the pending run. -/
def pushLiteral (src : List Byte) (t : Tokenizer) : Tokenizer :=
  { t with litBuf := t.litBuf ++ [src.getD t.ip 0], ip := t.ip + 1 }

/-- One literal taken, a run of 127 bytes being written (R146). -/
def afterLiteral (src : List Byte) (t : Tokenizer) : Tokenizer :=
  if (pushLiteral src t).litBuf.length = 127 then afterFlush (pushLiteral src t) else pushLiteral src t

/-- The tokenizer with the table the search at `IP` leaves (R142). -/
def searched (cfg : Config) (src : List Byte) (t : Tokenizer) : Tokenizer := { t with ht := (searchMatch cfg src t).2.2 }

/-- One step of the tokenizer (R142). -/
def afterStep (cfg : Config) (src : List Byte) (t : Tokenizer) : Tokenizer :=
  if 3 ≤ (searchMatch cfg src t).1 then
    afterMatch cfg src (searchMatch cfg src t).1 (searchMatch cfg src t).2.1 (searched cfg src t)
  else afterLiteral src (searched cfg src t)

/-- The loop of R142. -/
def afterSteps (cfg : Config) (src : List Byte) : Nat → Tokenizer → Tokenizer
  | 0, t => t
  | fuel + 1, t => if t.ip < src.length then afterSteps cfg src fuel (afterStep cfg src t) else t

/-- `Tokenize` (R141 to R147). -/
def afterTokenize (cfg : Config) (src : List Byte) : Tokenizer :=
  afterFlush (afterSteps cfg src src.length tokenizerStart)

/-! The capacity check. -/

/-- How an operation that turns `t` into `u` ends: well, within the capacity when it began so, or with the capacity error, the
output being too long. -/
inductive Checked (cfg : Config) (t u : Tokenizer) : Except Raise Tokenizer → Prop
  | fits (h : t.dst.length ≤ cfg.bufCap.toNat → u.dst.length ≤ cfg.bufCap.toNat) : Checked cfg t u (.ok u)
  | overflows (h : cfg.bufCap.toNat < u.dst.length) : Checked cfg t u (.error ⟨.lengthOverflow, 0⟩)

theorem checked_ok (h : Checked cfg t u x) (hx : x = .ok t') : t' = u := by
  cases h with
  | fits h => exact (Except.ok.inj hx).symm
  | overflows h => cases hx

/-- From within the capacity, the end decides. -/
theorem checked_eq (h : Checked cfg t u x) (ht : t.dst.length ≤ cfg.bufCap.toNat) :
    x = if u.dst.length ≤ cfg.bufCap.toNat then .ok u else .error ⟨.lengthOverflow, 0⟩ := by
  cases h with
  | fits h => rw [if_pos (h ht)]
  | overflows h => rw [if_neg (Nat.not_le.mpr h)]

/-- One operation after another, when the output only grows. -/
theorem checked_bind {f : Tokenizer → Except Raise Tokenizer} (h : Checked cfg t t' x) (hf : Checked cfg t' u (f t'))
    (hgrows : t'.dst.length ≤ u.dst.length) :
    Checked cfg t u (x.bind f) := by
  cases h with
  | overflows h => exact .overflows (h.trans_le hgrows)
  | fits h =>
    change Checked cfg t u (f t')
    generalize f t' = y at hf
    cases hf with
    | fits h' => exact .fits fun ht => h' (h ht)
    | overflows h' => exact .overflows h'

theorem dst_le_afterFlush (t : Tokenizer) : t.dst.length ≤ (afterFlush t).dst.length := by
  rw [afterFlush, List.length_append]
  exact Nat.le_add_right _ _

theorem afterMatch_dst (cfg : Config) (src : List Byte) (len off : Nat) (t : Tokenizer) :
    (afterMatch cfg src len off t).dst.length = (afterFlush t).dst.length + 3 := by
  rw [afterMatch, List.length_append, encode_matchRef_length]

theorem dst_le_afterLiteral (src : List Byte) (t : Tokenizer) : t.dst.length ≤ (afterLiteral src t).dst.length := by
  unfold afterLiteral
  split
  · exact dst_le_afterFlush (pushLiteral src t)
  · exact Nat.le_refl _

theorem dst_le_afterStep (cfg : Config) (src : List Byte) (t : Tokenizer) :
    t.dst.length ≤ (afterStep cfg src t).dst.length := by
  unfold afterStep
  split
  · rw [afterMatch_dst]
    exact (dst_le_afterFlush (searched cfg src t)).trans (Nat.le_add_right _ _)
  · exact dst_le_afterLiteral src (searched cfg src t)

theorem dst_le_afterSteps (fuel : Nat) (t : Tokenizer) : t.dst.length ≤ (afterSteps cfg src fuel t).dst.length := by
  induction fuel generalizing t with
  | zero => exact Nat.le_refl _
  | succ fuel ih =>
    unfold afterSteps
    split
    · exact (dst_le_afterStep cfg src t).trans (ih _)
    · exact Nat.le_refl _

theorem flushLits_checked (cfg : Config) (t : Tokenizer) : Checked cfg t (afterFlush t) (flushLits cfg t) := by
  obtain ⟨ht, lits, ip, dst⟩ := t
  cases lits with
  | nil =>
    have hsame : afterFlush { ht, litBuf := [], ip, dst } = { ht, litBuf := [], ip, dst } := by simp [afterFlush]
    rw [hsame]
    exact .fits id
  | cons b bs =>
    rcases appendTo_cases cfg 0 dst (encode (.lit (b :: bs))) with ⟨hc, he⟩ | ⟨hc, he⟩
    · simp only [flushLits, he]
      exact .fits fun _ => by simpa [afterFlush] using hc
    · simp only [flushLits, he]
      exact .overflows (by simpa [afterFlush] using hc)

theorem emitMatch_checked (cfg : Config) (src : List Byte) (len off : Nat) (t : Tokenizer) :
    Checked cfg t (afterMatch cfg src len off t) (emitMatch cfg src len off t) := by
  have hgrows : (afterFlush t).dst.length ≤ (afterMatch cfg src len off t).dst.length := by
    rw [afterMatch_dst]
    exact Nat.le_add_right _ _
  unfold emitMatch
  have hflush := flushLits_checked cfg t
  generalize flushLits cfg t = x at hflush
  cases hflush with
  | overflows h => exact .overflows (h.trans_le hgrows)
  | fits h =>
    rcases appendTo_cases cfg 0 (afterFlush t).dst
      (encode (.matchRef (BitVec.ofNat 7 (len - Config.minMatch)) (BitVec.ofNat 16 off))) with ⟨hc, he⟩ | ⟨hc, he⟩
    · simp only [he]
      exact .fits fun _ => by rwa [afterMatch_dst]
    · simp only [he]
      exact .overflows (by rwa [afterMatch_dst])

theorem takeLiteral_checked (cfg : Config) (src : List Byte) (t : Tokenizer) :
    Checked cfg t (afterLiteral src t) (takeLiteral cfg src t) := by
  have htake : takeLiteral cfg src t =
      if (pushLiteral src t).litBuf.length = 127 then flushLits cfg (pushLiteral src t) else .ok (pushLiteral src t) := rfl
  rw [htake, afterLiteral]
  split
  · exact checked_bind (f := flushLits cfg) (.fits id : Checked cfg t (pushLiteral src t) (.ok (pushLiteral src t)))
      (flushLits_checked cfg _) (dst_le_afterFlush _)
  · exact .fits id

/-- The search writes no output. -/
theorem checked_searched (h : Checked cfg (searched cfg src t) u x) : Checked cfg t u x := by
  cases h with
  | fits h => exact .fits h
  | overflows h => exact .overflows h

theorem tokenizerStep_checked (cfg : Config) (src : List Byte) (t : Tokenizer) :
    Checked cfg t (afterStep cfg src t) (tokenizerStep cfg src t) := by
  have hstep : tokenizerStep cfg src t =
      if 3 ≤ (searchMatch cfg src t).1 then
        emitMatch cfg src (searchMatch cfg src t).1 (searchMatch cfg src t).2.1 (searched cfg src t)
      else takeLiteral cfg src (searched cfg src t) := rfl
  rw [hstep, afterStep]
  split
  · exact checked_searched (emitMatch_checked cfg src _ _ _)
  · exact checked_searched (takeLiteral_checked cfg src _)

theorem tokenizerRun_succ (cfg : Config) (src : List Byte) (fuel : Nat) (t : Tokenizer) :
    tokenizerRun cfg src (fuel + 1) t =
      if t.ip < src.length then (tokenizerStep cfg src t).bind (tokenizerRun cfg src fuel) else .ok t := by
  rw [tokenizerRun]
  cases tokenizerStep cfg src t <;> rfl

theorem tokenize_bind (cfg : Config) (src : List Byte) :
    tokenize cfg src = (tokenizerRun cfg src src.length tokenizerStart).bind (flushLits cfg) := by
  rw [tokenize]
  cases tokenizerRun cfg src src.length tokenizerStart <;> rfl

theorem tokenizerRun_checked (fuel : Nat) (t : Tokenizer) :
    Checked cfg t (afterSteps cfg src fuel t) (tokenizerRun cfg src fuel t) := by
  induction fuel generalizing t with
  | zero => exact .fits id
  | succ fuel ih =>
    rw [afterSteps, tokenizerRun_succ]
    split
    · exact checked_bind (tokenizerStep_checked cfg src t) (ih _) (dst_le_afterSteps fuel _)
    · exact .fits id

theorem tokenize_checked (cfg : Config) (src : List Byte) :
    Checked cfg tokenizerStart (afterTokenize cfg src) (tokenize cfg src) := by
  rw [tokenize_bind]
  exact checked_bind (tokenizerRun_checked src.length tokenizerStart) (flushLits_checked cfg _) (dst_le_afterFlush _)

theorem tokenize_eq (cfg : Config) (src : List Byte) :
    tokenize cfg src =
      if (afterTokenize cfg src).dst.length ≤ cfg.bufCap.toNat then .ok (afterTokenize cfg src)
      else .error ⟨.lengthOverflow, 0⟩ :=
  checked_eq (tokenize_checked cfg src) (Nat.zero_le _)

/-- `Encode` is the tokenizer's stream when it fits, else the capacity error. -/
theorem matchEncode_eq (cfg : Config) (src : List Byte) :
    matchEncode cfg src =
      if (afterTokenize cfg src).dst.length ≤ cfg.bufCap.toNat then .ok (afterTokenize cfg src).dst
      else .error ⟨.lengthOverflow, 0⟩ := by
  rw [matchEncode, tokenize_eq]
  by_cases h : (afterTokenize cfg src).dst.length ≤ cfg.bufCap.toNat
  · rw [if_pos h, if_pos h]
  · rw [if_neg h, if_neg h]

/-! The stream does not depend on the capacity. -/

theorem enterSkipped_bufCap (cfg : Config) (cap : Word) (src : List Byte) (n j : Nat) (ht : HashTable) :
    enterSkipped { cfg with bufCap := cap } src n j ht = enterSkipped cfg src n j ht := by
  induction n generalizing j ht with
  | zero => rfl
  | succ n ih => exact ih _ _

theorem afterStep_bufCap (cfg : Config) (cap : Word) (src : List Byte) (t : Tokenizer) :
    afterStep { cfg with bufCap := cap } src t = afterStep cfg src t := by
  unfold afterStep afterMatch
  simp only [enterSkipped_bufCap]
  rfl

theorem afterSteps_bufCap (cfg : Config) (cap : Word) (src : List Byte) (fuel : Nat) (t : Tokenizer) :
    afterSteps { cfg with bufCap := cap } src fuel t = afterSteps cfg src fuel t := by
  induction fuel generalizing t with
  | zero => rfl
  | succ fuel ih => rw [afterSteps, afterSteps, afterStep_bufCap, ih]

theorem afterTokenize_bufCap (cfg : Config) (cap : Word) (src : List Byte) :
    afterTokenize { cfg with bufCap := cap } src = afterTokenize cfg src := by
  rw [afterTokenize, afterTokenize, afterSteps_bufCap]

end Sys2Proof.Machine
end

section
/-! What the tokenizer emits is the encoding of a token program that produces the input (spec/40_match_codec.md R149, R152,
spec/30_encoding.md R96). -/

namespace Sys2Proof.Machine

variable {cfg : Config} {src B T : List Byte} {t : Tokenizer} {prog prog' : List Instr} {p : Nat}

/-! Token programs put together. -/

theorem encodeAll_append (prog prog' : List Instr) : encodeAll (prog ++ prog') = encodeAll prog ++ encodeAll prog' :=
  List.flatMap_append

theorem encodeAll_singleton (i : Instr) : encodeAll [i] = encode i := List.flatMap_singleton _ _

theorem replay_append (prog prog' : List Instr) (out : List Byte) :
    replay (prog ++ prog') out = replay prog' (replay prog out) := by
  induction prog generalizing out with
  | nil => rfl
  | cons i prog ih => cases i <;> exact ih _

theorem replay_length (prog : List Instr) (out : List Byte) : (replay prog out).length = out.length + produced prog := by
  induction prog generalizing out with
  | nil => rfl
  | cons i prog ih =>
    cases i with
    | lit raw => rw [replay, ih, produced, List.length_append, Nat.add_assoc]
    | matchRef lm3 off => rw [replay, ih, produced, copyBytes_length, Nat.add_assoc, matchLength]
    | _ => exact ih out

/-- The program does not end with a `LIT` that another one may not follow. -/
def EndsClosed (prog : List Instr) : Prop := ∀ raw, prog.getLast? = some (.lit raw) → raw.length = 127

/-- A program goes on with another when no `LIT` that is short meets a `LIT`. -/
theorem emittable_append (h : emittable p prog) (h' : emittable (p + produced prog) prog')
    (hc : ∀ next tail, prog' = .lit next :: tail → EndsClosed prog) : emittable p (prog ++ prog') := by
  induction prog generalizing p with
  | nil => exact h'
  | cons i prog ih =>
    have hc' : ∀ next tail, prog' = .lit next :: tail → EndsClosed prog := fun next tail heq raw hraw =>
      hc next tail heq raw (by
        cases prog with
        | nil => cases hraw
        | cons j rest => rwa [List.getLast?_cons_cons])
    cases i with
    | lit raw =>
      obtain ⟨h1, h2, h3, h4⟩ := h
      rw [produced, ← Nat.add_assoc] at h'
      refine ⟨h1, h2, fun next tail hnext => ?_, ih h4 h' hc'⟩
      cases prog with
      | nil => exact hc next tail hnext raw rfl
      | cons j rest => exact h3 next rest (congrArg (· :: rest) (List.cons.inj hnext).1)
    | matchRef lm3 off =>
      obtain ⟨h1, h2, h3⟩ := h
      rw [produced, ← Nat.add_assoc] at h'
      exact ⟨h1, h2, ih h3 h' hc'⟩
    | _ => exact h.elim

/-- An emittable program has at most two bytes for each byte it produces (R149). -/
theorem encodeAll_length_le (h : emittable p prog) : (encodeAll prog).length ≤ 2 * produced prog := by
  induction prog generalizing p with
  | nil => exact Nat.zero_le _
  | cons i prog ih =>
    rw [encodeAll_cons, List.length_append]
    cases i with
    | lit raw =>
      obtain ⟨h1, -, -, h4⟩ := h
      have := ih h4
      rw [encode_lit_length, produced]
      omega
    | matchRef lm3 off =>
      obtain ⟨-, -, h3⟩ := h
      have := ih h3
      rw [encode_matchRef_length, produced]
      omega
    | _ => exact h.elim

/-! What a search finds, and its copy. -/

theorem searchMatch_short (h : src.length < t.ip + 3) : searchMatch cfg src t = (0, 0, t.ht) := by
  rw [searchMatch_eq, if_neg (Nat.not_le.mpr h)]

theorem searchMatch_empty (h : t.ip + 3 ≤ src.length) (hs : t.ht.slot (hashAt cfg src t.ip) = none) :
    searchMatch cfg src t = (0, 0, t.ht.set (hashAt cfg src t.ip) (BitVec.ofNat 32 t.ip)) := by
  rw [searchMatch_eq, if_pos h, hs]

theorem searchMatch_far {cand : Word} (h : t.ip + 3 ≤ src.length) (hs : t.ht.slot (hashAt cfg src t.ip) = some cand)
    (hd : ¬(1 ≤ t.ip - cand.toNat ∧ t.ip - cand.toNat ≤ 65535)) :
    searchMatch cfg src t = (0, 0, t.ht.set (hashAt cfg src t.ip) (BitVec.ofNat 32 t.ip)) := by
  rw [searchMatch_eq, if_pos h, hs]
  exact if_neg hd

theorem searchMatch_candidate {cand : Word} (h : t.ip + 3 ≤ src.length)
    (hs : t.ht.slot (hashAt cfg src t.ip) = some cand) (hd : 1 ≤ t.ip - cand.toNat ∧ t.ip - cand.toNat ≤ 65535) :
    searchMatch cfg src t =
      (extendMatch src cand.toNat t.ip (min 130 (src.length - t.ip)) 0, t.ip - cand.toNat,
        t.ht.set (hashAt cfg src t.ip) (BitVec.ofNat 32 t.ip)) := by
  rw [searchMatch_eq, if_pos h, hs]
  exact if_pos hd

/-- The bytes a search counted are equal at their distance (R144). -/
theorem searchMatch_equal {k : Nat} (hk : k < (searchMatch cfg src t).1) :
    src.getD (t.ip - (searchMatch cfg src t).2.1 + k) 0 = src.getD (t.ip + k) 0 := by
  by_cases h : t.ip + 3 ≤ src.length
  · cases hs : t.ht.slot (hashAt cfg src t.ip) with
    | none =>
      rw [searchMatch_empty h hs] at hk
      cases hk
    | some cand =>
      by_cases hd : 1 ≤ t.ip - cand.toNat ∧ t.ip - cand.toNat ≤ 65535
      · rw [searchMatch_candidate h hs hd] at hk ⊢
        rw [show t.ip - (t.ip - cand.toNat) = cand.toNat by omega]
        exact extendMatch_equal src cand.toNat t.ip _ 0 k (Nat.zero_le k) hk
      · rw [searchMatch_far h hs hd] at hk
        cases hk
  · rw [searchMatch_short (Nat.not_le.mp h)] at hk
    cases hk

/-- Copying from a distance at which the input repeats itself goes on with the input (R135). -/
theorem copyBytes_take {ip len off : Nat} (h1 : 1 ≤ off) (h2 : off ≤ ip) (hlen : ip + len ≤ src.length)
    (heq : ∀ k, k < len → src.getD (ip - off + k) 0 = src.getD (ip + k) 0) :
    copyBytes off len (src.take ip) = src.take (ip + len) := by
  induction len generalizing ip with
  | zero => rfl
  | succ len ih =>
    have hip : ip < src.length := by omega
    have hlast : (src.take ip).getD ((src.take ip).length - off) 0 = src[ip] := by
      have h0 : src.getD (ip - off) 0 = src.getD ip 0 := heq 0 (Nat.succ_pos len)
      rw [List.getD_eq_getElem _ _ hip, List.getD_eq_getElem _ _ (by omega)] at h0
      rw [List.length_take_of_le (Nat.le_of_lt hip), List.getD_eq_getElem _ _ (by rw [List.length_take]; omega),
        List.getElem_take, h0]
    rw [copyBytes, hlast, List.take_append_getElem hip, ih (by omega) (by omega), Nat.add_right_comm, Nat.add_assoc]
    intro k hk
    have hk' := heq (k + 1) (by omega)
    rwa [show ip + 1 - off + k = ip - off + (k + 1) by omega, Nat.add_right_comm, Nat.add_assoc]

/-! The invariant of the tokenizer. -/

/-- What stands in the destination is the encoding of `prog`, which may be emitted, and with the pending run it produces the
input up to `IP`. -/
structure Traces (src : List Byte) (t : Tokenizer) (prog : List Instr) : Prop where
  dst : t.dst = encodeAll prog
  legal : emittable 0 prog
  replayed : replay prog [] ++ t.litBuf = src.take t.ip
  inside : t.ip ≤ src.length

/-- Between two steps no short run has been written last, and the pending one is not full. -/
def BetweenSteps (src : List Byte) (t : Tokenizer) : Prop :=
  ∃ prog, Traces src t prog ∧ EndsClosed prog ∧ t.litBuf.length ≤ 126

theorem traces_produced (h : Traces src t prog) : produced prog + t.litBuf.length = t.ip := by
  have hlen := congrArg List.length h.replayed
  have hin := h.inside
  rw [List.length_append, replay_length, List.length_take, List.length_nil] at hlen
  omega

theorem traces_afterFlush (h : Traces src t prog) (hc : EndsClosed prog) (hl : t.litBuf.length ≤ 127) :
    ∃ prog', Traces src (afterFlush t) prog' ∧ (t.litBuf.length = 127 → EndsClosed prog') := by
  by_cases hnil : t.litBuf = []
  · refine ⟨prog, ⟨?_, h.legal, ?_, h.inside⟩, fun _ => hc⟩
    · rw [afterFlush, if_pos hnil, List.append_nil, h.dst]
    · have hreplayed := h.replayed
      rwa [hnil] at hreplayed
  · have hpos := List.length_pos_iff.mpr hnil
    refine ⟨prog ++ [.lit t.litBuf], ⟨?_, ?_, ?_, h.inside⟩, fun hfull raw hraw => ?_⟩
    · rw [afterFlush, if_neg hnil, encodeAll_append, encodeAll_singleton, h.dst]
    · exact emittable_append h.legal ⟨hpos, hl, (fun _ _ hnext => nomatch hnext), trivial⟩ fun _ _ _ => hc
    · rw [replay_append]
      exact (List.append_nil _).trans h.replayed
    · rw [List.getLast?_concat] at hraw
      cases hraw
      exact hfull

/-- A found match behind a written run (R145). -/
theorem traces_afterMatch {len off : Nat} (h : Traces src (afterFlush t) prog) (hlen : 3 ≤ len) (hmax : len ≤ 130)
    (hin : t.ip + len ≤ src.length) (h1 : 1 ≤ off) (h2 : off ≤ t.ip) (hoff : off ≤ 65535)
    (heq : ∀ k, k < len → src.getD (t.ip - off + k) 0 = src.getD (t.ip + k) 0) :
    Traces src (afterMatch cfg src len off t)
      (prog ++ [Instr.matchRef (BitVec.ofNat 7 (len - 3)) (BitVec.ofNat 16 off)]) := by
  have hlength : matchLength (BitVec.ofNat 7 (len - 3)) = len := by
    rw [matchLength, BitVec.toNat_ofNat, Config.minMatch]
    omega
  have hoffset : (BitVec.ofNat 16 off).toNat = off := by
    rw [BitVec.toNat_ofNat]
    omega
  have hproduced : produced prog = t.ip := traces_produced h
  have hreplayed : replay prog [] = src.take t.ip := (List.append_nil _).symm.trans h.replayed
  refine ⟨?_, ?_, ?_, hin⟩
  · rw [afterMatch, encodeAll_append, encodeAll_singleton, h.dst]
  · refine emittable_append h.legal ⟨?_, ?_, trivial⟩ fun _ _ hnext => nomatch hnext
    · rwa [hoffset]
    · rw [hoffset, hproduced]
      omega
  · rw [replay_append, hreplayed, replay, replay, hlength, hoffset, copyBytes_take h1 h2 hin heq]
    exact List.append_nil _

theorem traces_pushLiteral (h : Traces src t prog) (hip : t.ip < src.length) : Traces src (pushLiteral src t) prog := by
  refine ⟨h.dst, h.legal, ?_, hip⟩
  rw [pushLiteral, ← List.append_assoc, h.replayed, List.getD_eq_getElem _ _ hip, List.take_append_getElem hip]

theorem traces_searched (h : Traces src t prog) : Traces src (searched cfg src t) prog :=
  ⟨h.dst, h.legal, h.replayed, h.inside⟩

theorem betweenSteps_afterLiteral (h : BetweenSteps src t) (hip : t.ip < src.length) :
    BetweenSteps src (afterLiteral src t) := by
  obtain ⟨prog, htr, hc, hl⟩ := h
  have htr := traces_pushLiteral htr hip
  have hlen : (pushLiteral src t).litBuf.length = t.litBuf.length + 1 := List.length_append
  unfold afterLiteral
  split
  · rename_i hfull
    obtain ⟨prog', htr', hc'⟩ := traces_afterFlush htr hc (by omega)
    exact ⟨prog', htr', hc' hfull, Nat.zero_le _⟩
  · exact ⟨prog, htr, hc, by omega⟩

theorem betweenSteps_afterStep (h : BetweenSteps src t) (hip : t.ip < src.length) :
    BetweenSteps src (afterStep cfg src t) := by
  obtain ⟨prog, htr, hc, hl⟩ := h
  have htr : Traces src (searched cfg src t) prog := traces_searched htr
  unfold afterStep
  split
  · rename_i hlen
    obtain ⟨hmax, hin, hfound⟩ := searchMatch_bounds cfg src t (Nat.le_of_lt hip)
    obtain ⟨h1, hoff, h2⟩ := hfound (by omega)
    have heq : ∀ k, k < (searchMatch cfg src t).1 →
        src.getD (t.ip - (searchMatch cfg src t).2.1 + k) 0 = src.getD (t.ip + k) 0 := fun k hk => searchMatch_equal hk
    obtain ⟨prog', htr', -⟩ := traces_afterFlush htr hc (Nat.le_succ_of_le hl)
    refine ⟨_, traces_afterMatch htr' hlen hmax hin h1 h2 hoff heq, fun raw hraw => ?_, Nat.zero_le _⟩
    rw [List.getLast?_concat] at hraw
    cases hraw
  · exact betweenSteps_afterLiteral ⟨prog, htr, hc, hl⟩ hip

theorem betweenSteps_start (src : List Byte) : BetweenSteps src tokenizerStart :=
  ⟨[], ⟨rfl, trivial, rfl, Nat.zero_le _⟩, (fun _ h => nomatch h), Nat.zero_le _⟩

theorem betweenSteps_afterSteps (fuel : Nat) (h : BetweenSteps src t) : BetweenSteps src (afterSteps cfg src fuel t) := by
  induction fuel generalizing t with
  | zero => exact h
  | succ fuel ih =>
    unfold afterSteps
    split
    · rename_i hip
      exact ih (betweenSteps_afterStep h hip)
    · exact h

/-- The whole stream is the encoding of an emittable program that produces the input up to `IP`. -/
theorem exists_traces (cfg : Config) (src : List Byte) : ∃ prog, Traces src (afterTokenize cfg src) prog := by
  obtain ⟨prog, htr, hc, hl⟩ := betweenSteps_afterSteps (cfg := cfg) src.length (betweenSteps_start src)
  obtain ⟨prog', htr', -⟩ := traces_afterFlush htr hc (Nat.le_succ_of_le hl)
  exact ⟨prog', htr'⟩

theorem afterTokenize_length_le (cfg : Config) (src : List Byte) :
    (afterTokenize cfg src).dst.length ≤ 2 * src.length := by
  obtain ⟨prog, htr⟩ := exists_traces cfg src
  have hle := encodeAll_length_le htr.legal
  have hproduced := traces_produced htr
  have hin := htr.inside
  rw [htr.dst]
  omega

/-- What `Encode` answers is the encoding of an emittable program that produces the input (R149, R152). -/
theorem matchEncode_ok (h : matchEncode cfg B = .ok T) :
    ∃ prog, T = encodeAll prog ∧ emittable 0 prog ∧ replay prog [] = B := by
  rw [matchEncode] at h
  cases ht : tokenize cfg B with
  | error r => simp [ht] at h
  | ok t =>
    obtain rfl : t.dst = T := by simpa [ht] using h
    obtain rfl : t = afterTokenize cfg B := checked_ok (tokenize_checked cfg B) ht
    obtain ⟨prog, htr⟩ := exists_traces cfg B
    refine ⟨prog, htr.dst, htr.legal, ?_⟩
    have hreplayed := htr.replayed
    rwa [tokenize_ok_ip ht, tokenize_ok_litBuf ht, List.append_nil, List.take_length] at hreplayed

theorem produced_of_replay (h : replay prog [] = B) : produced prog = B.length := by
  rw [← h, replay_length]
  exact (Nat.zero_add _).symm

/-! `MENC`. -/

theorem exec_menc (s : State) :
    exec .menc s =
      .next (bodyOf (tokenize Config.block (inBytes s)) (startOut s)
        (fun t => storeTokenizer t { startOut s with out := t.dst })).settle := rfl

/-- `MENC` ends well when `Encode` does, with its stream in `OUT`. -/
theorem exec_menc_ok {s : State} (h : matchEncode Config.block (inBytes s) = .ok T) :
    ∃ ht, exec .menc s =
      .next { s with out := T, ht := ht, litBuf := [], ip := s.inLen, status := .done, run := .fetch } := by
  rw [matchEncode] at h
  cases ht : tokenize Config.block (inBytes s) with
  | error r => simp [ht] at h
  | ok t =>
    obtain rfl : t.dst = T := by simpa [ht] using h
    have hip : BitVec.ofNat 32 t.ip = s.inLen := by
      rw [tokenize_ok_ip ht, inBytes_length, BitVec.ofNat_toNat, BitVec.setWidth_eq]
    have hleft : exec .menc s =
        .next { s with
          out := t.dst
          ht := t.ht
          litBuf := t.litBuf
          ip := BitVec.ofNat 32 t.ip
          status := .done
          run := .fetch } := by
      rw [exec_menc, ht]
      rfl
    rw [hip, tokenize_ok_litBuf ht] at hleft
    exact ⟨t.ht, hleft⟩

/-- Else it aborts with the capacity error. -/
theorem exec_menc_error {s : State} {r : Raise} (h : matchEncode Config.block (inBytes s) = .error r) :
    Aborts .menc s .lengthOverflow 0 := by
  rw [matchEncode] at h
  cases ht : tokenize Config.block (inBytes s) with
  | ok t => simp [ht] at h
  | error r =>
    obtain rfl := tokenize_error ht
    exact ⟨_, by rw [exec_menc, ht]; rfl, abort_aborts .lengthOverflow 0 s⟩

/-- Settles O22: the stream has at most two bytes for each of the input's, and the capacity decides on its length alone. -/
theorem mencCompletes : Obligations.MencCompletes := by
  unfold Obligations.MencCompletes
  refine ⟨fun s hs => ?_, fun s => ?_, fun cfg cap B T h => ?_⟩
  · have hlen := afterTokenize_length_le Config.block (inBytes s)
    rw [inBytes_length] at hlen
    have hT := (matchEncode_eq Config.block (inBytes s)).trans (if_pos (hlen.trans hs))
    obtain ⟨ht, hexec⟩ := exec_menc_ok hT
    exact ⟨_, ht, hT, hlen, hexec⟩
  · cases hm : matchEncode Config.block (inBytes s) with
    | ok T => exact exec_menc_ok hm
    | error r => exact exec_menc_error hm
  · rw [matchEncode_eq, afterTokenize_bufCap] at h
    rw [matchEncode_eq]
    split at h
    · cases h
      rfl
    · cases h

/-- Settles O24: the stream is an emittable program that produces the input, and the detokenizer replays it. -/
theorem decodeOfEncodeRestoresBytes : Obligations.DecodeOfEncodeRestoresBytes := by
  unfold Obligations.DecodeOfEncodeRestoresBytes
  have hdecode : ∀ (cfg : Config) (B T : List Byte), B.length ≤ cfg.bufCap.toNat → matchEncode cfg B = .ok T →
      matchDecode cfg T = .ok B := by
    intro cfg B T hB h
    obtain ⟨prog, rfl, hlegal, hreplay⟩ := matchEncode_ok h
    rw [matchDecode_encodeAll hlegal (by rwa [produced_of_replay hreplay]), hreplay]
  refine ⟨hdecode, fun s t u ht hdone hin => ?_⟩
  cases hm : matchEncode Config.block (inBytes s) with
  | error r =>
    obtain ⟨t', ht', ha⟩ := exec_menc_error hm
    cases ht.symm.trans ht'
    cases hdone.symm.trans ha.status
  | ok T =>
    obtain ⟨htable, ht'⟩ := exec_menc_ok hm
    cases ht.symm.trans ht'
    have hrestored := hdecode Config.block (inBytes s) T (inBytes_length_le s) hm
    have hmdec := mdecAnswersDecode u
    rw [hin, hrestored] at hmdec
    exact ⟨_, hmdec, rfl, rfl⟩

end Sys2Proof.Machine
end

section
/-! The tokenizer's step and its example (spec/40_match_codec.md R142 to R149, R153). -/

namespace Sys2Proof.Machine

variable {cfg : Config} {src : List Byte} {t : Tokenizer} {b : Byte}

/-! The search. -/

/-- With fewer than three bytes left nothing is searched; else the slot of the three bytes is read and holds `IP` (R142). -/
theorem searchMatch_table (cfg : Config) (src : List Byte) (t : Tokenizer) :
    (searchMatch cfg src t).2.2 =
      if t.ip + 3 ≤ src.length then t.ht.set (hashAt cfg src t.ip) (BitVec.ofNat 32 t.ip) else t.ht := by
  by_cases h : t.ip + 3 ≤ src.length
  · rw [if_pos h]
    cases hs : t.ht.slot (hashAt cfg src t.ip) with
    | none => rw [searchMatch_empty h hs]
    | some cand =>
      by_cases hd : 1 ≤ t.ip - cand.toNat ∧ t.ip - cand.toNat ≤ 65535
      · rw [searchMatch_candidate h hs hd]
      · rw [searchMatch_far h hs hd]
  · rw [if_neg h, searchMatch_short (Nat.not_le.mp h)]

/-- The extension is the longest there is inside its limit (R144). -/
theorem searchMatch_longest {cand : Word} (h : t.ip + 3 ≤ src.length)
    (hs : t.ht.slot (hashAt cfg src t.ip) = some cand) (hd : 1 ≤ t.ip - cand.toNat ∧ t.ip - cand.toNat ≤ 65535) :
    let len := (searchMatch cfg src t).1
    (searchMatch cfg src t).2.1 = t.ip - cand.toNat ∧ len ≤ min 130 (src.length - t.ip) ∧
      (∀ k, k < len → src.getD (cand.toNat + k) 0 = src.getD (t.ip + k) 0) ∧
      (len < min 130 (src.length - t.ip) → src.getD (cand.toNat + len) 0 ≠ src.getD (t.ip + len) 0) := by
  rw [searchMatch_candidate h hs hd]
  exact ⟨rfl, extendMatch_le src _ _ _ 0, fun k hk => extendMatch_equal src _ _ _ 0 k (Nat.zero_le k) hk,
    extendMatch_stops src _ _ _ 0⟩

/-! The step. -/

theorem afterFlush_dst_le (t : Tokenizer) : (afterFlush t).dst.length ≤ t.dst.length + (t.litBuf.length + 1) := by
  rw [afterFlush, List.length_append]
  split
  · exact Nat.le_add_right _ _
  · exact Nat.le_refl _

theorem pushLiteral_litBuf (src : List Byte) (t : Tokenizer) :
    (pushLiteral src t).litBuf = t.litBuf ++ [src.getD t.ip 0] := rfl

theorem afterLiteral_dst_le (src : List Byte) (t : Tokenizer) :
    (afterLiteral src t).dst.length ≤ t.dst.length + (t.litBuf.length + 2) := by
  unfold afterLiteral
  split
  · have hle := afterFlush_dst_le (pushLiteral src t)
    rwa [pushLiteral_litBuf, List.length_append] at hle
  · exact Nat.le_add_right _ _

/-- With room for the pending run and a match the step succeeds. -/
theorem tokenizerStep_fits (h : t.dst.length + t.litBuf.length + 4 ≤ cfg.bufCap.toNat) :
    tokenizerStep cfg src t = .ok (afterStep cfg src t) := by
  have hroom : (afterStep cfg src t).dst.length ≤ t.dst.length + t.litBuf.length + 4 := by
    unfold afterStep
    split
    · have hflush : _ ≤ t.dst.length + (t.litBuf.length + 1) := afterFlush_dst_le (searched cfg src t)
      rw [afterMatch_dst]
      omega
    · have hlit : _ ≤ t.dst.length + (t.litBuf.length + 2) := afterLiteral_dst_le src (searched cfg src t)
      omega
  rw [checked_eq (tokenizerStep_checked cfg src t) (by omega), if_pos (hroom.trans h)]

/-- The table behind a match: the skipped positions are entered in order, or the table stays (R145, R148). -/
theorem afterMatch_ht {len off : Nat} (hlen : 1 ≤ len) :
    (cfg.insertSkipped = false → (afterMatch cfg src len off t).ht = t.ht) ∧
    (cfg.insertSkipped = true →
      let skipped := fun j => t.ip < j ∧ j < t.ip + len ∧ j + 3 ≤ src.length
      (∀ i, (∀ j, skipped j → hashAt cfg src j ≠ i) → (afterMatch cfg src len off t).ht.slot i = t.ht.slot i) ∧
      (∀ j, skipped j → (∀ j', skipped j' → j < j' → hashAt cfg src j' ≠ hashAt cfg src j) →
        (afterMatch cfg src len off t).ht.slot (hashAt cfg src j) = some (BitVec.ofNat 32 j))) := by
  refine ⟨fun hskip => ?_, fun hskip => ?_⟩
  · rw [afterMatch, hskip]
    rfl
  · have hht : (afterMatch cfg src len off t).ht = enterSkipped cfg src (len - 1) (t.ip + 1) t.ht := by
      rw [afterMatch, hskip]
      rfl
    obtain ⟨hother, hlast⟩ := enterSkipped_slot cfg src (len - 1) (t.ip + 1) t.ht
    rw [hht]
    refine ⟨fun i hi => hother i fun q h1 h2 h3 => hi q ⟨h1, by omega, h3⟩, fun j hj hj' => ?_⟩
    obtain ⟨h1, h2, h3⟩ := hj
    exact hlast j h1 (by omega) h3 fun q q1 q2 q3 => hj' q ⟨by omega, by omega, q3⟩ q1

/-- One literal taken: the run grows by the byte at `IP`, and is written when it has 127 bytes (R146). -/
theorem afterLiteral_dst (src : List Byte) (t : Tokenizer) :
    (afterLiteral src t).ip = t.ip + 1 ∧ (afterLiteral src t).ht = t.ht ∧
      (let run := t.litBuf ++ [src.getD t.ip 0]
      if run.length = 127 then (afterLiteral src t).dst = t.dst ++ encode (.lit run) ∧ (afterLiteral src t).litBuf = []
      else (afterLiteral src t).dst = t.dst ∧ (afterLiteral src t).litBuf = run) := by
  dsimp only
  rw [afterLiteral, pushLiteral_litBuf]
  split
  · refine ⟨rfl, rfl, ?_, rfl⟩
    rw [afterFlush, pushLiteral_litBuf, if_neg (List.concat_ne_nil _ _)]
    rfl
  · exact ⟨rfl, rfl, rfl, rfl⟩

/-! Ten equal bytes (R153). -/

/-- The tokenizer on ten equal bytes after the first: the byte is pending and its position stands in the table. -/
def tenBytesSecond (cfg : Config) (b : Byte) : Tokenizer :=
  { ht := HashTable.cleared.set (hashAt cfg (List.replicate 10 b) 0) 0, litBuf := [b], ip := 1, dst := [] }

theorem afterStep_tenBytes_first : afterStep cfg (List.replicate 10 b) tokenizerStart = tenBytesSecond cfg b := by
  have hs := searchMatch_empty (cfg := cfg) (src := List.replicate 10 b) (t := tokenizerStart)
    (by decide : 0 + 3 ≤ 10) rfl
  rw [afterStep, searched, hs]
  rfl

theorem searchMatch_tenBytes :
    (searchMatch cfg (List.replicate 10 b) (tenBytesSecond cfg b)).1 = 9 ∧
      (searchMatch cfg (List.replicate 10 b) (tenBytesSecond cfg b)).2.1 = 1 := by
  have hslot : (tenBytesSecond cfg b).ht.slot (hashAt cfg (List.replicate 10 b) (tenBytesSecond cfg b).ip) = some 0 := by
    have hhash : hashAt cfg (List.replicate 10 b) (tenBytesSecond cfg b).ip = hashAt cfg (List.replicate 10 b) 0 := rfl
    rw [hhash]
    exact (slot_set _ _ _ _).trans (if_pos rfl)
  obtain ⟨hoff, hle, -, hstops⟩ := searchMatch_longest (src := List.replicate 10 b) (by decide : 1 + 3 ≤ 10) hslot
    (by decide : 1 ≤ 1 - 0 ∧ 1 - 0 ≤ 65535)
  have hle : (searchMatch cfg (List.replicate 10 b) (tenBytesSecond cfg b)).1 ≤ 9 := hle
  have hbyte : ∀ k, k < 10 → (List.replicate 10 b).getD k 0 = b := fun k hk => List.getD_replicate b hk
  refine ⟨hle.antisymm (Nat.not_lt.mp fun hlt => hstops hlt ?_), hoff⟩
  exact (hbyte (0 + _) (by omega)).trans (hbyte (1 + _) (by omega)).symm

theorem afterStep_tenBytes_second :
    (afterStep cfg (List.replicate 10 b) (tenBytesSecond cfg b)).dst = [0x01, b, 0x86, 0x00, 0x01] ∧
      (afterStep cfg (List.replicate 10 b) (tenBytesSecond cfg b)).litBuf = [] ∧
      (afterStep cfg (List.replicate 10 b) (tenBytesSecond cfg b)).ip = 10 := by
  obtain ⟨hlen, hoff⟩ := searchMatch_tenBytes (cfg := cfg) (b := b)
  rw [afterStep, hlen, hoff]
  exact ⟨rfl, rfl, rfl⟩

theorem afterSteps_succ {fuel : Nat} (h : t.ip < src.length) :
    afterSteps cfg src (fuel + 1) t = afterSteps cfg src fuel (afterStep cfg src t) := if_pos h

theorem afterSteps_end (fuel : Nat) (h : src.length ≤ t.ip) : afterSteps cfg src fuel t = t := by
  cases fuel with
  | zero => rfl
  | succ fuel => rw [afterSteps, if_neg (Nat.not_lt.mpr h)]

theorem afterTokenize_tenBytes : (afterTokenize cfg (List.replicate 10 b)).dst = [0x01, b, 0x86, 0x00, 0x01] := by
  obtain ⟨hdst, hlits, hip⟩ := afterStep_tenBytes_second (cfg := cfg) (b := b)
  have hsteps : afterSteps cfg (List.replicate 10 b) 10 tokenizerStart =
      afterStep cfg (List.replicate 10 b) (tenBytesSecond cfg b) := by
    rw [afterSteps_succ (by decide : 0 < 10), afterStep_tenBytes_first, afterSteps_succ (by decide : 1 < 10),
      afterSteps_end _ (by rw [hip, List.length_replicate])]
  have htokenize : afterTokenize cfg (List.replicate 10 b) =
      afterFlush (afterSteps cfg (List.replicate 10 b) 10 tokenizerStart) := rfl
  rw [htokenize, hsteps, afterFlush, if_pos hlits, hdst, List.append_nil]

/-- Settles O23: the stream is the encoding of the program the tokenizer traces, the example is run step by step, and the
clauses of the search and the step are the lemmas about them. -/
theorem encodeEmitsLegalStream : Obligations.EncodeEmitsLegalStream := by
  unfold Obligations.EncodeEmitsLegalStream
  refine ⟨fun cfg B T h => ?_, fun cfg b hcap => ?_, fun cfg src t hip => ?_⟩
  · obtain ⟨prog, rfl, hlegal, hreplay⟩ := matchEncode_ok h
    have hproduced := produced_of_replay hreplay
    exact ⟨prog, rfl, hlegal, hproduced, hproduced ▸ encodeAll_length_le hlegal⟩
  · rw [matchEncode_eq, afterTokenize_tenBytes]
    exact if_pos hcap
  · dsimp only
    refine ⟨fun hshort => ?_, fun hthree => ⟨fun i => ?_, ?_⟩, fun hroom => ⟨_, tokenizerStep_fits hroom⟩,
      fun t' ht' => ?_⟩
    · rw [searchMatch_short hshort]
      exact ⟨rfl, rfl⟩
    · rw [searchMatch_table, if_pos hthree, slot_set]
    · split
      · rename_i hs
        rw [searchMatch_empty hthree hs]
      · rename_i cand hs
        split
        · rename_i hd
          exact searchMatch_longest hthree hs hd
        · rename_i hd
          rw [searchMatch_far hthree hs hd]
    · obtain rfl := checked_ok (tokenizerStep_checked cfg src t) ht'
      rw [afterStep]
      split
      · rename_i hlen
        exact ⟨rfl, rfl, rfl, afterMatch_ht (t := searched cfg src t) (Nat.le_of_add_left_le hlen)⟩
      · exact afterLiteral_dst src (searched cfg src t)

end Sys2Proof.Machine
end

section
/-! The entropy adapter (spec/41_entropy_adapter.md R170 to R176): what its two requests answer, and the commands that deliver
the answer into `OUT`. -/

namespace Sys2Proof.Machine

variable {cfg : Config} {x y z : List Byte} {size : Nat} {s : State}

/-! The two requests, by the coder's answer. -/

theorem entropyEncode_none (h : cfg.entropyEnc x = none) : entropyEncode cfg x = .error ⟨.entropyEncodeFailed, 0⟩ := by
  rw [entropyEncode, h]

theorem entropyEncode_some (h : cfg.entropyEnc x = some y) : entropyEncode cfg x = .ok y := by
  rw [entropyEncode, h]

theorem entropyDecode_tooLong (h : size > cfg.bufCap.toNat) : entropyDecode cfg y size = .error ⟨.lengthOverflow, size⟩ :=
  if_pos h

theorem entropyDecode_none (hsize : ¬ size > cfg.bufCap.toNat) (h : entropyDec cfg y size = none) :
    entropyDecode cfg y size = .error ⟨.entropyDecodeFailed, size⟩ := by
  rw [entropyDecode, if_neg hsize, h]

theorem entropyDecode_some (hsize : ¬ size > cfg.bufCap.toNat) (h : entropyDec cfg y size = some z) :
    entropyDecode cfg y size = .ok z := by
  rw [entropyDecode, if_neg hsize, h]

/-! The delivery of an answer, which `EENC` and `EDEC` share. -/

/-- The body of a command that empties `OUT` and appends an answer to it, or raises the answer's error (R174, R176). -/
def deliver (s : State) : Except Raise (List Byte) → Body
  | .error r => .raised r (startOut s)
  | .ok v => appendOut Config.block 0 v (startOut s)

theorem exec_eenc (s : State) : exec .eenc s = .next (deliver s (entropyEncode Config.block (inBytes s))).settle := rfl

theorem exec_edec (s : State) :
    exec .edec s = .next (deliver s (entropyDecode Config.block (inBytes s) s.expLen.toNat)).settle := rfl

theorem settle_deliver_error (r : Raise) (s : State) : (deliver s (.error r)).settle = abort r s := rfl

/-- `OUT` is empty before the answer, so the answer's own length decides whether it fits. -/
theorem settle_deliver_overflow (h : y.length > Config.block.bufCap.toNat) :
    (deliver s (.ok y)).settle = abort ⟨.lengthOverflow, 0⟩ s := by
  obtain ⟨hfits, -⟩ | ⟨-, happend⟩ := appendOut_cases Config.block 0 y (startOut s)
  · rw [startOut_out, List.length_nil, Nat.zero_add] at hfits
    exact absurd h (Nat.not_lt.mpr hfits)
  · rw [deliver, happend]
    rfl

theorem settle_deliver_fits (h : y.length ≤ Config.block.bufCap.toNat) :
    (deliver s (.ok y)).settle = { s with out := y, status := .done, run := .fetch } := by
  rw [deliver, appendOut_fits (by rwa [startOut_out, List.length_nil, Nat.zero_add])]
  rfl

theorem aborts_of_exec {i : Instr} {c : Cause} {info : Nat} (h : exec i s = .next (abort ⟨c, info⟩ s)) :
    Aborts i s c info :=
  ⟨_, h, abort_aborts c info s⟩

/-- Settles O25, by the coder's answer and whether it fits. -/
theorem eencDeliversCodersAnswer : Obligations.EencDeliversCodersAnswer := by
  unfold Obligations.EencDeliversCodersAnswer
  intro s
  split
  · rename_i hnone
    exact aborts_of_exec (by rw [exec_eenc, entropyEncode_none hnone, settle_deliver_error])
  · rename_i y hsome
    split
    · rename_i hover
      exact aborts_of_exec (by rw [exec_eenc, entropyEncode_some hsome, settle_deliver_overflow hover])
    · rename_i hfits
      rw [exec_eenc, entropyEncode_some hsome, settle_deliver_fits (Nat.not_lt.mp hfits)]

/-- Settles O26: an answer has the size asked (ENT-LEN), which the request has found to fit. -/
theorem edecDeliversExactSize : Obligations.EdecDeliversExactSize := by
  unfold Obligations.EdecDeliversExactSize
  intro s
  split
  · rename_i hlong
    exact aborts_of_exec (by rw [exec_edec, entropyDecode_tooLong hlong, settle_deliver_error])
  · rename_i hsize
    split
    · rename_i hnone
      exact aborts_of_exec (by rw [exec_edec, entropyDecode_none hsize hnone, settle_deliver_error])
    · rename_i z hsome
      have hlen := entropyDec_length hsome
      refine ⟨hlen, ?_⟩
      rw [exec_edec, entropyDecode_some hsize hsome, settle_deliver_fits (hlen ▸ Nat.not_lt.mp hsize)]

end Sys2Proof.Machine
end

section
/-! The keystream cipher (spec/42_keystream_cipher.md R190 to R194): the byte `KSX` writes at each index, the inverse and the
period of the transform, and the empty key, which every command that runs the cipher on `IN` rejects first. -/

namespace Sys2Proof.Machine

variable {cfg : Config} {s : State}

/-! The transform. -/

/-- R192: the key term has the period of the key, the position term the period 256. -/
theorem ksByte_add_of_dvd {key : List Byte} {n : Nat} (hkey : key.length ∣ n) (hpos : 256 ∣ n) (i : Nat) :
    ksByte key (i + n) = ksByte key i := by
  have hindex : (i + n) % key.length = i % key.length := by
    obtain ⟨c, rfl⟩ := hkey
    exact Nat.add_mul_mod_self_left i key.length c
  have hlow : BitVec.ofNat 8 (i + n) = BitVec.ofNat 8 i := by
    obtain ⟨c, rfl⟩ := hpos
    exact BitVec.eq_of_toNat_eq (Nat.add_mul_mod_self_left i 256 c)
  rw [ksByte_eq, ksByte_eq, hindex, hlow]

/-- R194: each byte is combined twice with the same keystream byte. -/
theorem keystream_keystream (key data : List Byte) : keystream key (keystream key data) = data := by
  refine List.ext_getElem? fun i => ?_
  rw [keystream_getElem?, keystream_getElem?, Option.map_map]
  have hcancel : (fun b : Byte => b ^^^ ksByte key i) ∘ (fun b => b ^^^ ksByte key i) = id := by
    funext b
    simp
  rw [hcancel, Option.map_id, id]

/-! The transform of `IN` with the key of the state. -/

theorem keyBytes_of_klen_zero (h : s.klen = 0) : keyBytes s = [] :=
  List.length_eq_zero_iff.mp (by rw [keyBytes_length, h]; rfl)

theorem klen_ne_zero_iff : s.klen ≠ 0 ↔ 0 < s.klen.toNat := by
  bv_omega

/-- R191: the key byte by the full index, the position term by its low eight bits. -/
theorem ksByte_keyBytes (h : s.klen ≠ 0) (i : Nat) :
    ksByte (keyBytes s) i = readKey s (i % s.klen.toNat) ^^^ BitVec.ofNat 8 (i % 256) := by
  have hindex : i % s.klen.toNat < s.klen.toNat := Nat.mod_lt i (klen_ne_zero_iff.mp h)
  have hkey : (keyBytes s).getD (i % s.klen.toNat) 0 = readKey s (i % s.klen.toNat) := by
    rw [List.getD_eq_getElem?_getD, keyBytes_getElem?, if_pos hindex, Option.getD_some]
  have hlow : BitVec.ofNat 8 i = BitVec.ofNat 8 (i % 256) := BitVec.eq_of_toNat_eq (by simp)
  rw [ksByte_eq, keyBytes_length, hkey, hlow]

theorem keystream_keyBytes_inBytes (h : s.klen ≠ 0) :
    keystream (keyBytes s) (inBytes s) =
      (List.range s.inLen.toNat).map
        (fun i => readIn s i ^^^ readKey s (i % s.klen.toNat) ^^^ BitVec.ofNat 8 (i % 256)) := by
  refine List.ext_getElem? fun i => ?_
  rw [keystream_getElem?, ksByte_keyBytes h, inBytes_getElem?, List.getElem?_map]
  by_cases hi : i < s.inLen.toNat
  · rw [if_pos hi, List.getElem?_range hi, Option.map_some, Option.map_some, BitVec.xor_assoc]
  · rw [if_neg hi, List.getElem?_eq_none (by simpa using hi), Option.map_none, Option.map_none]

/-! `KSX` by whether there is a key. -/

theorem exec_ksx (s : State) : exec .ksx s = ksxWith Config.block s := rfl

theorem exec_ksx_emptyKey (h : s.klen = 0) : exec .ksx s = .next (abort ⟨.emptyKey, 0⟩ s) := by
  rw [exec_ksx, ksxWith, startOut_klen, if_pos h, settle_raised, abort_startOut]

theorem exec_ksx_key (h : s.klen ≠ 0) :
    exec .ksx s = .next { s with out := keystream (keyBytes s) (inBytes s), status := .done, run := .fetch } := by
  rw [exec_ksx, ksxWith, startOut_klen, if_neg h, settle_ok]
  rfl

/-- Settles O27, by whether there is a key. -/
theorem ksxTransformsEachByte : Obligations.KsxTransformsEachByte := by
  unfold Obligations.KsxTransformsEachByte
  intro s
  split
  · rename_i hempty
    exact aborts_of_exec (exec_ksx_emptyKey hempty)
  · rename_i hkey
    rw [exec_ksx_key hkey, keystream_keyBytes_inBytes hkey]

/-- Settles O28: the second run has a key as well, since it has the same key bytes. -/
theorem ksxIsSelfInverse : Obligations.KsxIsSelfInverse := by
  unfold Obligations.KsxIsSelfInverse
  intro s t u hkey hexec hin hsame
  rw [exec_ksx_key hkey] at hexec
  obtain rfl := Host.Outcome.next.inj hexec
  have hlen : u.klen.toNat = s.klen.toNat := by rw [← keyBytes_length, ← keyBytes_length, hsame]
  have hkey' : u.klen ≠ 0 := klen_ne_zero_iff.mpr (hlen ▸ klen_ne_zero_iff.mp hkey)
  refine ⟨_, exec_ksx_key hkey', rfl, ?_⟩
  calc keystream (keyBytes u) (inBytes u)
      = keystream (keyBytes s) (keystream (keyBytes s) (inBytes s)) := by rw [hsame, hin]
    _ = inBytes s := keystream_keystream _ _

/-- Settles O29: the least common multiple is a multiple of both periods. -/
theorem keystreamIsPeriodic : Obligations.KeystreamIsPeriodic := by
  unfold Obligations.KeystreamIsPeriodic
  exact fun key _ =>
    ⟨ksByte_add_of_dvd (Nat.dvd_lcm_left _ _) (Nat.dvd_lcm_right _ _), keystream_getElem? key⟩

/-! The empty key in the commands that run the cipher inside a payload (R193, R222). -/

theorem payloadCompress_emptyKey (cfg : Config) (data : List Byte) :
    payloadCompress cfg [] data = .error ⟨.emptyKey, 0⟩ := rfl

theorem payloadUnpack_emptyKey (cfg : Config) (payload : List Byte) :
    payloadUnpack cfg [] payload = .error ⟨.emptyKey, 0⟩ := rfl

theorem fpcWith_emptyKey (h : keyBytes s = []) : fpcWith cfg s = .next (abort ⟨.emptyKey, 0⟩ s) := by
  have hk : keyBytes (startOut s) = [] := h
  rw [fpcWith, hk, payloadCompress_emptyKey, bodyOf_error, andThen_raised, settle_raised, abort_startOut]

theorem cfileWith_emptyKey (h : keyBytes s = []) : cfileWith cfg s = .next (abort ⟨.emptyKey, 0⟩ s) := by
  have hk : keyBytes (startOut s) = [] := h
  rw [cfileWith, hk, payloadCompress_emptyKey, bodyOf_error, andThen_raised, settle_raised, abort_startOut]

theorem fpdWith_emptyKey (h : keyBytes s = []) : fpdWith cfg s = .next (abort ⟨.emptyKey, 0⟩ s) := by
  have hk : keyBytes (startOut s) = [] := h
  rw [fpdWith, payloadDecompress, hk, payloadUnpack_emptyKey, bodyOf_error, andThen_raised, settle_raised, abort_startOut]

/-- R250: `FOUT_CNT` is cleared before the key is looked at. -/
theorem tblxWith_emptyKey (h : s.klen = 0) :
    tblxWith cfg s = .next (abort ⟨.emptyKey, 0⟩ { s with foutCnt := 0 }) := by
  have hk : (startExtract s).klen = 0 := h
  rw [tblxWith, tableExtract, if_pos hk, andThen_raised, settle_raised]
  rfl

/-- Settles O30, command by command; `TBLX` aborts in the state whose `FOUT_CNT` it has cleared. -/
theorem emptyKeyRejected : Obligations.EmptyKeyRejected := by
  unfold Obligations.EmptyKeyRejected
  intro s hempty
  have hkey := keyBytes_of_klen_zero hempty
  exact ⟨aborts_of_exec (exec_ksx_emptyKey hempty), aborts_of_exec (fpcWith_emptyKey hkey),
    aborts_of_exec (fpdWith_emptyKey hkey), aborts_of_exec (cfileWith_emptyKey hkey),
    _, tblxWith_emptyKey hempty, abort_aborts .emptyKey 0 { s with foutCnt := 0 }⟩

end Sys2Proof.Machine
end

section
/-! The header framer (spec/43_header_framer.md R200 to R208): the bytes `HDRW` writes, what a header read answers by its three
checks, and the four commands that begin with a header read. -/

namespace Sys2Proof.Machine

variable {cfg : Config} {src as bs : List Byte} {s : State} {h : Header} {r : Raise} {i : Instr}

/-! The first difference of two sequences (R203). -/

theorem firstDiff_eq_none (hagree : ∀ n < as.length, bs[n]? = as[n]?) (j : Nat) : firstDiff j as bs = none := by
  have hprefix : as <+: bs := List.prefix_iff_getElem?.mpr fun n hn => by
    rw [hagree n hn, List.getElem?_eq_getElem hn]
  obtain ⟨rest, rfl⟩ := hprefix
  exact firstDiff_append j as rest

theorem firstDiff_eq_some {n : Nat} (hn : n < as.length) (hn' : n < bs.length) (hagree : ∀ m < n, bs[m]? = as[m]?)
    (hdiff : bs[n]? ≠ as[n]?) (j : Nat) : firstDiff j as bs = some (j + n) := by
  induction n generalizing as bs j with
  | zero =>
    obtain ⟨a, as, rfl⟩ := List.exists_cons_of_length_pos hn
    obtain ⟨b, bs, rfl⟩ := List.exists_cons_of_length_pos hn'
    have hab : a ≠ b := fun heq => hdiff (by rw [heq]; rfl)
    rw [firstDiff, if_neg hab, Nat.add_zero]
  | succ n ih =>
    obtain ⟨a, as, rfl⟩ := List.exists_cons_of_length_pos (Nat.zero_lt_of_lt hn)
    obtain ⟨b, bs, rfl⟩ := List.exists_cons_of_length_pos (Nat.zero_lt_of_lt hn')
    have hab : a = b := (Option.some.inj (hagree 0 n.succ_pos)).symm
    rw [firstDiff, if_pos hab,
      ih (Nat.lt_of_succ_lt_succ hn) (Nat.lt_of_succ_lt_succ hn') (fun m hm => hagree (m + 1) (Nat.succ_lt_succ hm)) hdiff,
      Nat.add_right_comm, Nat.add_assoc]

theorem magicList_getElem? (cfg : Config) (j : Fin 4) : (magicList cfg)[j.val]? = some (cfg.magic j) := by
  fin_cases j <;> rfl

/-! `ReadHeader` by its three checks (R203). -/

theorem readHeader_tooShort (hshort : src.length < 6) : readHeader cfg src = .error ⟨.headerTooShort, src.length⟩ :=
  if_pos hshort

theorem readHeader_badMagic {j : Nat} (hlong : 6 ≤ src.length) (hdiff : firstDiff 0 (magicList cfg) src = some j) :
    readHeader cfg src = .error ⟨.invalidMagic, j⟩ := by
  rw [readHeader_eq, if_neg (Nat.not_lt.mpr hlong), hdiff]

theorem readHeader_truncated (hlong : 6 ≤ src.length) (hmagic : firstDiff 0 (magicList cfg) src = none)
    (hkey : src.length < 6 + (src.getD 4 0).toNat) :
    readHeader cfg src = .error ⟨.headerTruncated, 6 + (src.getD 4 0).toNat⟩ := by
  rw [readHeader_eq, if_neg (Nat.not_lt.mpr hlong), hmagic]
  exact if_pos hkey

theorem readHeader_reads (hmagic : firstDiff 0 (magicList cfg) src = none)
    (hlong : 6 + (src.getD 4 0).toNat ≤ src.length) :
    readHeader cfg src =
      .ok
        { key := obfuscate cfg (slice src 5 (src.getD 4 0).toNat)
          flagRaw := src.getD (5 + (src.getD 4 0).toNat) 0
          hlen := 6 + (src.getD 4 0).toNat } := by
  rw [readHeader_eq, if_neg (by omega), hmagic]
  exact if_neg (Nat.not_lt.mpr hlong)

/-- R208: the read gives back the key and the flag byte that were written. -/
theorem readHeader_headerBytes {K : List Byte} (hK : K.length ≤ 255) (flag : Byte) (R : List Byte) :
    readHeader cfg (headerBytes cfg K flag ++ R) = .ok { key := K, flagRaw := flag, hlen := 6 + K.length } := by
  have hsrc : headerBytes cfg K flag ++ R =
      magicList cfg ++ BitVec.ofNat 8 K.length :: (obfuscate cfg K ++ flag :: R) := by
    simp [headerBytes]
  have hklen : ((headerBytes cfg K flag ++ R).getD 4 0).toNat = K.length := by
    rw [hsrc]
    exact Nat.mod_eq_of_lt (Nat.lt_succ_of_le hK)
  have hrest : (headerBytes cfg K flag ++ R).drop 5 = obfuscate cfg K ++ flag :: R := by
    rw [hsrc]
    rfl
  have hkey : obfuscate cfg (slice (headerBytes cfg K flag ++ R) 5 K.length) = K := by
    rw [slice, hrest, ← obfuscate_length cfg K, List.take_left, obfuscate_obfuscate]
  have hflag : (headerBytes cfg K flag ++ R).getD (5 + K.length) 0 = flag := by
    rw [List.getD_eq_getElem?_getD, ← List.getElem?_drop, hrest, ← obfuscate_length cfg K,
      List.getElem?_append_right (Nat.le_refl _), Nat.sub_self]
    rfl
  rw [readHeader_reads (by rw [hsrc, firstDiff_append]) (by rw [hklen]; simp), hklen, hkey, hflag]

theorem flagDecode_ofBool (cfg : Config) (folder : Bool) : flagDecode cfg (if folder then 1 else 0) = folder := by
  cases folder <;> rfl

/-- Settles O34: the header's length is the number of bytes the read leaves out. -/
theorem headerRoundTrip : Obligations.HeaderRoundTrip := by
  unfold Obligations.HeaderRoundTrip
  intro cfg K R folder hK
  have hlen : 6 + K.length = (headerBytes cfg K (if folder then 1 else 0)).length := (headerBytes_length _ _ _).symm
  exact ⟨_, readHeader_headerBytes hK _ R, rfl, flagDecode_ofBool cfg folder, rfl, hlen, List.drop_left' hlen.symm⟩

/-! `ReadHeader` on `IN`, in terms of the bytes of `IN`. -/

theorem inBytes_getD {n : Nat} (hn : n < s.inLen.toNat) : (inBytes s).getD n 0 = readIn s n := by
  rw [List.getD_eq_getElem?_getD, inBytes_getElem?, if_pos hn, Option.getD_some]

theorem firstDiff_inBytes_eq_none (hlong : 6 ≤ s.inLen.toNat) (hmagic : ∀ j : Fin 4, readIn s j = cfg.magic j) :
    firstDiff 0 (magicList cfg) (inBytes s) = none := by
  refine firstDiff_eq_none (as := magicList cfg) (fun n (hn : n < 4) => ?_) 0
  rw [inBytes_getElem?, if_pos (by omega), hmagic ⟨n, hn⟩]
  exact (magicList_getElem? cfg ⟨n, hn⟩).symm

theorem firstDiff_inBytes_eq_some (hlong : 6 ≤ s.inLen.toNat) {j : Fin 4}
    (hmagic : ∀ j' : Fin 4, j' < j → readIn s j' = cfg.magic j') (hdiff : readIn s j ≠ cfg.magic j) :
    firstDiff 0 (magicList cfg) (inBytes s) = some j.val := by
  have hj := j.isLt
  have hlen : j.val < (inBytes s).length := by
    rw [inBytes_length]
    omega
  rw [firstDiff_eq_some hj hlen, Nat.zero_add]
  · intro n hn
    rw [inBytes_getElem?, if_pos (by omega), hmagic ⟨n, by omega⟩ hn]
    exact (magicList_getElem? cfg ⟨n, by omega⟩).symm
  · rw [inBytes_getElem?, if_pos (by omega), magicList_getElem?]
    exact fun heq => hdiff (Option.some.inj heq)

/-- The header that `IN` begins with, by the byte of the key's length (R206). -/
def headerOfIn (cfg : Config) (s : State) : Header where
  key := (List.range (readIn s 4).toNat).map fun j => readIn s (5 + j) ^^^ cfg.keyObf
  flagRaw := readIn s (5 + (readIn s 4).toNat)
  hlen := 6 + (readIn s 4).toNat

theorem slice_inBytes {a n : Nat} (hfits : a + n ≤ s.inLen.toNat) :
    slice (inBytes s) a n = (List.range n).map fun j => readIn s (a + j) := by
  refine List.ext_getElem? fun j => ?_
  rw [slice, List.getElem?_take, List.getElem?_drop, inBytes_getElem?, List.getElem?_map]
  by_cases hj : j < n
  · rw [if_pos hj, if_pos (by omega), List.getElem?_range hj, Option.map_some]
  · rw [if_neg hj, List.getElem?_eq_none (by simpa using hj), Option.map_none]

theorem readHeader_inBytes (hmagic : ∀ j : Fin 4, readIn s j = cfg.magic j)
    (hlong : 6 + (readIn s 4).toNat ≤ s.inLen.toNat) : readHeader cfg (inBytes s) = .ok (headerOfIn cfg s) := by
  have hklen : (inBytes s).getD 4 0 = readIn s 4 := inBytes_getD (by omega)
  have hflag : (inBytes s).getD (5 + (readIn s 4).toNat) 0 = readIn s (5 + (readIn s 4).toNat) := inBytes_getD (by omega)
  have hread := readHeader_reads (firstDiff_inBytes_eq_none (by omega) hmagic)
    (by rwa [hklen, inBytes_length])
  rw [hread, hklen, hflag, slice_inBytes (by omega), obfuscate, List.map_map]
  rfl

/-! The commands that begin with a header read, by its answer (R202, R205). -/

theorem exec_hdrr (s : State) : exec .hdrr s = hdrrWith Config.block s := rfl

theorem exec_rhdr (s : State) : exec .rhdr s = rhdrWith Config.block s := rfl

theorem exec_dfile (s : State) : exec .dfile s = dfileWith Config.block s := rfl

theorem exec_xfold (s : State) : exec .xfold s = xfoldWith Config.block s := rfl

theorem loadHeader_ok (hread : readHeader cfg (inBytes s) = .ok h) : loadHeader cfg s = .ok (storeHeader cfg h s) := by
  rw [loadHeader, hread, bodyOf_ok]

theorem loadHeader_error (hread : readHeader cfg (inBytes s) = .error r) : loadHeader cfg s = .raised r s := by
  rw [loadHeader, hread, bodyOf_error]

theorem exec_rhdr_ok (hread : readHeader Config.block (inBytes s) = .ok h) :
    exec .rhdr s = .next (finish (storeHeader Config.block h (startOut s))) := by
  have hload : loadHeader Config.block (startOut s) = .ok (storeHeader Config.block h (startOut s)) := loadHeader_ok hread
  rw [exec_rhdr, rhdrWith, hload, settle_ok]

/-- The remainder is shorter than `IN`, so it always fits. -/
theorem exec_hdrr_ok (hread : readHeader Config.block (inBytes s) = .ok h) :
    exec .hdrr s =
      .next (finish { storeHeader Config.block h (startOut s) with out := (inBytes s).drop h.hlen }) := by
  have hfits : ((inBytes s).drop h.hlen).length ≤ Config.block.bufCap.toNat := by
    have hin : s.inLen.toNat ≤ Config.block.bufCap.toNat := Nat.le_of_lt_succ s.inLen.isLt
    rw [List.length_drop, inBytes_length]
    omega
  rw [exec_hdrr, hdrrWith, hread]
  dsimp only
  rw [appendOut_fits (by rwa [storeHeader_out, startOut_out, List.length_nil, Nat.zero_add]), settle_ok]
  rfl

theorem exec_hdrr_error (hread : readHeader Config.block (inBytes s) = .error r) :
    exec .hdrr s = .next (abortUnwritten r s) := by
  rw [exec_hdrr, hdrrWith, hread]
  rfl

theorem exec_rhdr_error (hread : readHeader Config.block (inBytes s) = .error r) : exec .rhdr s = .next (abort r s) := by
  have hload : loadHeader Config.block (startOut s) = .raised r (startOut s) := loadHeader_error hread
  rw [exec_rhdr, rhdrWith, hload, settle_raised, abort_startOut]

theorem exec_dfile_error (hread : readHeader Config.block (inBytes s) = .error r) :
    exec .dfile s = .next (abort r s) := by
  have hload : loadHeader Config.block (startOut s) = .raised r (startOut s) := loadHeader_error hread
  rw [exec_dfile, dfileWith, hload, andThen_raised, settle_raised, abort_startOut]

/-- R250: `FOUT_CNT` is cleared before the header is read. -/
theorem exec_xfold_error (hread : readHeader Config.block (inBytes s) = .error r) :
    exec .xfold s = .next (abort r { s with foutCnt := 0 }) := by
  have hload : loadHeader Config.block (startExtract s) = .raised r (startExtract s) := loadHeader_error hread
  rw [exec_xfold, xfoldWith, hload, andThen_raised, andThen_raised, settle_raised]
  rfl

/-- R205: whichever command reads it, a header that fails its checks is the command's abort. -/
theorem headerReader_aborts (hi : i = .hdrr ∨ i = .rhdr ∨ i = .dfile ∨ i = .xfold)
    (hread : readHeader Config.block (inBytes s) = .error r) :
    ∃ t, exec i s = .next t ∧ Aborted r.cause r.info (if i = .xfold then { s with foutCnt := 0 } else s) t := by
  obtain rfl | rfl | rfl | rfl := hi
  · exact ⟨_, exec_hdrr_error hread, (abortUnwritten_aborted r s).1⟩
  · exact ⟨_, exec_rhdr_error hread, abort_aborted r s⟩
  · exact ⟨_, exec_dfile_error hread, abort_aborted r s⟩
  · exact ⟨_, exec_xfold_error hread, abort_aborted r { s with foutCnt := 0 }⟩

/-- R202: a `HDRR` that ends in error could not read its header, and then writes no register. -/
theorem hdrr_error_keeps_lengths {t : State} (hexec : exec .hdrr s = .next t) (herr : t.status = .error) :
    t.tokLen = s.tokLen ∧ t.expLen = s.expLen := by
  cases hread : readHeader Config.block (inBytes s) with
  | error r =>
    obtain rfl := Host.Outcome.next.inj ((exec_hdrr_error hread).symm.trans hexec)
    exact (abortUnwritten_aborted r s).2
  | ok h =>
    obtain rfl := Host.Outcome.next.inj ((exec_hdrr_ok hread).symm.trans hexec)
    cases herr

/-- Settles O33, check by check: the bytes of `IN` decide the answer of the read, which every one of the commands reports. -/
theorem headerChecksInOrder : Obligations.HeaderChecksInOrder := by
  unfold Obligations.HeaderChecksInOrder
  intro s i hi
  refine ⟨fun hshort => ?_, fun hlong j hmagic hdiff => ?_, fun hlong hmagic htrunc => ?_, fun t hhdrr hexec herr => ?_⟩
  · have hread := readHeader_tooShort (cfg := Config.block) (src := inBytes s) (by rwa [inBytes_length])
    rw [inBytes_length] at hread
    exact headerReader_aborts hi hread
  · exact headerReader_aborts hi
      (readHeader_badMagic (by rwa [inBytes_length]) (firstDiff_inBytes_eq_some hlong hmagic hdiff))
  · have hklen : (inBytes s).getD 4 0 = readIn s 4 := inBytes_getD (by omega)
    have hread := readHeader_truncated (by rwa [inBytes_length]) (firstDiff_inBytes_eq_none hlong hmagic)
      (by rwa [hklen, inBytes_length])
    rw [hklen] at hread
    exact headerReader_aborts hi hread
  · subst hhdrr
    exact hdrr_error_keeps_lengths hexec herr

/-! The registers a header read writes (R206, R207). -/

theorem headerOfIn_key_length (cfg : Config) (s : State) : (headerOfIn cfg s).key.length = (readIn s 4).toNat := by
  simp [headerOfIn]

/-- The key register file after the read: the header's key, and beyond it what was there. -/
theorem readKey_setKey_headerOfIn (cfg : Config) (s : State) (j : Nat) :
    readKey (setKey (headerOfIn cfg s).key s) j =
      if j < (readIn s 4).toNat then readIn s (5 + j) ^^^ cfg.keyObf else readKey s j := by
  split
  · rename_i hj
    have hwritten : 0 ≤ j ∧ j < 0 + (headerOfIn cfg s).key.length := by
      rw [headerOfIn_key_length]
      omega
    rw [readKey, setKey, getEntry_writeBytes, if_pos hwritten, Nat.sub_zero, headerOfIn, List.getElem?_map,
      List.getElem?_range hj]
    rfl
  · rename_i hj
    exact readKey_setKey_beyond s _ (by rw [headerOfIn_key_length]; omega)

theorem storeHeader_headerOfIn (cfg : Config) (s : State) :
    storeHeader cfg (headerOfIn cfg s) (startOut s) =
      { s with
        key := (setKey (headerOfIn cfg s).key s).key
        klen := readIn s 4
        flagRaw := readIn s (5 + (readIn s 4).toNat)
        flag := BitVec.ofBool (flagDecode cfg (readIn s (5 + (readIn s 4).toNat)))
        hlen := BitVec.ofNat 9 (6 + (readIn s 4).toNat)
        out := [] } := by
  have hklen : BitVec.ofNat 8 (headerOfIn cfg s).key.length = readIn s 4 := by
    rw [headerOfIn_key_length, BitVec.ofNat_toNat, BitVec.setWidth_eq]
  rw [storeHeader, setKey, hklen]
  rfl

/-- Settles O32: both commands store the header that `IN` begins with, and `FLAG` is a function of its flag byte alone. -/
theorem headerReadWritesRegisters : Obligations.HeaderReadWritesRegisters := by
  unfold Obligations.HeaderReadWritesRegisters
  intro s _ hmagic hlong
  have hread := readHeader_inBytes hmagic hlong
  refine ⟨_, readKey_setKey_headerOfIn Config.block s, ?_, ?_,
    congrArg fun b => BitVec.ofBool (flagDecode Config.block b), congrArg fun b => BitVec.ofBool (flagDecode Config.block b)⟩
  · rw [exec_rhdr_ok hread, storeHeader_headerOfIn]
    rfl
  · rw [exec_hdrr_ok hread, storeHeader_headerOfIn]
    rfl

/-! The header that is written (R200). -/

theorem headerBytes_keyBytes (cfg : Config) (s : State) (flag : Byte) :
    headerBytes cfg (keyBytes s) flag =
      magicList cfg ++ [s.klen] ++ (List.range s.klen.toNat).map (fun j => readKey s j ^^^ cfg.keyObf) ++ [flag] := by
  have hklen : BitVec.ofNat 8 (keyBytes s).length = s.klen := by
    rw [keyBytes_length, BitVec.ofNat_toNat, BitVec.setWidth_eq]
  have hkey : obfuscate cfg (keyBytes s) = (List.range s.klen.toNat).map fun j => readKey s j ^^^ cfg.keyObf :=
    List.map_map
  rw [headerBytes, hklen, hkey, List.append_assoc, List.append_assoc, List.singleton_append]

theorem exec_hdrw (s : State) : exec .hdrw s = hdrwWith Config.block s := rfl

/-- Settles O31: a header has at most 261 bytes, so it always fits. -/
theorem hdrwWritesHeader : Obligations.HdrwWritesHeader := by
  unfold Obligations.HdrwWritesHeader
  intro s
  have hfits : (startOut s).out.length + (6 + (startOut s).klen.toNat) ≤ Config.block.bufCap.toNat := by
    have hklen : s.klen.toNat < 256 := s.klen.isLt
    have hcap : Config.block.bufCap.toNat = 4294967295 := rfl
    rw [startOut_out, startOut_klen, List.length_nil, hcap]
    omega
  rw [exec_hdrw, hdrwWith, writeHeader_fits _ hfits, settle_ok, headerBytes_keyBytes]
  rfl

end Sys2Proof.Machine
end

section
/-! The file payload (spec/44_file_payload.md R220 to R228): what `PayloadCompress` and `PayloadDecompress` answer by their
tests, how `FPC` and `FPD` end by that answer, and the round trip. -/

namespace Sys2Proof.Machine

variable {cfg : Config} {s : State} {key src payload T y bytes : List Byte} {p : Payload} {w : Unpacked} {r : Raise}

theorem keyBytes_ne_nil (h : s.klen ≠ 0) : keyBytes s ≠ [] := by
  rw [← List.length_pos_iff, keyBytes_length]
  exact klen_ne_zero_iff.mp h

/-! `PayloadCompress` by its tests in their order (R221, R222). -/

theorem payloadCompress_bind (hkey : key ≠ []) :
    payloadCompress cfg key src =
      (tokenize cfg src).bind fun t => (entropyEncode cfg t.dst).bind fun ent =>
        if 4 + ent.length > cfg.bufCap.toNat then .error ⟨.lengthOverflow, 0⟩
        else .ok { tz := t, ent := ent, wrk := keystream key (le32 t.dst.length ++ ent) } := by
  rw [payloadCompress_eq, if_neg (mt List.length_eq_zero_iff.mp hkey)]
  cases tokenize cfg src with
  | error r => rfl
  | ok t =>
    dsimp only [Except.bind]
    cases entropyEncode cfg t.dst <;> rfl

theorem matchEncode_map (cfg : Config) (src : List Byte) : matchEncode cfg src = (tokenize cfg src).map Tokenizer.dst := by
  rw [matchEncode]
  cases tokenize cfg src <;> rfl

theorem tokenize_of_matchEncode_ok (h : matchEncode cfg src = .ok T) : ∃ t, tokenize cfg src = .ok t ∧ t.dst = T := by
  rw [matchEncode_map] at h
  cases ht : tokenize cfg src with
  | error r => simp [ht, Except.map] at h
  | ok t => exact ⟨t, rfl, by simpa [ht, Except.map] using h⟩

theorem payloadCompress_tokensOverflow (hkey : key ≠ []) (htokens : matchEncode cfg src = .error r) :
    payloadCompress cfg key src = .error ⟨.lengthOverflow, 0⟩ := by
  rw [matchEncode_map] at htokens
  rw [payloadCompress_bind hkey]
  cases ht : tokenize cfg src with
  | error r' => rw [tokenize_error ht, Except.bind]
  | ok t => simp [ht, Except.map] at htokens

theorem payloadCompress_encodeFailed (hkey : key ≠ []) (htokens : matchEncode cfg src = .ok T)
    (hcoder : cfg.entropyEnc T = none) : payloadCompress cfg key src = .error ⟨.entropyEncodeFailed, 0⟩ := by
  obtain ⟨t, ht, rfl⟩ := tokenize_of_matchEncode_ok htokens
  rw [payloadCompress_bind hkey, ht, Except.bind, entropyEncode_none hcoder, Except.bind]

theorem payloadCompress_overflow (hkey : key ≠ []) (htokens : matchEncode cfg src = .ok T)
    (hcoder : cfg.entropyEnc T = some y) (hover : 4 + y.length > cfg.bufCap.toNat) :
    payloadCompress cfg key src = .error ⟨.lengthOverflow, 0⟩ := by
  obtain ⟨t, ht, rfl⟩ := tokenize_of_matchEncode_ok htokens
  rw [payloadCompress_bind hkey, ht, Except.bind, entropyEncode_some hcoder, Except.bind, if_pos hover]

theorem payloadCompress_fits (hkey : key ≠ []) (htokens : matchEncode cfg src = .ok T)
    (hcoder : cfg.entropyEnc T = some y) (hfits : ¬ 4 + y.length > cfg.bufCap.toNat) :
    ∃ p, payloadCompress cfg key src = .ok p ∧ p.tz.dst = T ∧ p.ent = y ∧
      p.wrk = keystream key (le32 T.length ++ y) := by
  obtain ⟨t, ht, rfl⟩ := tokenize_of_matchEncode_ok htokens
  rw [payloadCompress_bind hkey, ht, Except.bind, entropyEncode_some hcoder, Except.bind, if_neg hfits]
  exact ⟨_, rfl, rfl, rfl, rfl⟩

/-- The token stream of a payload that is made is what `Encode` answers. -/
theorem matchEncode_of_payloadCompress (hp : payloadCompress cfg key src = .ok p) :
    matchEncode cfg src = .ok p.tz.dst := by
  obtain ⟨-, ht, -⟩ := payloadCompress_ok hp
  rw [matchEncode_map, ht, Except.map]

/-! `FPC` by the answer of `PayloadCompress` (R220). -/

theorem fpcWith_error (hp : payloadCompress cfg (keyBytes s) (inBytes s) = .error r) :
    fpcWith cfg s = .next (abort r s) := by
  have hp' : payloadCompress cfg (keyBytes (startOut s)) (inBytes (startOut s)) = .error r := hp
  rw [fpcWith, hp', bodyOf_error, andThen_raised, settle_raised, abort_startOut]

/-- A payload that is made has been found to fit, and `OUT` is empty before it. -/
theorem fpcWith_ok (hp : payloadCompress cfg (keyBytes s) (inBytes s) = .ok p) :
    fpcWith cfg s = .next (finish { storePayload p s with out := p.wrk }) := by
  have hp' : payloadCompress cfg (keyBytes (startOut s)) (inBytes (startOut s)) = .ok p := hp
  obtain ⟨-, -, -, hcap, -, hlen⟩ := payloadCompress_ok hp
  have hfits : (storePayload p (startOut s)).out.length + (storePayload p (startOut s)).wrk.length ≤ cfg.bufCap.toNat := by
    calc 0 + p.wrk.length = 4 + p.ent.length := by rw [hlen, Nat.zero_add]
      _ ≤ cfg.bufCap.toNat := hcap
  rw [fpcWith, hp', bodyOf_ok, andThen_ok, appendOut_fits hfits]
  rfl

/-- Settles O35, by the tests of `PayloadCompress` in their order. -/
theorem fpcBuildsPayload : Obligations.FpcBuildsPayload := by
  unfold Obligations.FpcBuildsPayload
  intro s
  split
  · rename_i hempty
    exact aborts_of_exec (fpcWith_emptyKey (keyBytes_of_klen_zero hempty))
  · rename_i hklen
    have hkey := keyBytes_ne_nil hklen
    split
    · rename_i r htokens
      exact aborts_of_exec (fpcWith_error (payloadCompress_tokensOverflow hkey htokens))
    · rename_i T htokens
      split
      · rename_i hcoder
        exact aborts_of_exec (fpcWith_error (payloadCompress_encodeFailed hkey htokens hcoder))
      · rename_i y hcoder
        split
        · rename_i hover
          exact aborts_of_exec (fpcWith_error (payloadCompress_overflow hkey htokens hcoder hover))
        · rename_i hfits
          obtain ⟨p, hp, rfl, rfl, hwrk⟩ := payloadCompress_fits hkey htokens hcoder hfits
          exact ⟨_, fpcWith_ok hp, rfl, rfl, rfl, by rw [← hwrk]; rfl⟩

/-! `PayloadDecompress` up to the detokenizer, by its tests in their order (R226, R227). -/

theorem payloadUnpack_tooShort (hkey : key ≠ []) (hshort : payload.length < 4) :
    payloadUnpack cfg key payload = .error ⟨.payloadTooShort, payload.length⟩ := by
  rw [payloadUnpack_eq, if_neg (mt List.length_eq_zero_iff.mp hkey), keystream_length, if_pos hshort]

/-- With a key and a length field, the decode request answers. -/
theorem payloadUnpack_long (hkey : key ≠ []) (hlong : ¬ payload.length < 4) :
    payloadUnpack cfg key payload =
      (entropyDecode cfg ((keystream key payload).drop 4) (unLe32 (slice (keystream key payload) 0 4))).map fun tok =>
        { wrk := keystream key payload, len := unLe32 (slice (keystream key payload) 0 4), tok := tok } := by
  rw [payloadUnpack_eq, if_neg (mt List.length_eq_zero_iff.mp hkey), keystream_length, if_neg hlong]
  cases entropyDecode cfg ((keystream key payload).drop 4) (unLe32 (slice (keystream key payload) 0 4)) <;> rfl

/-! `FPD` by that answer and the detokenizer's (R224). -/

theorem fpdWith_unpackError (hw : payloadUnpack cfg (keyBytes s) (inBytes s) = .error r) :
    fpdWith cfg s = .next (abort r s) := by
  have hw' : payloadUnpack cfg (keyBytes (startOut s)) (inBytes s) = .error r := hw
  rw [fpdWith, payloadDecompress, hw', bodyOf_error, andThen_raised, settle_raised, abort_startOut]

theorem fpdWith_unpacked (hw : payloadUnpack cfg (keyBytes s) (inBytes s) = .ok w) :
    fpdWith cfg s =
      .next (detokBody (startTokens .tok .command (storeUnpacked w s)) (detokRun cfg w.tok w.tok.length ⟨0, []⟩)).settle := by
  have hw' : payloadUnpack cfg (keyBytes (startOut s)) (inBytes s) = .ok w := hw
  rw [fpdWith, payloadDecompress, hw', bodyOf_ok, andThen_ok]
  rfl

theorem fpdWith_tokenError (hw : payloadUnpack cfg (keyBytes s) (inBytes s) = .ok w)
    (hdecode : matchDecode cfg w.tok = .error r) : fpdWith cfg s = .next (abort r s) := by
  rw [matchDecode] at hdecode
  rw [fpdWith_unpacked hw]
  cases hrun : detokRun cfg w.tok w.tok.length ⟨0, []⟩ with
  | ok d => simp [hrun] at hdecode
  | error r' =>
    obtain rfl : r' = r := by simpa [hrun] using hdecode
    rfl

theorem fpdWith_decoded (hw : payloadUnpack cfg (keyBytes s) (inBytes s) = .ok w)
    (hdecode : matchDecode cfg w.tok = .ok bytes) :
    ∃ tp, fpdWith cfg s = .next (finish { storeUnpacked w s with out := bytes, tp := tp }) := by
  rw [matchDecode] at hdecode
  rw [fpdWith_unpacked hw]
  cases hrun : detokRun cfg w.tok w.tok.length ⟨0, []⟩ with
  | error r => simp [hrun] at hdecode
  | ok d =>
    obtain rfl : d.out = bytes := by simpa [hrun] using hdecode
    exact ⟨BitVec.ofNat 32 d.tp, rfl⟩

/-- Settles O36, by the tests of `PayloadDecompress` in their order and then the detokenizer's answer. -/
theorem fpdUnpacksPayload : Obligations.FpdUnpacksPayload := by
  unfold Obligations.FpdUnpacksPayload
  intro s clear len
  split
  · rename_i hempty
    exact aborts_of_exec (fpdWith_emptyKey (keyBytes_of_klen_zero hempty))
  · rename_i hklen
    have hkey := keyBytes_ne_nil hklen
    split
    · rename_i hshort
      have hw := payloadUnpack_tooShort (cfg := Config.block) hkey (by rwa [inBytes_length] : (inBytes s).length < 4)
      rw [inBytes_length] at hw
      exact aborts_of_exec (fpdWith_unpackError hw)
    · rename_i hlong
      have hunpack := payloadUnpack_long (cfg := Config.block) hkey (by rwa [inBytes_length] : ¬ (inBytes s).length < 4)
      split
      · rename_i hlen
        rw [entropyDecode_tooLong hlen] at hunpack
        exact aborts_of_exec (fpdWith_unpackError hunpack)
      · rename_i hlen
        split
        · rename_i hcoder
          rw [entropyDecode_none hlen hcoder] at hunpack
          exact aborts_of_exec (fpdWith_unpackError hunpack)
        · rename_i T hcoder
          rw [entropyDecode_some hlen hcoder] at hunpack
          split
          · rename_i r hdecode
            exact aborts_of_exec (fpdWith_tokenError hunpack hdecode)
          · rename_i bytes hdecode
            obtain ⟨tp, hexec⟩ := fpdWith_decoded hunpack hdecode
            exact ⟨_, hexec, rfl, rfl, rfl⟩

/-! The round trip (R228). -/

theorem matchDecode_matchEncode (hsrc : src.length ≤ cfg.bufCap.toNat) (h : matchEncode cfg src = .ok T) :
    matchDecode cfg T = .ok src := by
  obtain ⟨hdecode, -⟩ := decodeOfEncodeRestoresBytes
  exact hdecode cfg src T hsrc h

theorem matchEncode_length_le (h : matchEncode cfg src = .ok T) : T.length ≤ cfg.bufCap.toNat := by
  rw [matchEncode_eq] at h
  split at h
  · rename_i hfits
    cases h
    exact hfits
  · cases h

/-- The keystream pass is its own inverse, the length field fits in its four bytes, and the coder gives the token stream
back. -/
theorem payloadUnpack_payloadCompress (hrt : EntRt cfg) (hp : payloadCompress cfg key src = .ok p) :
    payloadUnpack cfg key p.wrk =
      .ok { wrk := le32 p.tz.dst.length ++ p.ent, len := p.tz.dst.length, tok := p.tz.dst } := by
  obtain ⟨hkey, -, hcoder, -, hwrk, hwrkLen⟩ := payloadCompress_ok hp
  have htokens := matchEncode_length_le (matchEncode_of_payloadCompress hp)
  have hclear : keystream key p.wrk = le32 p.tz.dst.length ++ p.ent := by rw [hwrk, keystream_keystream]
  have hfield : unLe32 (slice (le32 p.tz.dst.length ++ p.ent) 0 4) = p.tz.dst.length := by
    have hword : p.tz.dst.length < 2 ^ 32 := htokens.trans_lt cfg.bufCap.isLt
    rw [slice, List.drop_zero, List.take_left' (le32_length _), ← List.append_nil (le32 _), unLe32_le32 hword]
  rw [payloadUnpack_long hkey (by omega), hclear, hfield, List.drop_left' (le32_length _),
    entropyDecode_some (Nat.not_lt.mpr htokens) (hrt _ _ hcoder), Except.map]

/-- Settles O37: the token stream comes back as it was, and the detokenizer undoes the tokenizer. -/
theorem payloadRoundTrip : Obligations.PayloadRoundTrip := by
  unfold Obligations.PayloadRoundTrip
  intro cfg s t u hrt hsrc hexec hdone hin hkey
  cases hp : payloadCompress cfg (keyBytes s) (inBytes s) with
  | error r =>
    obtain rfl := Host.Outcome.next.inj ((fpcWith_error hp).symm.trans hexec)
    cases hdone
  | ok p =>
    obtain rfl := Host.Outcome.next.inj ((fpcWith_ok hp).symm.trans hexec)
    have hpayload : inBytes u = p.wrk := hin
    have hunpack := payloadUnpack_payloadCompress hrt hp
    rw [← hkey, ← hpayload] at hunpack
    have hdecode := matchDecode_matchEncode (by rwa [inBytes_length]) (matchEncode_of_payloadCompress hp)
    obtain ⟨tp, hfpd⟩ := fpdWith_decoded hunpack hdecode
    exact ⟨_, hfpd, rfl, rfl⟩

end Sys2Proof.Machine
end

section
/-! The fields of a table entry (spec/45_folder_payload.md R252 to R256) and the extraction of entries one after the other (R257
to R260), without the state. -/

namespace Sys2Proof.Machine

variable {cfg : Config} {key tbl data : List Byte} {n e pp draw len : Nat} {last : Option Nat} {c : Cause} {r : Raise}
  {entry : Entry}

/-! One field, and the five in their order. -/

/-- What is read behind a field is read only when the field lies inside the table. -/
theorem takeField_bind {α : Type} (f : List Byte × Nat → Except Cause α) :
    (takeField tbl pp n c >>= f) = if pp + n > tbl.length then .error c else f (slice tbl pp n, pp + n) := by
  unfold takeField
  split <;> rfl

/-- Settles O42: field behind field, each at the end of the one before it. -/
theorem entryFieldsInOrder : Obligations.EntryFieldsInOrder := by
  unfold Obligations.EntryFieldsInOrder
  intro cfg tbl pp plen blen
  have horig : ∀ l, pp + 4 + l + 4 = pp + 8 + l := by omega
  have hblen : ∀ l, pp + 8 + l + 4 = pp + 12 + l := by omega
  simp only [parseEntry, takeField_bind, Config.lenBytes, horig, hblen]
  rfl

/-! One entry of an extraction, by how it ends. -/

theorem extraction_truncated (hparse : parseEntry cfg tbl pp = .error c) :
    extraction cfg key tbl (n + 1) e pp draw last = { records := [], lastLen := last, stop := some ⟨c, e⟩ } := by
  rw [extraction, hparse]

theorem extraction_unreadable (hparse : parseEntry cfg tbl pp = .ok entry) (hfile : fileOf cfg key entry.block = .error r) :
    extraction cfg key tbl (n + 1) e pp draw last =
      { records := [], lastLen := last, stop := some ⟨r.cause, e⟩ } := by
  rw [extraction, hparse]
  simp only [hfile]

theorem extraction_refused (hparse : parseEntry cfg tbl pp = .ok entry)
    (hfile : fileOf cfg key entry.block = .ok (len, data)) (hhost : cfg.hostWrite draw entry.path data ≠ true) :
    extraction cfg key tbl (n + 1) e pp draw last =
      { records := [], lastLen := some len, stop := some ⟨.hostWriteError, e⟩ } := by
  rw [extraction, hparse]
  simp only [hfile, if_neg hhost]

theorem extraction_taken (hparse : parseEntry cfg tbl pp = .ok entry)
    (hfile : fileOf cfg key entry.block = .ok (len, data)) (hhost : cfg.hostWrite draw entry.path data = true) :
    extraction cfg key tbl (n + 1) e pp draw last =
      { extraction cfg key tbl n (e + 1) (entry.start + entry.block.length) (draw + 1) (some len) with
        records :=
          { path := entry.path, data := data } ::
            (extraction cfg key tbl n (e + 1) (entry.start + entry.block.length) (draw + 1) (some len)).records } := by
  rw [extraction, hparse]
  simp only [hfile, if_pos hhost]

/-- Settles O44, by the way the first entry ends: the one that stops has index `e` and no record before it; behind one that is
taken the rest stops. -/
theorem partialExtraction : Obligations.PartialExtraction := by
  unfold Obligations.PartialExtraction
  intro cfg key tbl n
  induction n with
  | zero =>
    intro e pp draw last r hstop
    cases hstop
  | succ n ih =>
    intro e pp draw last r hstop
    cases hparse : parseEntry cfg tbl pp with
    | error c =>
      rw [extraction_truncated hparse] at hstop ⊢
      cases hstop
      exact ⟨rfl, n.succ_pos, rfl, rfl⟩
    | ok entry =>
      cases hfile : fileOf cfg key entry.block with
      | error r' =>
        rw [extraction_unreadable hparse hfile] at hstop ⊢
        cases hstop
        exact ⟨rfl, n.succ_pos, rfl, rfl⟩
      | ok file =>
        obtain ⟨len, data⟩ := file
        by_cases hhost : cfg.hostWrite draw entry.path data = true
        · rw [extraction_taken hparse hfile hhost] at hstop ⊢
          obtain ⟨hinfo, hlt, hrecords, hnone⟩ := ih _ _ _ _ _ hstop
          refine ⟨?_, Nat.succ_lt_succ hlt, ?_, ?_⟩
          · rw [hinfo, List.length_cons]
            omega
          · rw [List.length_cons, extraction_taken hparse hfile hhost, hrecords]
          · rw [List.length_cons, extraction_taken hparse hfile hhost, hnone]
        · rw [extraction_refused hparse hfile hhost] at hstop ⊢
          cases hstop
          exact ⟨rfl, n.succ_pos, rfl, rfl⟩

end Sys2Proof.Machine
end

section
/-! An extraction on the state (spec/45_folder_payload.md R250 to R260): the loop over the entries does what the extraction of
the table's bytes says, and so `TBLX` ends as it says. -/

namespace Sys2Proof.Machine

variable {cfg : Config} {s s' t : State} {x : Extraction} {b : Body} {c : Cause} {info : Nat}

/-! What an abort leaves depends on what is kept (spec/10_state.md R45). -/

theorem aborted_of_kept (h : s.kept = s'.kept) (ha : Aborted c info s t) : Aborted c info s' t := by
  have hkept : Aborted c info s.kept t := { ha with }
  rw [h] at hkept
  exact { hkept with }

/-! The entries emitted. -/

/-- The registers that the entries of `x` write: the records emitted and counted, the last length field, the output `data` the
last entry left, and one draw for each record. -/
def afterEntries (x : Extraction) (data : List Byte) (s : State) : State :=
  { s with
    out := data
    tokLen := (x.lastLen.map (BitVec.ofNat 32)).getD s.tokLen
    expLen := (x.lastLen.map (BitVec.ofNat 32)).getD s.expLen
    fout := s.fout ++ x.records
    foutCnt := s.foutCnt + BitVec.ofNat 32 x.records.length
    draws := s.draws + x.records.length }

/-- The body `b`, begun in `s`, does what the extraction `x` says: it ends well with the entries of `x` behind it, or it raises
the error that stopped `x` in a state whose abort keeps the records before it. -/
def Body.Extracts (x : Extraction) (s : State) (b : Body) : Prop :=
  match x.stop with
  | none => ∃ t, b = .ok t ∧ t.kept = (afterEntries x t.out s).kept
  | some r => ∃ t, b = .raised r t ∧ Aborted r.cause r.info (afterEntries x [] s) (abort r t)

/-- What `b` does is told by what the block keeps of the state it began in. -/
theorem extracts_of_kept (h : s.kept = s'.kept) (hb : b.Extracts x s) : b.Extracts x s' := by
  have hafter (data : List Byte) : (afterEntries x data s).kept = (afterEntries x data s').kept :=
    (congrArg (fun k => (afterEntries x data k).kept) h :)
  unfold Body.Extracts at hb ⊢
  cases hstop : x.stop with
  | none =>
    simp only [hstop] at hb
    obtain ⟨t, ht, hkept⟩ := hb
    exact ⟨t, ht, hkept.trans (hafter t.out)⟩
  | some r =>
    simp only [hstop] at hb
    obtain ⟨t, ht, hend⟩ := hb
    exact ⟨t, ht, aborted_of_kept (hafter []) hend⟩

/-- The registers after an entry that the host took (R257, R258). -/
def afterEntry (len : Nat) (rec : FoutRecord) (s : State) : State :=
  { s with
    out := rec.data
    tokLen := BitVec.ofNat 32 len
    expLen := BitVec.ofNat 32 len
    fout := s.fout ++ [rec]
    foutCnt := s.foutCnt + 1
    draws := s.draws + 1 }

theorem afterEntries_afterEntry {len l : Nat} {rec : FoutRecord} {data : List Byte} (hlast : x.lastLen = some l) :
    afterEntries x data (afterEntry len rec s) = afterEntries { x with records := rec :: x.records } data s := by
  have hcount : s.foutCnt + 1 + BitVec.ofNat 32 x.records.length = s.foutCnt + BitVec.ofNat 32 (x.records.length + 1) := by
    rw [BitVec.ofNat_add, BitVec.add_assoc, BitVec.add_comm 1]
    rfl
  simp only [afterEntries, afterEntry, hlast, Option.map_some, Option.getD_some, List.append_assoc, List.cons_append,
    List.nil_append, List.length_cons, hcount, Nat.add_assoc, Nat.add_comm 1]

/-- An entry that the host took, and the entries behind it. -/
theorem extracts_cons {len l : Nat} {rec : FoutRecord} (hlast : x.lastLen = some l)
    (hb : b.Extracts x (afterEntry len rec s)) : b.Extracts { x with records := rec :: x.records } s := by
  simpa only [Body.Extracts, afterEntries_afterEntry hlast] using hb

/-- An entry that raises leaves the records before it. -/
theorem extracts_raised {r : Raise} {last : Option Nat} (h : Aborted r.cause r.info s (abort r t)) :
    (Body.raised r t).Extracts { records := [], lastLen := last, stop := some r } s :=
  ⟨t, rfl, { h with
    fout := h.fout.trans (List.append_nil _).symm
    foutCnt := h.foutCnt.trans (BitVec.add_zero _).symm }⟩

/-- The loop over the remaining entries; the last length field so far stands in `TOKLEN` and `EXPLEN`. -/
theorem extractLoop_extracts (n : Nat) (s : State) (last : Option Nat) (htbl : s.tbl.length < 2 ^ 32)
    (hidx : s.eidx.toNat + n < 2 ^ 32) (htok : (last.map (BitVec.ofNat 32)).getD s.tokLen = s.tokLen)
    (hexp : (last.map (BitVec.ofNat 32)).getD s.expLen = s.expLen) :
    (extractLoop cfg n s).Extracts (extraction cfg (keyBytes s) s.tbl n s.eidx.toNat s.pp.toNat s.draws last) s := by
  induction n generalizing s last with
  | zero =>
    refine ⟨s, rfl, congrArg State.kept ?_⟩
    simp only [extraction, afterEntries, htok, hexp, List.append_nil, List.length_nil, Nat.add_zero, BitVec.add_zero]
  | succ n ih =>
    have hentry := entryBody_spec cfg s htbl
    rw [extractLoop]
    cases hparse : parseEntry cfg s.tbl s.pp.toNat with
    | error c =>
      simp only [hparse] at hentry
      rw [extraction_truncated hparse, hentry]
      exact extracts_raised (abort_aborted _ s)
    | ok entry =>
      cases hfile : fileOf cfg (keyBytes s) entry.block with
      | error r =>
        simp only [hparse, hfile] at hentry
        obtain ⟨t, hbody, habort⟩ := hentry
        rw [extraction_unreadable hparse hfile, hbody]
        exact extracts_raised (habort _ ▸ abort_aborted _ s)
      | ok file =>
        obtain ⟨len, data⟩ := file
        simp only [hparse, hfile] at hentry
        split at hentry
        · rename_i hhost
          obtain ⟨t, hbody, htblSame, -, heidx, hpp, hkept⟩ := hentry
          rw [extraction_taken hparse hfile hhost, hbody, andThen_ok]
          obtain ⟨l, hlast⟩ := extraction_lastLen cfg (keyBytes s) s.tbl n (s.eidx.toNat + 1)
            (entry.start + entry.block.length) (s.draws + 1) len
          refine extracts_cons hlast (extracts_of_kept (s := t) (s' := afterEntry len _ s) hkept ?_)
          have hidx' : t.eidx.toNat = s.eidx.toNat + 1 := by
            rw [heidx]
            bv_omega
          have hkey : keyBytes t = keyBytes s := (congrArg keyBytes hkept :)
          have hdraws : t.draws = s.draws + 1 := (congrArg State.draws hkept :)
          have htok' : t.tokLen = BitVec.ofNat 32 len := (congrArg State.tokLen hkept :)
          have hexp' : t.expLen = BitVec.ofNat 32 len := (congrArg State.expLen hkept :)
          have hrest := ih t (some len) (by rwa [htblSame]) (by omega) htok'.symm hexp'.symm
          rwa [hkey, hdraws, htblSame, hidx', hpp] at hrest
        · rename_i hhost
          obtain ⟨t, hbody, habort⟩ := hentry
          rw [extraction_refused hparse hfile hhost, hbody]
          exact extracts_raised (habort _ _)

/-! The extraction of a table. -/

/-- The extraction of a table in clear from its first entry on, behind the count. -/
def wholeExtraction (cfg : Config) (key tbl : List Byte) (draw : Nat) : Extraction :=
  extraction cfg key tbl (unToc32 cfg (slice tbl 0 4)) 0 4 draw none

/-- The state in which the loop over the entries of a table begins (R251). -/
def enterTable (cfg : Config) (tbl : List Byte) (s : State) : State :=
  { s with
    tbl := tbl
    pp := BitVec.ofNat 32 Config.lenBytes
    ecnt := BitVec.ofNat 32 (unToc32 cfg (slice tbl 0 Config.lenBytes))
    eidx := 0 }

theorem tableExtract_extracts {payload : List Byte} (hkey : s.klen ≠ 0) (hlong : 4 ≤ payload.length)
    (hword : payload.length < 2 ^ 32) :
    (tableExtract cfg payload s).Extracts
      (wholeExtraction cfg (keyBytes s) (keystream (keyBytes s) payload) s.draws) s := by
  have hcount := unToc32_lt cfg (slice (keystream (keyBytes s) payload) 0 4)
  have htable : ¬ (keystream (keyBytes s) payload).length < Config.lenBytes := by
    rw [keystream_length]
    exact Nat.not_lt.mpr hlong
  rw [tableExtract, if_neg hkey]
  dsimp only
  rw [if_neg htable]
  refine extracts_of_kept (s := enterTable cfg (keystream (keyBytes s) payload) s) rfl
    (extractLoop_extracts _ (enterTable cfg (keystream (keyBytes s) payload) s) none ?_ ?_ rfl rfl)
  · rwa [enterTable, keystream_length]
  · simpa [enterTable] using hcount

theorem tableExtract_truncated {payload : List Byte} (hkey : s.klen ≠ 0) (hshort : payload.length < 4) :
    ∃ t, tableExtract cfg payload s = .raised ⟨.entryCountTruncated, payload.length⟩ t ∧
      ∀ r, abort r t = abort r s := by
  have htable : (keystream (keyBytes s) payload).length < Config.lenBytes := by rwa [keystream_length]
  rw [tableExtract, if_neg hkey]
  dsimp only
  rw [if_pos htable, keystream_length]
  exact ⟨_, rfl, fun _ => rfl⟩

/-- The end of an extracting command (R250, R260). -/
theorem extracted_settle (h : b.Extracts x (startExtract s)) : Extracted x s (b.andThen endExtract).settle := by
  obtain ⟨records, lastLen, stop⟩ := x
  have hcount : (0 : Word) + BitVec.ofNat 32 records.length = BitVec.ofNat 32 records.length := BitVec.zero_add _
  cases stop with
  | none =>
    obtain ⟨t, rfl, hkept⟩ := h
    have hfout : ((Body.ok t).andThen endExtract).settle.fout = s.fout ++ records := (congrArg State.fout hkept :)
    have hfoutCnt : ((Body.ok t).andThen endExtract).settle.foutCnt = 0 + BitVec.ofNat 32 records.length :=
      (congrArg State.foutCnt hkept :)
    refine ⟨hfout, hfoutCnt.trans hcount, rfl, ?_⟩
    dsimp only
    rw [hfout, hfoutCnt]
    have hend := congrArg (fun k => finish (startOut k)) hkept
    simp only [afterEntries, startExtract] at hend
    exact hend
  | some r =>
    obtain ⟨t, rfl, hend⟩ := h
    refine ⟨hend.fout, hend.foutCnt.trans hcount, rfl, ?_⟩
    exact { hend with fout := rfl, foutCnt := rfl }

/-! `TBLX`. -/

theorem tblxWith_truncated (hkey : s.klen ≠ 0) (hshort : s.inLen.toNat < 4) :
    tblxWith cfg s = .next (abort ⟨.entryCountTruncated, s.inLen.toNat⟩ { s with foutCnt := 0 }) := by
  obtain ⟨t, hbody, habort⟩ := tableExtract_truncated (cfg := cfg) (s := startExtract s) (payload := inBytes s) hkey
    (by rwa [inBytes_length])
  rw [tblxWith, hbody, andThen_raised, settle_raised, habort, inBytes_length]
  rfl

theorem tblxWith_extracted (hkey : s.klen ≠ 0) (hlong : 4 ≤ s.inLen.toNat) :
    ∃ t, tblxWith cfg s = .next t ∧
      Extracted (wholeExtraction cfg (keyBytes s) (keystream (keyBytes s) (inBytes s)) s.draws) s t :=
  ⟨_, rfl, extracted_settle (tableExtract_extracts (s := startExtract s) hkey (by rwa [inBytes_length])
    (by rw [inBytes_length]; exact s.inLen.isLt))⟩

/-- Settles O43: fewer than four bytes hold no count; else the loop over the entries ends as the extraction says, and that of no
entry is empty. -/
theorem tblxEmitsEntries : Obligations.TblxEmitsEntries := by
  unfold Obligations.TblxEmitsEntries
  intro s hkey tbl count
  constructor
  · intro hshort
    exact ⟨_, tblxWith_truncated hkey hshort, abort_aborts _ _ _⟩
  · intro hlong
    obtain ⟨t, hexec, hend⟩ := tblxWith_extracted (cfg := Config.block) hkey hlong
    have hend' : Extracted (extraction Config.block (keyBytes s) tbl count 0 4 s.draws none) s t := hend
    refine ⟨t, hexec, hend', fun hzero => ?_⟩
    rw [hzero] at hend'
    obtain ⟨hfout, hfoutCnt, -, hkept⟩ := hend'
    have hnone : t.fout = s.fout := hfout.trans (List.append_nil _)
    rw [hnone, hfoutCnt] at hkept
    exact hkept

end Sys2Proof.Machine
end

section
/-! The build of a folder table (spec/45_folder_payload.md R240 to R245): what each entry appends, which error comes first, and
how `TBLB` and `BFOLD` end by the answer. -/

namespace Sys2Proof.Machine

variable {cfg : Config} {s : State} {key : List Byte} {rec : FinRecord} {recs : List FinRecord} {ps : List Payload}
  {p : Payload} {b b' : Built} {e : Nat} {r : Raise} {i : Instr}

/-! The table in clear (R105). -/

/-- One entry of a table in clear: path length, path, token-stream length, block length, block. -/
def entryBytes (cfg : Config) (rec : FinRecord) (p : Payload) : List Byte :=
  toc32 cfg rec.path.length ++ rec.path ++ toc32 cfg p.tz.dst.length ++ toc32 cfg p.wrk.length ++ p.wrk

/-- Entries one after the other. -/
def entriesBytes (cfg : Config) (recs : List FinRecord) (ps : List Payload) : List Byte :=
  (List.zipWith (entryBytes cfg) recs ps).flatten

theorem clearTable_eq (cfg : Config) (recs : List FinRecord) (ps : List Payload) :
    clearTable cfg recs ps = toc32 cfg recs.length ++ entriesBytes cfg recs ps := rfl

theorem entriesBytes_cons (cfg : Config) (rec : FinRecord) (recs : List FinRecord) (p : Payload) (ps : List Payload) :
    entriesBytes cfg (rec :: recs) (p :: ps) = entryBytes cfg rec p ++ entriesBytes cfg recs ps := rfl

theorem entryBytes_length (cfg : Config) (rec : FinRecord) (p : Payload) :
    (entryBytes cfg rec p).length = 12 + rec.path.length + p.wrk.length := by
  simp only [entryBytes, List.length_append, toc32_length]
  omega

theorem clearTable_length (cfg : Config) (recs : List FinRecord) (ps : List Payload) :
    (clearTable cfg recs ps).length = 4 + (entriesBytes cfg recs ps).length := by
  rw [clearTable_eq, List.length_append, toc32_length]

/-- Each file compresses to its payload, all with the one key (R245). -/
abbrev Compressed (cfg : Config) (key : List Byte) : List FinRecord → List Payload → Prop :=
  List.Forall₂ fun rec p => payloadCompress cfg key rec.data = .ok p

/-! One entry. -/

/-- The lengths of a payload fit their fields. -/
theorem payload_lengths_lt (hp : payloadCompress cfg key rec.data = .ok p) :
    p.tz.dst.length < 2 ^ 32 ∧ p.wrk.length < 2 ^ 32 := by
  obtain ⟨-, -, -, hcap, -, hlen⟩ := payloadCompress_ok hp
  exact ⟨(matchEncode_length_le (matchEncode_of_payloadCompress hp)).trans_lt cfg.bufCap.isLt,
    (hlen.trans_le hcap).trans_lt cfg.bufCap.isLt⟩

theorem buildEntry_appends {tbl : List Byte} (h : buildEntry cfg key rec tbl = .ok b) :
    ∃ p, payloadCompress cfg key rec.data = .ok p ∧ b.last = some p ∧ b.tbl = tbl ++ entryBytes cfg rec p ∧
      b.tbl.length ≤ cfg.bufCap.toNat := by
  obtain ⟨p, hp, hlast, htbl, -, hcap⟩ := buildEntry_ok h
  refine ⟨p, hp, hlast, ?_, hcap⟩
  rw [htbl, entryBytes]
  simp only [List.append_assoc]

theorem buildEntry_stops {tbl : List Byte} (h : buildEntry cfg key rec tbl = .error r) :
    payloadCompress cfg key rec.data = .error r ∨
      ∃ p, payloadCompress cfg key rec.data = .ok p ∧ r.cause = .lengthOverflow ∧
        cfg.bufCap.toNat < (tbl ++ entryBytes cfg rec p).length := by
  rcases buildEntry_error (fun _ => payload_lengths_lt) h with herror | ⟨p, hp, rfl, hover⟩
  · exact .inl herror
  · exact .inr ⟨p, hp, rfl, by rwa [List.length_append, entryBytes_length]⟩

/-! The entries in their order (R241, R243). -/

theorem buildLoop_cons_ok (h : buildEntry cfg key rec b.tbl = .ok b') :
    buildLoop cfg key e (rec :: recs) b = buildLoop cfg key (e + 1) recs b' := by
  rw [buildLoop, h, inEntry]

theorem buildLoop_cons_error (h : buildEntry cfg key rec b.tbl = .error r) :
    buildLoop cfg key e (rec :: recs) b = .error ⟨r.cause, e⟩ := by
  rw [buildLoop, h, inEntry]

theorem buildLoop_ok (h : buildLoop cfg key e recs b = .ok b') :
    ∃ ps, Compressed cfg key recs ps ∧ b'.last = ps.getLast?.or b.last ∧ b'.tbl = b.tbl ++ entriesBytes cfg recs ps := by
  induction recs generalizing e b with
  | nil =>
    cases h
    exact ⟨[], .nil, rfl, (List.append_nil _).symm⟩
  | cons rec recs ih =>
    cases hentry : buildEntry cfg key rec b.tbl with
    | error r =>
      rw [buildLoop_cons_error hentry] at h
      cases h
    | ok b₁ =>
      rw [buildLoop_cons_ok hentry] at h
      obtain ⟨p, hp, hlast, htbl, -⟩ := buildEntry_appends hentry
      obtain ⟨ps, hps, hlast', htbl'⟩ := ih h
      refine ⟨p :: ps, .cons hp hps, ?_, ?_⟩
      · rw [hlast', hlast, List.getLast?_cons]
        cases ps.getLast? <;> rfl
      · rw [htbl', htbl, entriesBytes_cons, List.append_assoc]

theorem buildLoop_fits (hps : Compressed cfg key recs ps)
    (hfits : (b.tbl ++ entriesBytes cfg recs ps).length ≤ cfg.bufCap.toNat) :
    ∃ b', buildLoop cfg key e recs b = .ok b' := by
  induction hps generalizing e b with
  | nil => exact ⟨b, rfl⟩
  | @cons rec p recs ps hp hps ih =>
    rw [entriesBytes_cons, ← List.append_assoc] at hfits
    cases hentry : buildEntry cfg key rec b.tbl with
    | error r =>
      rcases buildEntry_stops hentry with herror | ⟨p', hp', -, hover⟩
      · cases hp.symm.trans herror
      · obtain rfl : p = p' := Except.ok.inj (hp.symm.trans hp')
        rw [List.length_append] at hfits
        omega
    | ok b₁ =>
      obtain ⟨p', hp', -, htbl, -⟩ := buildEntry_appends hentry
      obtain rfl : p = p' := Except.ok.inj (hp.symm.trans hp')
      rw [buildLoop_cons_ok hentry]
      exact ih (by rwa [htbl])

/-- The build stops at the first entry whose file does not compress or whose fields do not fit behind those before it, and names
that entry (R242, R303). -/
theorem buildLoop_error (h : buildLoop cfg key e recs b = .error r) :
    ∃ k rec ps, recs[k]? = some rec ∧ Compressed cfg key (recs.take k) ps ∧
      (k = 0 ∨ (b.tbl ++ entriesBytes cfg (recs.take k) ps).length ≤ cfg.bufCap.toNat) ∧
      ((∃ r', payloadCompress cfg key rec.data = .error r' ∧ r = ⟨r'.cause, e + k⟩) ∨
        ∃ p, payloadCompress cfg key rec.data = .ok p ∧
          cfg.bufCap.toNat < (b.tbl ++ entriesBytes cfg (recs.take (k + 1)) (ps ++ [p])).length ∧
          r = ⟨.lengthOverflow, e + k⟩) := by
  induction recs generalizing e b with
  | nil => cases h
  | cons rec recs ih =>
    cases hentry : buildEntry cfg key rec b.tbl with
    | error r₁ =>
      rw [buildLoop_cons_error hentry] at h
      obtain rfl := Except.error.inj h
      refine ⟨0, rec, [], rfl, .nil, .inl rfl, ?_⟩
      rcases buildEntry_stops hentry with herror | ⟨p, hp, hcause, hover⟩
      · exact .inl ⟨r₁, herror, rfl⟩
      · refine .inr ⟨p, hp, ?_, by rw [hcause, Nat.add_zero]⟩
        rwa [List.nil_append, List.take_succ_cons, List.take_zero, entriesBytes_cons, entriesBytes, List.zipWith_nil_left,
          List.flatten_nil, List.append_nil]
    | ok b₁ =>
      rw [buildLoop_cons_ok hentry] at h
      obtain ⟨p, hp, -, htbl, hcap⟩ := buildEntry_appends hentry
      obtain ⟨k, rec', ps, hrec, hps, hbefore, hstop⟩ := ih h
      have htbl' (recs' : List FinRecord) (ps' : List Payload) :
          b.tbl ++ entriesBytes cfg (rec :: recs') (p :: ps') = b₁.tbl ++ entriesBytes cfg recs' ps' := by
        rw [htbl, entriesBytes_cons, List.append_assoc]
      have hindex : e + 1 + k = e + (k + 1) := by omega
      refine ⟨k + 1, rec', p :: ps, hrec, .cons hp hps, .inr ?_, ?_⟩
      · rw [List.take_succ_cons, htbl']
        rcases hbefore with rfl | hfits
        · cases hps
          simpa [entriesBytes] using hcap
        · exact hfits
      · simpa only [List.take_succ_cons, List.cons_append, htbl', hindex] using hstop

/-! The tests before the entries (R242). -/

theorem firstIoerr_eq (e : Nat) (recs : List FinRecord) :
    firstIoerr e recs = (recs.findIdx? FinRecord.ioerr).map (· + e) := by
  induction recs generalizing e with
  | nil => rfl
  | cons rec recs ih =>
    rw [firstIoerr, List.findIdx?_cons, ih]
    cases rec.ioerr with
    | true => simp
    | false => simp [Function.comp_def, Nat.add_comm, Nat.add_left_comm]

theorem firstIoerr_eq_none : firstIoerr 0 recs = none ↔ ∀ rec ∈ recs, rec.ioerr = false := by
  rw [firstIoerr_eq, Option.map_eq_none_iff, List.findIdx?_eq_none_iff]

theorem firstIoerr_eq_some :
    firstIoerr 0 recs = some e ↔ ∃ rec, recs[e]? = some rec ∧ rec.ioerr = true ∧
      ∀ e' rec', e' < e → recs[e']? = some rec' → rec'.ioerr = false := by
  rw [firstIoerr_eq]
  simp only [Nat.add_zero, Option.map_id_fun', id, List.findIdx?_eq_some_iff_getElem]
  constructor
  · rintro ⟨hlt, hfailed, hbefore⟩
    refine ⟨recs[e], List.getElem?_eq_getElem hlt, hfailed, fun e' rec' he hrec => ?_⟩
    obtain ⟨hlt', rfl⟩ := List.getElem?_eq_some_iff.mp hrec
    exact Bool.eq_false_of_not_eq_true (hbefore e' he)
  · rintro ⟨rec, hrec, hfailed, hbefore⟩
    obtain ⟨hlt, rfl⟩ := List.getElem?_eq_some_iff.mp hrec
    refine ⟨hlt, hfailed, fun e' he hfailed' => ?_⟩
    rw [hbefore e' _ he (List.getElem?_eq_getElem (he.trans hlt))] at hfailed'
    cases hfailed'

theorem tableBuild_readError (h : firstIoerr 0 recs = some e) : tableBuild cfg key recs = .error ⟨.hostReadError, e⟩ := by
  rw [tableBuild, h]

theorem tableBuild_emptyKey (h : ∀ rec ∈ recs, rec.ioerr = false) : tableBuild cfg [] recs = .error ⟨.emptyKey, 0⟩ := by
  rw [tableBuild, firstIoerr_eq_none.mpr h]
  rfl

theorem tableBuild_loop (h : ∀ rec ∈ recs, rec.ioerr = false) (hkey : key ≠ []) :
    tableBuild cfg key recs =
      (buildLoop cfg key 0 recs { tbl := toc32 cfg recs.length, last := none }).map fun b =>
        { b with tbl := keystream key b.tbl } := by
  rw [tableBuild, firstIoerr_eq_none.mpr h]
  simp only [mt List.length_eq_zero_iff.mp hkey, if_false]
  cases buildLoop cfg key 0 recs { tbl := toc32 cfg recs.length, last := none } <;> rfl

theorem tableBuild_ok (h : tableBuild cfg key recs = .ok b) :
    key ≠ [] ∧ (∀ rec ∈ recs, rec.ioerr = false) ∧
      ∃ ps, Compressed cfg key recs ps ∧ b.last = ps.getLast? ∧ b.tbl = keystream key (clearTable cfg recs ps) := by
  cases hread : firstIoerr 0 recs with
  | some e =>
    rw [tableBuild_readError hread] at h
    cases h
  | none =>
    rw [firstIoerr_eq_none] at hread
    have hkey : key ≠ [] := by
      rintro rfl
      rw [tableBuild_emptyKey hread] at h
      cases h
    rw [tableBuild_loop hread hkey] at h
    cases hloop : buildLoop cfg key 0 recs { tbl := toc32 cfg recs.length, last := none } with
    | error r =>
      rw [hloop] at h
      cases h
    | ok b₁ =>
      rw [hloop] at h
      cases h
      obtain ⟨ps, hps, hlast, htbl⟩ := buildLoop_ok hloop
      exact ⟨hkey, hread, ps, hps, hlast.trans Option.or_none, congrArg (keystream key) htbl⟩

theorem tableBuild_fits (hread : ∀ rec ∈ recs, rec.ioerr = false) (hkey : key ≠ []) (hps : Compressed cfg key recs ps)
    (hfits : (clearTable cfg recs ps).length ≤ cfg.bufCap.toNat) : ∃ b, tableBuild cfg key recs = .ok b := by
  rw [clearTable_eq] at hfits
  obtain ⟨b, hloop⟩ := buildLoop_fits (e := 0) (b := { tbl := toc32 cfg recs.length, last := none }) hps hfits
  rw [tableBuild_loop hread hkey, hloop]
  exact ⟨_, rfl⟩

/-- Settles O41: a table that is built, one that can be, and the tests in their order for one that is not. -/
theorem tableHasTheFormat : Obligations.TableHasTheFormat := by
  unfold Obligations.TableHasTheFormat
  intro cfg key recs
  refine ⟨fun b => tableBuild_ok, fun hkey hread ps hps hfits => tableBuild_fits hread hkey hps hfits, fun r h => ?_⟩
  cases hread : firstIoerr 0 recs with
  | some e =>
    rw [tableBuild_readError hread] at h
    obtain rfl := Except.error.inj h
    obtain ⟨rec, hrec, hfailed, hbefore⟩ := firstIoerr_eq_some.mp hread
    exact .inl ⟨e, rec, hrec, hfailed, rfl, hbefore⟩
  | none =>
    rw [firstIoerr_eq_none] at hread
    by_cases hkey : key = []
    · subst hkey
      rw [tableBuild_emptyKey hread] at h
      exact .inr (.inl ⟨hread, rfl, (Except.error.inj h).symm⟩)
    · rw [tableBuild_loop hread hkey] at h
      cases hloop : buildLoop cfg key 0 recs { tbl := toc32 cfg recs.length, last := none } with
      | ok b =>
        rw [hloop] at h
        cases h
      | error r' =>
        rw [hloop] at h
        obtain rfl : r' = r := Except.error.inj h
        obtain ⟨e, rec, ps, hrec, hps, hbefore, hstop⟩ := buildLoop_error hloop
        refine .inr (.inr ⟨hread, hkey, e, rec, ps, hrec, hps, ?_⟩)
        simpa only [clearTable_length, List.length_append, toc32_length, Nat.zero_add] using And.intro hbefore hstop

/-! `TBLB` and `BFOLD` by the answer of the build. -/

theorem buildBody_error (h : tableBuild cfg (keyBytes s) recs = .error r) :
    buildBody cfg recs (startOut s) = .raised r (startOut s) := by
  have h' : tableBuild cfg (keyBytes (startOut s)) recs = .error r := h
  rw [buildBody, h', bodyOf_error]

theorem buildBody_ok (h : tableBuild cfg (keyBytes s) recs = .ok b) :
    buildBody cfg recs (startOut s) = .ok (storeBuilt recs.length b (startOut s)) := by
  have h' : tableBuild cfg (keyBytes (startOut s)) recs = .ok b := h
  rw [buildBody, h', bodyOf_ok]

theorem tblbWith_error (hrecs : finRecords s = some recs) (h : tableBuild cfg (keyBytes s) recs = .error r) :
    tblbWith cfg s = .next (abort r s) := by
  rw [tblbWith, hrecs]
  dsimp only
  rw [buildBody_error h, andThen_raised, settle_raised, abort_startOut]

theorem bfoldWith_error (hrecs : finRecords s = some recs) (h : tableBuild cfg (keyBytes s) recs = .error r) :
    bfoldWith cfg s = .next (abort r s) := by
  rw [bfoldWith, hrecs]
  dsimp only
  rw [buildBody_error h, andThen_raised, settle_raised, abort_startOut]

theorem exec_build_error (hi : i = .tblb ∨ i = .bfold) (hrecs : finRecords s = some recs)
    (h : tableBuild Config.block (keyBytes s) recs = .error r) : exec i s = .next (abort r s) := by
  rcases hi with rfl | rfl
  · exact tblbWith_error hrecs h
  · exact bfoldWith_error hrecs h

/-- Settles O38, by the tests that come before the entries. -/
theorem readErrorsComeFirst : Obligations.ReadErrorsComeFirst := by
  unfold Obligations.ReadErrorsComeFirst
  intro s recs i hi hrecs
  constructor
  · intro e rec hrec hfailed hbefore
    have hfirst := firstIoerr_eq_some.mpr ⟨rec, hrec, hfailed, hbefore⟩
    exact aborts_of_exec (exec_build_error hi hrecs (tableBuild_readError hfirst))
  · intro hread hempty
    refine aborts_of_exec (exec_build_error hi hrecs ?_)
    rw [keyBytes_of_klen_zero hempty]
    exact tableBuild_emptyKey hread

theorem storeBuilt_out (n : Nat) (b : Built) (s : State) : (storeBuilt n b s).out = s.out := by
  obtain ⟨tbl, last⟩ := b
  cases last <;> rfl

/-- A table that is built is delivered if it fits. -/
theorem tblbWith_ok (hrecs : finRecords s = some recs) (h : tableBuild cfg (keyBytes s) recs = .ok b) :
    tblbWith cfg s = .next (appendOut cfg 0 b.tbl (storeBuilt recs.length b (startOut s))).settle := by
  rw [tblbWith, hrecs]
  dsimp only
  rw [buildBody_ok h, andThen_ok]
  rfl

theorem tblbWith_fits (hrecs : finRecords s = some recs) (h : tableBuild cfg (keyBytes s) recs = .ok b)
    (hfits : b.tbl.length ≤ cfg.bufCap.toNat) :
    tblbWith cfg s = .next (finish { storeBuilt recs.length b (startOut s) with out := b.tbl }) := by
  have hout : (storeBuilt recs.length b (startOut s)).out = [] := storeBuilt_out _ _ _
  rw [tblbWith_ok hrecs h, appendOut_fits (by rwa [hout, List.length_nil, Nat.zero_add]), hout]
  rfl

theorem exec_tblb_ok (hrecs : finRecords s = some recs) (h : tableBuild Config.block (keyBytes s) recs = .ok b) :
    ∃ t, exec .tblb s = .next t ∧
      t.kept =
        State.kept
          { s with
            out := b.tbl
            tokLen := (b.last.map (fun p => BitVec.ofNat 32 p.tz.dst.length)).getD s.tokLen
            status := .done } := by
  refine ⟨_, tblbWith_fits hrecs h (tableBuild_bounded h).tblBounded, ?_⟩
  obtain ⟨tbl, last⟩ := b
  cases last with
  | none => simp only [State.kept, finish, storeBuilt, startOut, Option.map_none, Option.getD_none]
  | some p =>
    simp only [State.kept, finish, storeBuilt, storePayload, storeTokenizer, startOut, Option.map_some, Option.getD_some]

theorem tableBuild_nil (hkey : key ≠ []) :
    tableBuild Config.block key [] = .ok { tbl := keystream key [0, 0, 0, 0], last := none } :=
  tableBuild_loop (recs := []) (fun _ h => nomatch h) hkey

/-- Settles O40, by the answer of the build; that of no record is the count alone. -/
theorem tblbBuildsTable : Obligations.TblbBuildsTable := by
  unfold Obligations.TblbBuildsTable
  intro s recs hrecs
  constructor
  · cases h : tableBuild Config.block (keyBytes s) recs with
    | error r => exact aborts_of_exec (exec_build_error (.inl rfl) hrecs h)
    | ok b => exact exec_tblb_ok hrecs h
  · rintro rfl hkey
    exact exec_tblb_ok hrecs (tableBuild_nil (keyBytes_ne_nil hkey))

end Sys2Proof.Machine
end

section
/-! The folder round trip (spec/45_folder_payload.md R261): the entries of a table in clear parse and decompress to the records
it was built from, so an extraction of it by a host that takes every record emits just those. -/

namespace Sys2Proof.Machine

variable {cfg : Config} {s t u : State} {key tbl a v c : List Byte} {pp i n plen blen : Nat} {recs : List FinRecord}
  {ps : List Payload} {rec : FinRecord} {p : Payload} {x : Extraction}

/-! An entry of a built table. -/

theorem slice_append (ha : a.length = i) (hv : v.length = n) : slice (a ++ (v ++ c)) i n = v := by
  rw [slice, List.drop_left' ha, List.take_left' hv]

theorem parseEntry_fits (hplen : unToc32 cfg (slice tbl pp 4) = plen)
    (hblen : unToc32 cfg (slice tbl (pp + 8 + plen) 4) = blen) (hfits : pp + 12 + plen + blen ≤ tbl.length) :
    ∃ entry, parseEntry cfg tbl pp = .ok entry ∧ entry.path = slice tbl (pp + 4) plen ∧
      entry.block = slice tbl (pp + 12 + plen) blen ∧ entry.start = pp + 12 + plen := by
  subst hplen hblen
  have hparse := entryFieldsInOrder cfg tbl pp
  dsimp only at hparse
  rw [if_neg (by omega), if_neg (by omega), if_neg (by omega), if_neg (by omega), if_neg (by omega)] at hparse
  exact ⟨_, hparse, rfl, rfl, rfl⟩

theorem unToc32_field (hn : n < 2 ^ 32) : unToc32 cfg (toc32 cfg n) = n := by
  rw [← List.append_nil (toc32 cfg n), unToc32_toc32 cfg hn]

/-- Between any bytes, an entry parses to its path and its block. -/
theorem parseEntry_entryBytes (hpath : rec.path.length < 2 ^ 32) (hwrk : p.wrk.length < 2 ^ 32) :
    ∃ entry, parseEntry cfg (a ++ (entryBytes cfg rec p ++ c)) a.length = .ok entry ∧ entry.path = rec.path ∧
      entry.block = p.wrk ∧ entry.start + p.wrk.length = (a ++ entryBytes cfg rec p).length := by
  have hlen := entryBytes_length cfg rec p
  have hfits : a.length + 12 + rec.path.length + p.wrk.length ≤ (a ++ (entryBytes cfg rec p ++ c)).length := by
    rw [List.length_append, List.length_append, hlen]
    omega
  have hplen : slice (a ++ (entryBytes cfg rec p ++ c)) a.length 4 = toc32 cfg rec.path.length := by
    simp only [entryBytes, List.append_assoc]
    exact slice_append rfl (toc32_length _ _)
  have hpathBytes : slice (a ++ (entryBytes cfg rec p ++ c)) (a.length + 4) rec.path.length = rec.path := by
    simp only [entryBytes, List.append_assoc]
    rw [← List.append_assoc]
    exact slice_append (by rw [List.length_append, toc32_length]) rfl
  have hblen : slice (a ++ (entryBytes cfg rec p ++ c)) (a.length + 8 + rec.path.length) 4 = toc32 cfg p.wrk.length := by
    simp only [entryBytes, List.append_assoc]
    rw [← List.append_assoc, ← List.append_assoc, ← List.append_assoc]
    exact slice_append (by simp only [List.length_append, toc32_length]; omega) (toc32_length _ _)
  have hblock : slice (a ++ (entryBytes cfg rec p ++ c)) (a.length + 12 + rec.path.length) p.wrk.length = p.wrk := by
    simp only [entryBytes, List.append_assoc]
    rw [← List.append_assoc, ← List.append_assoc, ← List.append_assoc, ← List.append_assoc]
    exact slice_append (by simp only [List.length_append, toc32_length]; omega) rfl
  obtain ⟨entry, hparse, hp, hb, hs⟩ := parseEntry_fits (hplen ▸ unToc32_field hpath) (hblen ▸ unToc32_field hwrk) hfits
  refine ⟨entry, hparse, hp.trans hpathBytes, hb.trans hblock, ?_⟩
  rw [hs, List.length_append, hlen]
  omega

theorem fileOf_payloadCompress {data : List Byte} (hrt : EntRt cfg) (hdata : data.length ≤ cfg.bufCap.toNat)
    (hp : payloadCompress cfg key data = .ok p) : fileOf cfg key p.wrk = .ok (p.tz.dst.length, data) := by
  rw [fileOf, payloadUnpack_payloadCompress hrt hp]
  dsimp only
  rw [matchDecode_matchEncode hdata (matchEncode_of_payloadCompress hp)]

/-! The entries of a built table (R261). -/

/-- The record a host gets back for one it gave (spec/10_state.md R41, R42). -/
def FinRecord.emitted (rec : FinRecord) : FoutRecord := { path := rec.path, data := rec.data }

theorem extraction_entriesBytes (hrt : EntRt cfg) (hhost : ∀ k p d, cfg.hostWrite k p d = true)
    (hps : Compressed cfg key recs ps) (hdata : ∀ rec ∈ recs, rec.data.length ≤ cfg.bufCap.toNat)
    (a : List Byte) (hlen : (a ++ entriesBytes cfg recs ps).length < 2 ^ 32) (e draw : Nat) (last : Option Nat) :
    ∃ l, extraction cfg key (a ++ entriesBytes cfg recs ps) recs.length e a.length draw last =
      { records := recs.map FinRecord.emitted, lastLen := l, stop := none } := by
  induction hps generalizing a e draw last with
  | nil => exact ⟨last, rfl⟩
  | @cons rec p recs ps hp hps ih =>
    obtain ⟨hrec, hrecs⟩ := List.forall_mem_cons.mp hdata
    rw [entriesBytes_cons] at hlen ⊢
    have hbounds : rec.path.length < 2 ^ 32 ∧ p.wrk.length < 2 ^ 32 := by
      have := entryBytes_length cfg rec p
      simp only [List.length_append] at hlen
      omega
    obtain ⟨entry, hparse, hpath, hblock, hend⟩ := parseEntry_entryBytes (cfg := cfg) (a := a)
      (c := entriesBytes cfg recs ps) hbounds.1 hbounds.2
    have hfile : fileOf cfg key entry.block = .ok (p.tz.dst.length, rec.data) := by
      rw [hblock, fileOf_payloadCompress hrt hrec hp]
    rw [List.length_cons, extraction_taken hparse hfile (hhost _ _ _), hblock, hend, ← List.append_assoc]
    obtain ⟨l, hrest⟩ := ih hrecs (a ++ entryBytes cfg rec p) (by rwa [List.append_assoc]) (e + 1) (draw + 1)
      (some p.tz.dst.length)
    rw [hrest, hpath]
    exact ⟨l, rfl⟩

theorem wholeExtraction_clearTable (hrt : EntRt cfg) (hhost : ∀ k p d, cfg.hostWrite k p d = true)
    (hps : Compressed cfg key recs ps) (hdata : ∀ rec ∈ recs, rec.data.length ≤ cfg.bufCap.toNat)
    (hcount : recs.length < 2 ^ 32) (hlen : (clearTable cfg recs ps).length < 2 ^ 32) (draw : Nat) :
    ∃ l, wholeExtraction cfg key (clearTable cfg recs ps) draw =
      { records := recs.map FinRecord.emitted, lastLen := l, stop := none } := by
  have hfield : unToc32 cfg (slice (clearTable cfg recs ps) 0 4) = recs.length := by
    rw [clearTable_eq, slice, List.drop_zero, List.take_left' (toc32_length _ _), unToc32_field hcount]
  rw [wholeExtraction, hfield]
  rw [clearTable_eq] at hlen ⊢
  have hentries := extraction_entriesBytes hrt hhost hps hdata (toc32 cfg recs.length) hlen 0 draw none
  rwa [toc32_length] at hentries

/-! `TBLX` after `TBLB`. -/

theorem extracted_done (h : Extracted x s t) (hstop : x.stop = none) : t.status = .done := by
  have hends := h.ends
  rw [hstop] at hends
  exact (congrArg State.status hends :)

/-- A `TBLB` that ended well built a table that fits and delivered it. -/
theorem tblbWith_done (hrecs : finRecords s = some recs) (hexec : tblbWith cfg s = .next t) (hdone : t.status = .done) :
    ∃ b, tableBuild cfg (keyBytes s) recs = .ok b ∧ b.tbl.length ≤ cfg.bufCap.toNat ∧ t.out = b.tbl := by
  cases hbuild : tableBuild cfg (keyBytes s) recs with
  | error r =>
    obtain rfl := Host.Outcome.next.inj ((tblbWith_error hrecs hbuild).symm.trans hexec)
    cases hdone
  | ok b =>
    by_cases hfits : b.tbl.length ≤ cfg.bufCap.toNat
    · obtain rfl := Host.Outcome.next.inj ((tblbWith_fits hrecs hbuild hfits).symm.trans hexec)
      exact ⟨b, rfl, hfits, rfl⟩
    · obtain rfl := Host.Outcome.next.inj ((tblbWith_ok hrecs hbuild).symm.trans hexec)
      rcases appendOut_cases cfg 0 b.tbl (storeBuilt recs.length b (startOut s)) with ⟨hle, -⟩ | ⟨-, happend⟩
      · omega
      · rw [happend] at hdone
        cases hdone

/-- Settles O45: the keystream pass is its own inverse, and the table in clear gives its records back. -/
theorem folderRoundTrip : Obligations.FolderRoundTrip := by
  unfold Obligations.FolderRoundTrip
  intro cfg s t u recs hrt hhost hrecs hdata hexec hdone hin hsame
  obtain ⟨b, hbuild, hfits, hout⟩ := tblbWith_done hrecs hexec hdone
  obtain ⟨hkey, -, ps, hps, -, htbl⟩ := tableBuild_ok hbuild
  have hpayload : inBytes u = keystream (keyBytes s) (clearTable cfg recs ps) := by rw [hin, hout, htbl]
  have hinLen : u.inLen.toNat = (clearTable cfg recs ps).length := by
    rw [← inBytes_length, hpayload, keystream_length]
  have hcount : recs.length < 2 ^ 32 := (finRecords_some hrecs).1 ▸ s.finCnt.isLt
  have hklen : u.klen ≠ 0 := fun hempty => hkey (hsame ▸ keyBytes_of_klen_zero hempty)
  obtain ⟨v, htblx, hend⟩ := tblxWith_extracted (cfg := cfg) hklen (by rw [hinLen, clearTable_length]; omega)
  obtain ⟨l, hwhole⟩ := wholeExtraction_clearTable hrt hhost hps hdata hcount (hinLen ▸ u.inLen.isLt) u.draws
  rw [hsame, hpayload, keystream_keystream, hwhole] at hend
  refine ⟨v, htblx, extracted_done hend rfl, hend.fout, ?_⟩
  rw [hend.foutCnt, List.length_map, BitVec.toNat_ofNat, Nat.mod_eq_of_lt hcount]

end Sys2Proof.Machine
end

section
/-! The archives that `CFILE` and `BFOLD` write (spec/46_api_commands.md R270, R271, R274, R275): the header with the archive's
flag, then what `FPC` and `TBLB` deliver, if both together fit. -/

namespace Sys2Proof.Machine

variable {cfg : Config} {s t : State} {payload : List Byte} {recs : List FinRecord} {p : Payload} {b : Built} {r : Raise}

/-! Header and payload in `OUT`. -/

theorem archiveBody_overflow (flag : Byte) (hover : 6 + s.klen.toNat + payload.length > cfg.bufCap.toNat) :
    archiveBody cfg flag payload s = .raised ⟨.lengthOverflow, 0⟩ s :=
  if_pos hover

theorem archiveBody_fits (flag : Byte) (hout : s.out = []) (hfits : ¬ 6 + s.klen.toNat + payload.length > cfg.bufCap.toNat) :
    archiveBody cfg flag payload s =
      .ok { s with
        out := headerBytes cfg (keyBytes s) flag ++ payload
        hlen := BitVec.ofNat 9 (6 + s.klen.toNat) } := by
  have hheader : s.out.length + (6 + s.klen.toNat) ≤ cfg.bufCap.toNat := by
    rw [hout, List.length_nil]
    omega
  have hcheck : archiveBody cfg flag payload s = (writeHeader cfg flag s).andThen (appendOut cfg 0 payload) := if_neg hfits
  rw [hcheck, writeHeader_fits flag hheader, hout, List.nil_append, andThen_ok, appendOut_fits]
  rw [headerBytes_length, keyBytes_length]
  exact Nat.not_lt.mp hfits

/-! `CFILE` by the answer of `PayloadCompress`. -/

theorem cfileWith_error (hp : payloadCompress cfg (keyBytes s) (inBytes s) = .error r) :
    cfileWith cfg s = .next (abort r s) := by
  have hp' : payloadCompress cfg (keyBytes (startOut s)) (inBytes (startOut s)) = .error r := hp
  rw [cfileWith, hp', bodyOf_error, andThen_raised, settle_raised, abort_startOut]

theorem cfileWith_ok (hp : payloadCompress cfg (keyBytes s) (inBytes s) = .ok p) :
    cfileWith cfg s = .next (archiveBody cfg 0 p.wrk (storePayload p (startOut s))).settle := by
  have hp' : payloadCompress cfg (keyBytes (startOut s)) (inBytes (startOut s)) = .ok p := hp
  rw [cfileWith, hp', bodyOf_ok, andThen_ok]
  rfl

theorem cfileWith_overflow (hp : payloadCompress cfg (keyBytes s) (inBytes s) = .ok p)
    (hover : 6 + s.klen.toNat + p.wrk.length > cfg.bufCap.toNat) :
    cfileWith cfg s = .next (abort ⟨.lengthOverflow, 0⟩ s) := by
  rw [cfileWith_ok hp, archiveBody_overflow (s := storePayload p (startOut s)) 0 hover]
  rfl

theorem cfileWith_fits (hp : payloadCompress cfg (keyBytes s) (inBytes s) = .ok p)
    (hfits : ¬ 6 + s.klen.toNat + p.wrk.length > cfg.bufCap.toNat) :
    cfileWith cfg s =
      .next (finish
        { storePayload p s with
          out := headerBytes cfg (keyBytes s) 0 ++ p.wrk
          hlen := BitVec.ofNat 9 (6 + s.klen.toNat) }) := by
  rw [cfileWith_ok hp, archiveBody_fits (s := storePayload p (startOut s)) 0 rfl hfits]
  rfl

/-- A `CFILE` that ended well delivered the header and a payload. -/
theorem cfileWith_done (hexec : cfileWith cfg s = .next t) (hdone : t.status = .done) :
    ∃ p, payloadCompress cfg (keyBytes s) (inBytes s) = .ok p ∧ t.out = headerBytes cfg (keyBytes s) 0 ++ p.wrk := by
  cases hp : payloadCompress cfg (keyBytes s) (inBytes s) with
  | error r =>
    obtain rfl := Host.Outcome.next.inj ((cfileWith_error hp).symm.trans hexec)
    cases hdone
  | ok p =>
    by_cases hover : 6 + s.klen.toNat + p.wrk.length > cfg.bufCap.toNat
    · obtain rfl := Host.Outcome.next.inj ((cfileWith_overflow hp hover).symm.trans hexec)
      cases hdone
    · obtain rfl := Host.Outcome.next.inj ((cfileWith_fits hp hover).symm.trans hexec)
      exact ⟨p, rfl, rfl⟩

/-! `BFOLD` by the answer of the build. -/

theorem storeBuilt_kept (n : Nat) (b : Built) (s : State) :
    (storeBuilt n b s).kept =
      State.kept { s with tokLen := (b.last.map (fun p => BitVec.ofNat 32 p.tz.dst.length)).getD s.tokLen } := by
  obtain ⟨tbl, last⟩ := b
  cases last <;> rfl

theorem storeBuilt_klen (n : Nat) (b : Built) (s : State) : (storeBuilt n b s).klen = s.klen :=
  (congrArg State.klen (storeBuilt_kept n b s) :)

theorem bfoldWith_ok (hrecs : finRecords s = some recs) (h : tableBuild cfg (keyBytes s) recs = .ok b) :
    bfoldWith cfg s = .next (archiveBody cfg 1 b.tbl (storeBuilt recs.length b (startOut s))).settle := by
  rw [bfoldWith, hrecs]
  dsimp only
  rw [buildBody_ok h, andThen_ok]
  rfl

theorem abort_storeBuilt (r : Raise) (n : Nat) (b : Built) (s : State) : abort r (storeBuilt n b s) = abort r s := by
  obtain ⟨tbl, last⟩ := b
  cases last <;> rfl

theorem bfoldWith_overflow (hrecs : finRecords s = some recs) (h : tableBuild cfg (keyBytes s) recs = .ok b)
    (hover : 6 + s.klen.toNat + b.tbl.length > cfg.bufCap.toNat) :
    bfoldWith cfg s = .next (abort ⟨.lengthOverflow, 0⟩ s) := by
  rw [bfoldWith_ok hrecs h, archiveBody_overflow 1 (by rwa [storeBuilt_klen]), settle_raised, abort_storeBuilt, abort_startOut]

theorem bfoldWith_fits (hrecs : finRecords s = some recs) (h : tableBuild cfg (keyBytes s) recs = .ok b)
    (hfits : ¬ 6 + s.klen.toNat + b.tbl.length > cfg.bufCap.toNat) :
    bfoldWith cfg s =
      .next (finish
        { storeBuilt recs.length b (startOut s) with
          out := headerBytes cfg (keyBytes s) 1 ++ b.tbl
          hlen := BitVec.ofNat 9 (6 + s.klen.toNat) }) := by
  rw [bfoldWith_ok hrecs h, archiveBody_fits 1 (storeBuilt_out _ _ _) (by rwa [storeBuilt_klen]), settle_ok]
  obtain ⟨tbl, last⟩ := b
  cases last <;> rfl

/-- A `BFOLD` that ended well delivered the header and a table. -/
theorem bfoldWith_done (hrecs : finRecords s = some recs) (hexec : bfoldWith cfg s = .next t) (hdone : t.status = .done) :
    ∃ b, tableBuild cfg (keyBytes s) recs = .ok b ∧ t.out = headerBytes cfg (keyBytes s) 1 ++ b.tbl := by
  cases hbuild : tableBuild cfg (keyBytes s) recs with
  | error r =>
    obtain rfl := Host.Outcome.next.inj ((bfoldWith_error hrecs hbuild).symm.trans hexec)
    cases hdone
  | ok b =>
    by_cases hover : 6 + s.klen.toNat + b.tbl.length > cfg.bufCap.toNat
    · obtain rfl := Host.Outcome.next.inj ((bfoldWith_overflow hrecs hbuild hover).symm.trans hexec)
      cases hdone
    · obtain rfl := Host.Outcome.next.inj ((bfoldWith_fits hrecs hbuild hover).symm.trans hexec)
      exact ⟨b, rfl, rfl⟩

/-! The archive as the results of two commands. -/

theorem exec_hdrw_flag (flag : BitVec 1) (s : State) :
    exec .hdrw { s with flag := flag } =
      .next (finish
        { s with
          flag := flag
          out := headerBytes Config.block (keyBytes s) (flag.setWidth 8)
          hlen := BitVec.ofNat 9 (6 + s.klen.toNat) }) := by
  rw [hdrwWritesHeader, headerBytes_keyBytes]
  rfl

/-- Settles O46, by the answer of `PayloadCompress`, on which both commands depend. -/
theorem cfileIsHeaderThenPayload : Obligations.CfileIsHeaderThenPayload := by
  unfold Obligations.CfileIsHeaderThenPayload
  intro s
  cases hp : payloadCompress Config.block (keyBytes s) (inBytes s) with
  | error r =>
    exact ⟨_, _, exec_hdrw_flag 0 s, fpcWith_error hp, fun _ => cfileWith_error hp, fun hdone => nomatch hdone⟩
  | ok p =>
    refine ⟨_, _, exec_hdrw_flag 0 s, fpcWith_ok hp, fun hfailed => absurd rfl hfailed, fun _ => ?_⟩
    split
    · rename_i hover
      exact aborts_of_exec (cfileWith_overflow hp hover)
    · rename_i hfits
      exact cfileWith_fits hp hfits

/-- Settles O47, by the answer of the build, on which both commands depend. -/
theorem bfoldIsHeaderThenTable : Obligations.BfoldIsHeaderThenTable := by
  unfold Obligations.BfoldIsHeaderThenTable
  intro s recs hrecs
  cases hbuild : tableBuild Config.block (keyBytes s) recs with
  | error r =>
    exact ⟨_, _, exec_hdrw_flag 1 s, tblbWith_error hrecs hbuild, fun _ => bfoldWith_error hrecs hbuild,
      fun hdone => nomatch hdone⟩
  | ok b =>
    refine ⟨_, _, exec_hdrw_flag 1 s, tblbWith_fits hrecs hbuild (tableBuild_bounded hbuild).tblBounded,
      fun hfailed => absurd rfl hfailed, fun _ => ?_⟩
    split
    · rename_i hover
      exact aborts_of_exec (bfoldWith_overflow hrecs hbuild hover)
    · rename_i hfits
      exact bfoldWith_fits hrecs hbuild hfits

end Sys2Proof.Machine
end

section
/-! The archives that `DFILE` and `XFOLD` read (spec/46_api_commands.md R272, R273, R276, R280): the header by its flag, then
what `FPD` and `TBLX` do with the bytes behind it. -/

namespace Sys2Proof.Machine

variable {cfg : Config} {s t : State} {src payload data : List Byte} {h : Header} {w : Unpacked} {x : Extraction} {r : Raise}
  {len : Nat}

/-! The registers of a header (R206). -/

theorem readHeader_bounds (hread : readHeader cfg src = .ok h) : h.key.length ≤ 255 ∧ h.hlen ≤ 261 := by
  obtain ⟨-, -, hfields, hkey⟩ := readHeader_ok hread
  have hbyte := (src.getD 4 0).isLt
  have hlen : h.hlen = 6 + (src.getD 4 0).toNat := congrArg Header.hlen hfields
  omega

theorem keyBytes_storeHeader (hread : readHeader cfg src = .ok h) : keyBytes (storeHeader cfg h s) = h.key :=
  keyBytes_setKey s (readHeader_bounds hread).1

theorem storeHeader_hlen_toNat (hread : readHeader cfg src = .ok h) : (storeHeader cfg h s).hlen.toNat = h.hlen := by
  have hbound := (readHeader_bounds hread).2
  rw [storeHeader_hlen, BitVec.toNat_ofNat, Nat.mod_eq_of_lt (by omega)]

theorem ofBool_eq_one_iff (folder : Bool) : BitVec.ofBool folder = 1 ↔ folder = true := by
  cases folder <;> decide

theorem ofBool_eq_zero_iff (folder : Bool) : BitVec.ofBool folder = 0 ↔ folder = false := by
  cases folder <;> decide

theorem rhdrWith_ok (hread : readHeader cfg (inBytes s) = .ok h) :
    rhdrWith cfg s = .next (finish (storeHeader cfg h (startOut s))) := by
  have hload : loadHeader cfg (startOut s) = .ok (storeHeader cfg h (startOut s)) := loadHeader_ok hread
  rw [rhdrWith, hload, settle_ok]

/-! `PayloadDecompress` by its answer (spec/44_file_payload.md R226, R227). -/

theorem payloadDecompress_unpackError (hw : payloadUnpack cfg (keyBytes s) payload = .error r) :
    payloadDecompress cfg payload s = .raised r s := by
  rw [payloadDecompress, hw, bodyOf_error, andThen_raised]

theorem payloadDecompress_unpacked (hw : payloadUnpack cfg (keyBytes s) payload = .ok w) :
    payloadDecompress cfg payload s =
      detokBody (startTokens .tok .command (storeUnpacked w s)) (detokRun cfg w.tok w.tok.length ⟨0, []⟩) := by
  rw [payloadDecompress, hw, bodyOf_ok, andThen_ok]
  rfl

theorem payloadDecompress_error (hfile : fileOf cfg (keyBytes s) payload = .error r) :
    (payloadDecompress cfg payload s).settle = abort r s := by
  rw [fileOf] at hfile
  cases hw : payloadUnpack cfg (keyBytes s) payload with
  | error r' =>
    obtain rfl : r' = r := by simpa [hw] using hfile
    rw [payloadDecompress_unpackError hw, settle_raised]
  | ok w =>
    rw [payloadDecompress_unpacked hw]
    simp only [hw, matchDecode] at hfile
    cases hrun : detokRun cfg w.tok w.tok.length ⟨0, []⟩ with
    | error r' =>
      obtain rfl : r' = r := by simpa [hrun] using hfile
      rfl
    | ok d => simp [hrun] at hfile

theorem payloadDecompress_ok (hfile : fileOf cfg (keyBytes s) payload = .ok (len, data)) :
    (payloadDecompress cfg payload s).settle.kept =
      State.kept { s with out := data, tokLen := BitVec.ofNat 32 len, expLen := BitVec.ofNat 32 len, status := .done } := by
  rw [fileOf] at hfile
  cases hw : payloadUnpack cfg (keyBytes s) payload with
  | error r => simp [hw] at hfile
  | ok w =>
    rw [payloadDecompress_unpacked hw]
    simp only [hw, matchDecode] at hfile
    cases hrun : detokRun cfg w.tok w.tok.length ⟨0, []⟩ with
    | error r => simp [hrun] at hfile
    | ok d =>
      obtain ⟨rfl, rfl⟩ : w.len = len ∧ d.out = data := by simpa [hrun] using hfile
      rfl

/-- The payload is an argument: what stands in `IN`, and how the command before ended, does not matter. -/
theorem payloadDecompress_inputs (m : Memory) (n : Word) :
    (payloadDecompress cfg payload s).settle =
      { (payloadDecompress cfg payload { finish s with inMem := m, inLen := n }).settle with
        inMem := s.inMem
        inLen := s.inLen } := by
  cases hw : payloadUnpack cfg (keyBytes s) payload with
  | error r =>
    rw [payloadDecompress_unpackError hw,
      payloadDecompress_unpackError (s := { finish s with inMem := m, inLen := n }) hw]
    rfl
  | ok w =>
    rw [payloadDecompress_unpacked hw, payloadDecompress_unpacked (s := { finish s with inMem := m, inLen := n }) hw]
    cases detokRun cfg w.tok w.tok.length ⟨0, []⟩ <;> rfl

/-! `DFILE` by the header's flag. -/

theorem dfileWith_folder (hread : readHeader cfg (inBytes s) = .ok h) (hflag : flagDecode cfg h.flagRaw = true) :
    dfileWith cfg s = .next (abort ⟨.notFileArchive, h.flagRaw.toNat⟩ (storeHeader cfg h s)) := by
  have hload : loadHeader cfg (startOut s) = .ok (storeHeader cfg h (startOut s)) := loadHeader_ok hread
  rw [dfileWith, hload, andThen_ok, storeHeader_flag, if_pos ((ofBool_eq_one_iff _).mpr hflag), settle_raised]
  rfl

theorem inBytes_chooseKey (operand : List Byte) : inBytes (chooseKey cfg operand s) = inBytes s := by
  unfold chooseKey
  cases cfg.decompKeySource <;> rfl

theorem chooseKey_hlen (operand : List Byte) : (chooseKey cfg operand s).hlen = s.hlen := by
  unfold chooseKey
  cases cfg.decompKeySource <;> rfl

/-- The payload is what stands behind the header, whichever key is chosen. -/
theorem dfileWith_file (hread : readHeader cfg (inBytes s) = .ok h) (hflag : flagDecode cfg h.flagRaw = false) :
    dfileWith cfg s =
      .next (payloadDecompress cfg ((inBytes s).drop h.hlen)
        (chooseKey cfg (keyBytes s) (storeHeader cfg h (startOut s)))).settle := by
  have hload : loadHeader cfg (startOut s) = .ok (storeHeader cfg h (startOut s)) := loadHeader_ok hread
  have hfile : ¬ BitVec.ofBool (flagDecode cfg h.flagRaw) = 1 := by
    rw [ofBool_eq_one_iff, hflag]
    decide
  rw [dfileWith, hload, andThen_ok, storeHeader_flag, if_neg hfile]
  dsimp only
  rw [inBytes_chooseKey, chooseKey_hlen, storeHeader_hlen_toNat hread]
  rfl

/-- The block takes the header's key (R273, the default). -/
theorem exec_dfile_file (hread : readHeader Config.block (inBytes s) = .ok h)
    (hflag : flagDecode Config.block h.flagRaw = false) :
    exec .dfile s =
      .next (payloadDecompress Config.block ((inBytes s).drop h.hlen) (storeHeader Config.block h (startOut s))).settle :=
  dfileWith_file hread hflag

/-- Settles O48, by the answer of the header's read and then by its flag. -/
theorem dfileIsHeaderThenPayload : Obligations.DfileIsHeaderThenPayload := by
  unfold Obligations.DfileIsHeaderThenPayload
  intro s
  cases hread : readHeader Config.block (inBytes s) with
  | error r =>
    exact ⟨_, exec_rhdr_error hread, fun _ => exec_dfile_error hread, fun hdone => (nomatch hdone),
      fun hdone => (nomatch hdone), fun hdone => nomatch hdone⟩
  | ok h =>
    refine ⟨_, exec_rhdr_ok hread, fun hfailed => absurd rfl hfailed, fun _ hflag => ?_, fun _ hflag hempty => ?_,
      fun _ hflag m n hin => ?_⟩
    · exact ⟨_, dfileWith_folder hread ((ofBool_eq_one_iff _).mp hflag), abort_aborts _ _ _⟩
    · have hkey : keyBytes (storeHeader Config.block h (startOut s)) = [] := keyBytes_of_klen_zero hempty
      refine ⟨_, exec_dfile_file hread ((ofBool_eq_zero_iff _).mp hflag), ?_⟩
      rw [payloadDecompress_unpackError (by rw [hkey, payloadUnpack_emptyKey]), settle_raised]
      exact abort_aborts _ _ _
    · have hrest : inBytes { finish (storeHeader Config.block h (startOut s)) with inMem := m, inLen := n } =
          (inBytes s).drop h.hlen := by
        rw [hin, ← storeHeader_hlen_toNat (s := s) hread]
        rfl
      refine ⟨(payloadDecompress Config.block ((inBytes s).drop h.hlen)
        { finish (storeHeader Config.block h (startOut s)) with inMem := m, inLen := n }).settle, ?_, ?_⟩
      · rw [← hrest]
        rfl
      · exact (exec_dfile_file hread ((ofBool_eq_zero_iff _).mp hflag)).trans
          (congrArg Host.Outcome.next (payloadDecompress_inputs m n))

/-! `XFOLD` by the header's flag. -/

theorem xfoldWith_file (hread : readHeader cfg (inBytes s) = .ok h) (hflag : flagDecode cfg h.flagRaw = false) :
    xfoldWith cfg s =
      .next (abort ⟨.notFolderArchive, h.flagRaw.toNat⟩ (storeHeader cfg h { s with foutCnt := 0 })) := by
  have hload : loadHeader cfg (startExtract s) = .ok (storeHeader cfg h (startExtract s)) := loadHeader_ok hread
  rw [xfoldWith, hload, andThen_ok, storeHeader_flag, if_pos ((ofBool_eq_zero_iff _).mpr hflag), andThen_raised,
    settle_raised]
  rfl

theorem xfoldWith_folder (hread : readHeader cfg (inBytes s) = .ok h) (hflag : flagDecode cfg h.flagRaw = true) :
    xfoldWith cfg s =
      .next ((tableExtract cfg ((inBytes s).drop h.hlen) (startExtract (storeHeader cfg h s))).andThen endExtract).settle := by
  have hload : loadHeader cfg (startExtract s) = .ok (storeHeader cfg h (startExtract s)) := loadHeader_ok hread
  have hfolder : ¬ BitVec.ofBool (flagDecode cfg h.flagRaw) = 0 := by
    rw [ofBool_eq_zero_iff, hflag]
    decide
  rw [xfoldWith, hload, andThen_ok, storeHeader_flag, if_neg hfolder, storeHeader_hlen_toNat hread]
  rfl

/-! The end of an extraction of any bytes, by its checks. -/

theorem extract_emptyKey (hkey : s.klen = 0) :
    ((tableExtract cfg payload (startExtract s)).andThen endExtract).settle =
      abort ⟨.emptyKey, 0⟩ { s with foutCnt := 0 } := by
  have hbody : tableExtract cfg payload (startExtract s) = .raised ⟨.emptyKey, 0⟩ (startExtract s) := if_pos hkey
  rw [hbody, andThen_raised, settle_raised]
  rfl

theorem extract_truncated (hkey : s.klen ≠ 0) (hshort : payload.length < 4) :
    ((tableExtract cfg payload (startExtract s)).andThen endExtract).settle =
      abort ⟨.entryCountTruncated, payload.length⟩ { s with foutCnt := 0 } := by
  obtain ⟨t, hbody, habort⟩ := tableExtract_truncated (cfg := cfg) (s := startExtract s) hkey hshort
  rw [hbody, andThen_raised, settle_raised, habort]
  rfl

theorem extract_extracted (hkey : s.klen ≠ 0) (hlong : 4 ≤ payload.length) (hword : payload.length < 2 ^ 32) :
    Extracted (wholeExtraction cfg (keyBytes s) (keystream (keyBytes s) payload) s.draws) s
      ((tableExtract cfg payload (startExtract s)).andThen endExtract).settle :=
  extracted_settle (tableExtract_extracts (s := startExtract s) hkey hlong hword)

/-- How the command before ended, and what it left in `OUT`, does not matter. -/
theorem extracted_afterCommand (hx : Extracted x s t) : Extracted x (finish (startOut s)) t := by
  obtain ⟨hfout, hfoutCnt, hout, hends⟩ := hx
  refine ⟨hfout, hfoutCnt, hout, ?_⟩
  cases hstop : x.stop with
  | none =>
    rw [hstop] at hends
    exact hends
  | some r =>
    rw [hstop] at hends
    exact { hends with }

theorem afterHeader_length_lt (s : State) (n : Nat) : ((inBytes s).drop n).length < 2 ^ 32 := by
  have hin := s.inLen.isLt
  rw [List.length_drop, inBytes_length]
  omega

/-- Settles O49, by the header's flag and then by the checks of the extraction. -/
theorem xfoldIsHeaderThenTable : Obligations.XfoldIsHeaderThenTable := by
  unfold Obligations.XfoldIsHeaderThenTable
  intro s
  cases hread : readHeader Config.block (inBytes s) with
  | error r => exact ⟨_, exec_rhdr_error hread, fun hdone => (nomatch hdone), fun hdone => nomatch hdone⟩
  | ok h =>
    refine ⟨_, exec_rhdr_ok hread, fun _ hflag => ?_, fun _ hflag => ?_⟩
    · exact ⟨_, xfoldWith_file hread ((ofBool_eq_zero_iff _).mp hflag), abort_aborts _ _ _⟩
    · intro clear
      have hclear : clear = keystream (keyBytes (storeHeader Config.block h s)) ((inBytes s).drop h.hlen) := by
        rw [← storeHeader_hlen_toNat (s := s) hread]
        rfl
      have hlen : clear.length = ((inBytes s).drop h.hlen).length := by rw [hclear, keystream_length]
      refine ⟨_, xfoldWith_folder hread ((ofBool_eq_one_iff _).mp hflag), fun hempty => ?_, fun hkey hshort => ?_,
        fun hkey hlong => ?_⟩
      · rw [extract_emptyKey (s := storeHeader Config.block h s) hempty]
        exact abort_aborts _ _ _
      · rw [hlen] at hshort ⊢
        rw [extract_truncated (s := storeHeader Config.block h s) hkey hshort]
        exact abort_aborts _ _ _
      · rw [hlen] at hlong
        have hx := extract_extracted (cfg := Config.block) (s := storeHeader Config.block h s) hkey hlong
          (afterHeader_length_lt s h.hlen)
        rw [← hclear] at hx
        exact extracted_afterCommand hx

end Sys2Proof.Machine
end

section
/-! The archive commands as a whole (spec/46_api_commands.md R270 to R281): the two round trips, and how each command
completes. -/

namespace Sys2Proof.Machine

variable {cfg : Config} {s u : State} {key T y data : List Byte} {recs : List FinRecord} {b : Built} {h : Header}
  {x : Extraction} {len : Nat}

/-! An archive in `IN` (R281). -/

/-- The header that an archive with this key and flag byte begins with. -/
def archiveHeader (key : List Byte) (flag : Byte) : Header := { key := key, flagRaw := flag, hlen := 6 + key.length }

@[simp] theorem archiveHeader_key (key : List Byte) (flag : Byte) : (archiveHeader key flag).key = key := rfl

/-- The header reads back, and behind it stands the payload. -/
theorem archive_reads {flag : Byte} {payload : List Byte} (hin : inBytes u = headerBytes cfg (keyBytes s) flag ++ payload) :
    readHeader cfg (inBytes u) = .ok (archiveHeader (keyBytes s) flag) ∧
      (inBytes u).drop (archiveHeader (keyBytes s) flag).hlen = payload := by
  have hkey : (keyBytes s).length ≤ 255 := (keyBytes_length s).trans_le (Nat.le_pred_of_lt s.klen.isLt)
  rw [hin]
  exact ⟨readHeader_headerBytes hkey flag payload, List.drop_left' (headerBytes_length _ _ _)⟩

/-- R281 (c): `RHDR` reads the key and the kind. -/
theorem rhdr_archive {flag : Byte} (hread : readHeader cfg (inBytes u) = .ok (archiveHeader key flag)) :
    ∃ r, rhdrWith cfg u = .next r ∧ r.status = .done ∧ keyBytes r = key ∧
      r.flag = BitVec.ofBool (flagDecode cfg flag) :=
  ⟨_, rhdrWith_ok hread, rfl, keyBytes_storeHeader (s := u) hread, rfl⟩

/-- With either key source (R273) the key chosen is the header's, if the operand is that key. -/
theorem keyBytes_chooseKey {operand : List Byte} (hread : readHeader cfg (inBytes u) = .ok h)
    (hoperand : cfg.decompKeySource = .operand → operand = h.key) :
    keyBytes (chooseKey cfg operand (storeHeader cfg h s)) = h.key := by
  unfold chooseKey
  cases hsource : cfg.decompKeySource with
  | header => exact keyBytes_storeHeader hread
  | operand =>
    rw [hoperand hsource]
    exact keyBytes_setKey _ (readHeader_bounds hread).1

/-- `DFILE` on a file's archive, under the header's key. -/
theorem dfileWith_decoded (hread : readHeader cfg (inBytes u) = .ok h) (hflag : flagDecode cfg h.flagRaw = false)
    (hoperand : cfg.decompKeySource = .operand → keyBytes u = h.key)
    (hfile : fileOf cfg h.key ((inBytes u).drop h.hlen) = .ok (len, data)) :
    ∃ t, dfileWith cfg u = .next t ∧ t.status = .done ∧ t.out = data ∧ keyBytes t = h.key := by
  have hkey := keyBytes_chooseKey (s := startOut u) hread hoperand
  rw [← hkey] at hfile
  have hkept := payloadDecompress_ok hfile
  exact ⟨_, dfileWith_file hread hflag, (congrArg State.status hkept :), (congrArg State.out hkept :),
    (congrArg keyBytes hkept :).trans hkey⟩

/-- Settles O50: the header's key reads back, and under it the payload decompresses to the file. -/
theorem fileArchiveRoundTrip : Obligations.FileArchiveRoundTrip := by
  unfold Obligations.FileArchiveRoundTrip
  intro cfg s t u hrt hsrc hexec hdone hin
  obtain ⟨p, hp, hout⟩ := cfileWith_done hexec hdone
  obtain ⟨hread, hpayload⟩ := archive_reads (hin.trans hout)
  refine ⟨rhdr_archive hread, fun hoperand => ?_⟩
  refine dfileWith_decoded hread rfl hoperand (len := p.tz.dst.length) ?_
  rw [hpayload]
  exact fileOf_payloadCompress hrt ((inBytes_length s).trans_le hsrc) hp

/-! The records of a folder archive. -/

/-- The extraction of a table that was built gives its records back, and their number. -/
theorem wholeExtraction_tableBuild (hrt : EntRt cfg) (hhost : ∀ k p d, cfg.hostWrite k p d = true)
    (hdata : ∀ rec ∈ recs, rec.data.length ≤ cfg.bufCap.toNat) (hcount : recs.length < 2 ^ 32)
    (hbuild : tableBuild cfg key recs = .ok b) (hlen : b.tbl.length < 2 ^ 32) (draw : Nat) :
    4 ≤ b.tbl.length ∧ ∃ l, wholeExtraction cfg key (keystream key b.tbl) draw =
      { records := recs.map FinRecord.emitted, lastLen := l, stop := none } := by
  obtain ⟨-, -, ps, hps, -, htbl⟩ := tableBuild_ok hbuild
  rw [htbl, keystream_length] at hlen
  rw [htbl, keystream_length, keystream_keystream]
  exact ⟨by rw [clearTable_length]; omega, wholeExtraction_clearTable hrt hhost hps hdata hcount hlen draw⟩

theorem extracted_keyBytes (hx : Extracted x s u) (hstop : x.stop = none) : keyBytes u = keyBytes s := by
  have hends := hx.ends
  rw [hstop] at hends
  exact (congrArg keyBytes hends :)

/-- `XFOLD` on a folder's archive with a key and a count. -/
theorem xfoldWith_extracted (hread : readHeader cfg (inBytes s) = .ok h) (hflag : flagDecode cfg h.flagRaw = true)
    (hkey : h.key ≠ []) (hlong : 4 ≤ ((inBytes s).drop h.hlen).length) :
    ∃ t, xfoldWith cfg s = .next t ∧
      Extracted (wholeExtraction cfg h.key (keystream h.key ((inBytes s).drop h.hlen)) s.draws) (storeHeader cfg h s) t := by
  have hkeyBytes : keyBytes (storeHeader cfg h s) = h.key := keyBytes_storeHeader hread
  have hklen : (storeHeader cfg h s).klen ≠ 0 := fun hempty => hkey (hkeyBytes ▸ keyBytes_of_klen_zero hempty)
  have hx := extract_extracted (cfg := cfg) hklen hlong (afterHeader_length_lt s h.hlen)
  rw [hkeyBytes] at hx
  exact ⟨_, xfoldWith_folder hread hflag, hx⟩

/-- Settles O51: the header's key reads back, and under it the table gives its records back. -/
theorem folderArchiveRoundTrip : Obligations.FolderArchiveRoundTrip := by
  unfold Obligations.FolderArchiveRoundTrip
  intro cfg s t u recs hrt hhost hrecs hdata hexec hdone hin
  obtain ⟨b, hbuild, hout⟩ := bfoldWith_done hrecs hexec hdone
  obtain ⟨hread, htable⟩ := archive_reads (hin.trans hout)
  refine ⟨rhdr_archive hread, ?_⟩
  have hcount : recs.length < 2 ^ 32 := (finRecords_some hrecs).1 ▸ s.finCnt.isLt
  obtain ⟨hlong, l, hwhole⟩ := wholeExtraction_tableBuild hrt hhost hdata hcount hbuild
    (htable ▸ afterHeader_length_lt u _) u.draws
  obtain ⟨hkey, -⟩ := tableBuild_ok hbuild
  obtain ⟨v, hxfold, hx⟩ := xfoldWith_extracted hread rfl hkey (htable.symm ▸ hlong)
  rw [htable, archiveHeader_key, hwhole] at hx
  refine ⟨v, hxfold, extracted_done hx rfl, hx.fout, ?_, (extracted_keyBytes hx rfl).trans (keyBytes_storeHeader hread)⟩
  rw [hx.foutCnt, List.length_map, BitVec.toNat_ofNat, Nat.mod_eq_of_lt hcount]

/-! How the archive commands complete, under conditions on the state alone. -/

/-- With the tokens and the coder's answer, the capacity decides: a payload that is too long alone makes an archive that is too
long. -/
theorem exec_cfile_encoded (hkey : s.klen ≠ 0) (htokens : matchEncode Config.block (inBytes s) = .ok T)
    (hcoder : Config.block.entropyEnc T = some y) :
    if 6 + s.klen.toNat + (4 + y.length) > Config.block.bufCap.toNat then Aborts .cfile s .lengthOverflow 0
    else
      ∃ t, exec .cfile s = .next t ∧
        t.kept =
          State.kept
            { s with
              out := headerBytes Config.block (keyBytes s) 0 ++ keystream (keyBytes s) (le32 T.length ++ y)
              hlen := BitVec.ofNat 9 (6 + s.klen.toNat)
              tokLen := BitVec.ofNat 32 T.length
              status := .done } := by
  by_cases hpayload : 4 + y.length > Config.block.bufCap.toNat
  · rw [if_pos (by omega)]
    exact aborts_of_exec (cfileWith_error (payloadCompress_overflow (keyBytes_ne_nil hkey) htokens hcoder hpayload))
  · obtain ⟨p, hp, rfl, rfl, hwrk⟩ := payloadCompress_fits (keyBytes_ne_nil hkey) htokens hcoder hpayload
    have hlen : p.wrk.length = 4 + p.ent.length := by rw [hwrk, keystream_length, List.length_append, le32_length]
    rw [← hlen]
    split
    · rename_i hover
      exact aborts_of_exec (cfileWith_overflow hp hover)
    · rename_i hfits
      exact ⟨_, cfileWith_fits hp hfits, by rw [← hwrk]; rfl⟩

theorem exec_bfold_fits (hrecs : finRecords s = some recs) (hbuild : tableBuild Config.block (keyBytes s) recs = .ok b)
    (hfits : 6 + s.klen.toNat + b.tbl.length ≤ Config.block.bufCap.toNat) :
    ∃ t, exec .bfold s = .next t ∧
      t.kept =
        State.kept
          { s with
            out := headerBytes Config.block (keyBytes s) 1 ++ b.tbl
            hlen := BitVec.ofNat 9 (6 + s.klen.toNat)
            tokLen := (b.last.map (fun p => BitVec.ofNat 32 p.tz.dst.length)).getD s.tokLen
            status := .done } := by
  refine ⟨_, bfoldWith_fits hrecs hbuild (Nat.not_lt.mpr hfits), ?_⟩
  have hkept := storeBuilt_kept recs.length b (startOut s)
  exact congrArg (fun k => (finish { k with
    out := headerBytes Config.block (keyBytes s) 1 ++ b.tbl
    hlen := BitVec.ofNat 9 (6 + s.klen.toNat) }).kept) hkept

/-- Settles O52, command by command. -/
theorem archiveCommandsComplete : Obligations.ArchiveCommandsComplete := by
  unfold Obligations.ArchiveCommandsComplete
  refine ⟨fun s hkey => ?_, fun s recs b => exec_bfold_fits, fun s h hread hflag => ?_,
    fun s h hread hflag hkey hlong => ?_⟩
  · split
    · rename_i r htokens
      exact aborts_of_exec (cfileWith_error (payloadCompress_tokensOverflow (keyBytes_ne_nil hkey) htokens))
    · rename_i T htokens
      split
      · rename_i hcoder
        exact aborts_of_exec (cfileWith_error (payloadCompress_encodeFailed (keyBytes_ne_nil hkey) htokens hcoder))
      · rename_i y hcoder
        exact exec_cfile_encoded hkey htokens hcoder
  · have hkeyBytes : keyBytes (storeHeader Config.block h (startOut s)) = h.key := keyBytes_storeHeader hread
    rw [← hkeyBytes]
    split
    · rename_i r hfile
      exact ⟨_, exec_dfile_file hread hflag, payloadDecompress_error hfile ▸ abort_aborted r _⟩
    · rename_i len data hfile
      exact ⟨_, exec_dfile_file hread hflag, payloadDecompress_ok hfile⟩
  · have hcount : 4 ≤ ((inBytes s).drop h.hlen).length := by
      rw [List.length_drop, inBytes_length]
      omega
    obtain ⟨t, hexec, hx⟩ := xfoldWith_extracted hread hflag hkey hcount
    refine ⟨fun hzero => ?_, fun hstop => ⟨t, hexec, extracted_done hx hstop, hx⟩⟩
    rw [hzero]
    rfl

end Sys2Proof.Machine
end

section
/-! The acknowledge of a completion or an error (spec/60_exceptions.md R320): the write of `CMD`, and what the other accesses
leave alone. -/

namespace Sys2Proof.Machine

variable {s t : State} {a : HostAccess} {rest : List HostAccess}

/-- A `CMD` code is written as a word that holds it, and starts that command. -/
theorem hostWriteReg_cmd (code : Byte) (s : State) : hostWriteReg 0 (code.setWidth 32) s = startCommand code s := by
  have hcode : (code.setWidth 32).setWidth 8 = code := BitVec.setWidth_setWidth_of_le code (by decide)
  exact congrArg (startCommand · s) hcode

/-- `CMD` changes by its own write and by reset alone. -/
theorem serveAccess_cmd (hwrite : ∀ v, a ≠ .writeReg 0 v) (hreset : a ≠ .reset) (hduring : ∀ k, a ≠ .resetDuring k)
    (h : serveAccess a rest s = .next t) : t.cmd = s.cmd := by
  cases a with
  | reset => exact absurd rfl hreset
  | resetDuring k => exact absurd rfl (hduring k)
  | writeReg no v =>
    cases h
    have hno : no ≠ 0 := fun hno => hwrite v (hno ▸ rfl)
    rw [(hostWriteReg_writes hno : hostWriteReg no v { s with pending := rest } = _)]
    rfl
  | readReg no =>
    cases h
    unfold hostReadReg
    split <;> rfl
  | writeFin i r =>
    simp only [serveAccess, hostAccess] at h
    split at h
    · cases h
    · cases h
      rfl
  | writeIn i b => cases h; rfl
  | readIn i => cases h; rfl
  | writeOut i b => cases h; rfl
  | readOut i => cases h; rfl

/-- Settles O8, by the access that the waiting engine serves, if there is one. -/
theorem commandWriteAcknowledges : Obligations.CommandWriteAcknowledges := by
  unfold Obligations.CommandWriteAcknowledges
  refine ⟨fun s code rest hidle hpending => ?_, fun s => step_waits,
    fun s t a rest hidle hpending hwrite hreset hduring hstep => ?_⟩
  · rw [step_writeReg hidle hpending, hostWriteReg_cmd]
    rfl
  · rw [step_serves hidle hpending] at hstep
    rcases serveAccess_status hstep with ⟨rfl | ⟨k, rfl⟩, -⟩ | ⟨⟨v, rfl⟩, -⟩ | hsame
    · exact absurd rfl hreset
    · exact absurd rfl (hduring k)
    · exact absurd rfl (hwrite v)
    · exact ⟨hsame.status, serveAccess_cmd hwrite hreset hduring hstep, hsame.errKind, hsame.errCause, hsame.errInfo⟩

end Sys2Proof.Machine
end

section
/-! The causes each instruction can raise (spec/60_exceptions.md R302): a bound on the errors of each operation, on those of each
part of a command, and on those of the command. The bounds are the rows of `allowedCauses`; a part that has no row of its own
has that of the command which is that part (`MDEC` the detokenizer, `FPD` `PayloadDecompress`, `RHDR` the header's read). -/

namespace Sys2Proof.Machine

variable {cfg : Config} {s : State} {cs cs' : List Cause} {α : Type}

/-! Bounds on the causes. -/

/-- Every error the result can be has its cause in `cs`. -/
def ErrorsIn (cs : List Cause) (x : Except Raise α) : Prop := ∀ r, x = .error r → r.cause ∈ cs

/-- A body that raises raises a cause in `cs`. -/
def Body.RaisesIn (cs : List Cause) : Body → Prop
  | .ok _ => True
  | .raised r _ => r.cause ∈ cs

theorem errorsIn_mono {x : Except Raise α} (h : ErrorsIn cs x) (hsub : cs ⊆ cs') : ErrorsIn cs' x :=
  fun r hr => hsub (h r hr)

/-- Working on an entry changes the datum of an error, not its cause (R303). -/
theorem errorsIn_inEntry {x : Except Raise α} {e : Nat} (h : ErrorsIn cs x) : ErrorsIn cs (inEntry e x) := by
  cases x with
  | ok a => rintro r ⟨⟩
  | error r =>
    rintro _ ⟨⟩
    exact h r rfl

theorem raisesIn_raised {c : Cause} {info : Nat} (h : c ∈ cs) : (Body.raised ⟨c, info⟩ s).RaisesIn cs := h

theorem raisesIn_mono {b : Body} (h : b.RaisesIn cs) (hsub : cs ⊆ cs') : b.RaisesIn cs' := by
  cases b with
  | ok s => trivial
  | raised r s => exact hsub h

theorem raisesIn_andThen {b : Body} {f : State → Body} (h : b.RaisesIn cs) (hf : ∀ u, (f u).RaisesIn cs) :
    (b.andThen f).RaisesIn cs := by
  cases b with
  | ok s => exact hf s
  | raised r s => exact h

theorem raisesIn_bodyOf {x : Except Raise α} {store : α → State} (h : ErrorsIn cs x) : (bodyOf x s store).RaisesIn cs := by
  cases x with
  | ok a => trivial
  | error r => exact h r rfl

/-! The operations. -/

theorem appendTo_errorsIn {info : Nat} {buf v : List Byte} : ErrorsIn [.lengthOverflow] (appendTo cfg info buf v) := by
  intro r hr
  rcases appendTo_cases cfg info buf v with ⟨-, h⟩ | ⟨-, h⟩
  · exact nomatch h.symm.trans hr
  · obtain rfl := Except.error.inj (h.symm.trans hr)
    exact List.mem_singleton_self _

theorem tokenize_errorsIn {src : List Byte} : ErrorsIn (allowedCauses .menc) (tokenize cfg src) := by
  intro r hr
  rw [tokenize_error hr]
  decide

theorem litToken_errorsIn {n : Nat} {raw : List Byte} {d : Detok} :
    ErrorsIn (allowedCauses (.lit raw)) (litToken cfg n raw d) := by
  intro r hr
  rcases litToken_error hr with ⟨-, rfl⟩ | ⟨-, -, rfl⟩ <;> simp [allowedCauses]

theorem matchToken_errorsIn {n : Nat} {lm3 : BitVec 7} {off : BitVec 16} {d : Detok} :
    ErrorsIn (allowedCauses (.matchRef lm3 off)) (matchToken cfg n (matchLength lm3) off.toNat d) := by
  intro r hr
  rcases matchToken_error hr with ⟨-, rfl⟩ | ⟨-, -, rfl⟩ | ⟨-, -, -, -, rfl⟩ <;> simp [allowedCauses]

theorem entropyEncode_errorsIn {x : List Byte} : ErrorsIn (allowedCauses .eenc) (entropyEncode cfg x) := by
  intro r hr
  rw [(entropyEncode_error hr).2]
  decide

theorem entropyDecode_errorsIn {y : List Byte} {size : Nat} : ErrorsIn (allowedCauses .edec) (entropyDecode cfg y size) := by
  intro r hr
  rcases entropyDecode_error hr with ⟨-, rfl⟩ | ⟨-, -, rfl⟩ <;> simp [allowedCauses]

theorem payloadCompress_errorsIn {key src : List Byte} : ErrorsIn (allowedCauses .fpc) (payloadCompress cfg key src) := by
  intro r hr
  rcases payloadCompress_error hr with ⟨-, rfl⟩ | ⟨-, rfl | rfl⟩ <;> simp [allowedCauses]

theorem payloadUnpack_errorsIn {key payload : List Byte} : ErrorsIn (allowedCauses .fpd) (payloadUnpack cfg key payload) := by
  intro r hr
  rcases payloadUnpack_error hr with ⟨-, rfl⟩ | ⟨-, -, rfl⟩ | ⟨-, -, hcoder⟩
  · simp [allowedCauses]
  · simp [allowedCauses]
  · exact errorsIn_mono entropyDecode_errorsIn (by decide) r hcoder

theorem readHeader_errorsIn {src : List Byte} : ErrorsIn (allowedCauses .rhdr) (readHeader cfg src) := by
  intro r hr
  unfold readHeader at hr
  dsimp only at hr
  split at hr
  · cases hr
    simp [allowedCauses]
  · split at hr
    · cases hr
      simp [allowedCauses]
    · split at hr
      · cases hr
        simp [allowedCauses]
      · cases hr

/-- One entry is not built for the reasons its payload is not made, or because it does not fit (R241). -/
theorem buildEntry_errorsIn {key tbl : List Byte} {rec : FinRecord} :
    ErrorsIn (allowedCauses .tblb) (buildEntry cfg key rec tbl) := by
  intro r hr
  rcases buildEntry_stops hr with hpayload | ⟨p, -, hcause, -⟩
  · exact errorsIn_mono payloadCompress_errorsIn (by decide) r hpayload
  · rw [hcause]
    decide

theorem buildLoop_errorsIn {key : List Byte} {recs : List FinRecord} {e : Nat} {b : Built} :
    ErrorsIn (allowedCauses .tblb) (buildLoop cfg key e recs b) := by
  induction recs generalizing e b with
  | nil => exact fun _ hr => nomatch hr
  | cons rec recs ih =>
    unfold buildLoop
    split
    · exact ih
    · rename_i r hr
      rintro _ ⟨⟩
      exact errorsIn_inEntry buildEntry_errorsIn r hr

theorem tableBuild_errorsIn {key : List Byte} {recs : List FinRecord} :
    ErrorsIn (allowedCauses .tblb) (tableBuild cfg key recs) := by
  intro r hr
  unfold tableBuild at hr
  split at hr
  · cases hr
    simp [allowedCauses]
  · split at hr
    · cases hr
      decide
    · split at hr
      · rename_i r' hloop
        cases hr
        exact buildLoop_errorsIn r hloop
      · cases hr

theorem takeField_bind_cause {tbl : List Byte} {pp n : Nat} {c c' : Cause} {f : List Byte × Nat → Except Cause α}
    (hc : c ∈ cs) (hf : ∀ v q, f (v, q) = .error c' → c' ∈ cs) (h : (takeField tbl pp n c >>= f) = .error c') :
    c' ∈ cs := by
  rw [takeField_bind] at h
  split at h
  · cases h
    exact hc
  · exact hf _ _ h

/-- Each of the five fields of an entry has its own truncation (R252 to R256). -/
theorem parseEntry_cause {tbl : List Byte} {pp : Nat} {c : Cause} (h : parseEntry cfg tbl pp = .error c) :
    c ∈ allowedCauses .tblx := by
  unfold parseEntry at h
  refine takeField_bind_cause (by decide) (fun _ _ h => ?_) h
  refine takeField_bind_cause (by decide) (fun _ _ h => ?_) h
  refine takeField_bind_cause (by decide) (fun _ _ h => ?_) h
  refine takeField_bind_cause (by decide) (fun _ _ h => ?_) h
  refine takeField_bind_cause (by decide) (fun _ _ h => ?_) h
  cases h

/-! The parts of a command. -/

theorem appendOut_raisesIn {info : Nat} {v : List Byte} : (appendOut cfg info v s).RaisesIn [.lengthOverflow] :=
  raisesIn_bodyOf appendTo_errorsIn

theorem detokenize_raisesIn : (detokenize cfg s).RaisesIn (allowedCauses .mdec) := by
  rcases detokenize_cases cfg s with ⟨d, h, -⟩ | ⟨r, h, hr⟩
  · rw [h]
    trivial
  · rw [h]
    exact hr

theorem payloadDecompress_raisesIn {payload : List Byte} :
    (payloadDecompress cfg payload s).RaisesIn (allowedCauses .fpd) :=
  raisesIn_andThen (raisesIn_bodyOf payloadUnpack_errorsIn) fun _ => raisesIn_mono detokenize_raisesIn (by decide)

theorem loadHeader_raisesIn : (loadHeader cfg s).RaisesIn (allowedCauses .rhdr) := raisesIn_bodyOf readHeader_errorsIn

theorem archiveBody_raisesIn {flag : Byte} {payload : List Byte} :
    (archiveBody cfg flag payload s).RaisesIn [.lengthOverflow] := by
  unfold archiveBody
  split
  · exact raisesIn_raised (by decide)
  · exact raisesIn_andThen (raisesIn_andThen appendOut_raisesIn fun _ => trivial) fun _ => appendOut_raisesIn

theorem entryStart_raisesIn : (entryStart cfg s).RaisesIn (allowedCauses .tblx) := by
  unfold entryStart
  split
  · rename_i hparse
    exact parseEntry_cause hparse
  · exact raisesIn_bodyOf (errorsIn_inEntry (errorsIn_mono payloadUnpack_errorsIn (by decide)))

theorem afterTokens_raisesIn : (afterTokens cfg s).RaisesIn (allowedCauses .tblx) := by
  unfold afterTokens
  split
  · unfold entryFinish
    dsimp only
    split
    · trivial
    · exact raisesIn_raised (by decide)
  · trivial
  · trivial

theorem extractLoop_raisesIn (n : Nat) : (extractLoop cfg n s).RaisesIn (allowedCauses .tblx) := by
  induction n generalizing s with
  | zero => trivial
  | succ n ih =>
    have hentry : (entryBody cfg s).RaisesIn (allowedCauses .tblx) :=
      raisesIn_andThen (raisesIn_andThen entryStart_raisesIn fun _ => raisesIn_mono detokenize_raisesIn (by decide))
        fun _ => afterTokens_raisesIn
    exact raisesIn_andThen hentry fun _ => ih

theorem tableExtract_raisesIn {payload : List Byte} : (tableExtract cfg payload s).RaisesIn (allowedCauses .tblx) := by
  unfold tableExtract
  dsimp only
  split
  · exact raisesIn_raised (by decide)
  · split
    · exact raisesIn_raised (by decide)
    · exact extractLoop_raisesIn _

theorem deliver_raisesIn {x : Except Raise (List Byte)} (h : ErrorsIn cs x) (hcap : .lengthOverflow ∈ cs) :
    (deliver s x).RaisesIn cs := by
  cases x with
  | error r => exact h r rfl
  | ok y => exact raisesIn_mono appendOut_raisesIn (List.cons_subset.mpr ⟨hcap, List.nil_subset _⟩)

/-! The instructions. -/

/-- An outcome that newly is an error records a cause in `cs`, with its kind, and leaves no output. -/
def AbortsIn (cs : List Cause) (s : State) (o : Host.Outcome State Fault Refusal) : Prop :=
  ∀ t, o = .next t → s.status ≠ .error → t.status = .error →
    ∃ c ∈ cs, t.errCause = c.code ∧ t.errKind = c.kind.code ∧ t.out = []

theorem abortsIn_refused {r : Refusal} : AbortsIn cs s (.refused r) := fun _ h => nomatch h

theorem abortsIn_settle {b : Body} (h : b.RaisesIn cs) : AbortsIn cs s (.next b.settle) := by
  rintro _ ⟨⟩ - herr
  cases b with
  | ok u => cases herr
  | raised r u => exact ⟨r.cause, h, rfl, rfl, rfl⟩

/-- A token that is not refused leaves `STATUS` as it was. -/
theorem abortsIn_resume {x : Except Raise Detok} (h : ErrorsIn cs x) : AbortsIn cs s (.next (detokBody s x).resume) := by
  rintro _ ⟨⟩ hs herr
  cases x with
  | ok d => exact absurd herr hs
  | error r => exact ⟨r.cause, h r rfl, rfl, rfl, rfl⟩

theorem ksxWith_abortsIn : AbortsIn (allowedCauses .ksx) s (ksxWith cfg s) := by
  refine abortsIn_settle ?_
  split
  · exact raisesIn_raised (by decide)
  · trivial

theorem exec_hdrw_abortsIn : AbortsIn (allowedCauses .hdrw) s (exec .hdrw s) := by
  rintro t ht - herr
  obtain rfl := Host.Outcome.next.inj ((hdrwWritesHeader s).symm.trans ht)
  cases herr

theorem exec_hdrr_abortsIn : AbortsIn (allowedCauses .hdrr) s (exec .hdrr s) := by
  rintro t ht - herr
  cases hread : readHeader Config.block (inBytes s) with
  | error r =>
    obtain rfl := Host.Outcome.next.inj ((exec_hdrr_error hread).symm.trans ht)
    exact ⟨r.cause, readHeader_errorsIn r hread, rfl, rfl, rfl⟩
  | ok h =>
    obtain rfl := Host.Outcome.next.inj ((exec_hdrr_ok hread).symm.trans ht)
    cases herr

theorem fpcWith_abortsIn : AbortsIn (allowedCauses .fpc) s (fpcWith cfg s) :=
  abortsIn_settle <| raisesIn_andThen (raisesIn_bodyOf payloadCompress_errorsIn)
    fun _ => raisesIn_mono appendOut_raisesIn (by decide)

theorem cfileWith_abortsIn : AbortsIn (allowedCauses .cfile) s (cfileWith cfg s) :=
  abortsIn_settle <| raisesIn_andThen (raisesIn_bodyOf payloadCompress_errorsIn)
    fun _ => raisesIn_mono archiveBody_raisesIn (by decide)

theorem tblbWith_abortsIn : AbortsIn (allowedCauses .tblb) s (tblbWith cfg s) := by
  unfold tblbWith
  split
  · exact abortsIn_refused
  · exact abortsIn_settle <| raisesIn_andThen (raisesIn_bodyOf tableBuild_errorsIn)
      fun _ => raisesIn_mono appendOut_raisesIn (by decide)

theorem bfoldWith_abortsIn : AbortsIn (allowedCauses .bfold) s (bfoldWith cfg s) := by
  unfold bfoldWith
  split
  · exact abortsIn_refused
  · exact abortsIn_settle <| raisesIn_andThen (raisesIn_bodyOf tableBuild_errorsIn)
      fun _ => raisesIn_mono archiveBody_raisesIn (by decide)

theorem tblxWith_abortsIn : AbortsIn (allowedCauses .tblx) s (tblxWith cfg s) :=
  abortsIn_settle (raisesIn_andThen tableExtract_raisesIn fun _ => trivial)

theorem dfileWith_abortsIn : AbortsIn (allowedCauses .dfile) s (dfileWith cfg s) := by
  refine abortsIn_settle <| raisesIn_andThen (raisesIn_mono loadHeader_raisesIn (by decide)) fun u => ?_
  split
  · exact raisesIn_raised (by decide)
  · exact raisesIn_mono payloadDecompress_raisesIn (by decide)

theorem xfoldWith_abortsIn : AbortsIn (allowedCauses .xfold) s (xfoldWith cfg s) := by
  refine abortsIn_settle <| raisesIn_andThen
    (raisesIn_andThen (raisesIn_mono loadHeader_raisesIn (by decide)) fun u => ?_) fun _ => trivial
  split
  · exact raisesIn_raised (by decide)
  · exact raisesIn_mono tableExtract_raisesIn (by decide)

theorem exec_abortsIn (i : Instr) (s : State) : AbortsIn (allowedCauses i) s (exec i s) := by
  cases i with
  | lit raw => exact abortsIn_resume litToken_errorsIn
  | matchRef lm3 off => exact abortsIn_resume matchToken_errorsIn
  | menc => exact abortsIn_settle (raisesIn_bodyOf tokenize_errorsIn)
  | mdec => exact abortsIn_settle detokenize_raisesIn
  | eenc =>
    rw [exec_eenc]
    exact abortsIn_settle (deliver_raisesIn entropyEncode_errorsIn (by decide))
  | edec =>
    rw [exec_edec]
    exact abortsIn_settle (deliver_raisesIn entropyDecode_errorsIn (by decide))
  | ksx => exact ksxWith_abortsIn (cfg := Config.block)
  | hdrw => exact exec_hdrw_abortsIn
  | hdrr => exact exec_hdrr_abortsIn
  | fpc => exact fpcWith_abortsIn
  | fpd => exact abortsIn_settle payloadDecompress_raisesIn
  | tblb => exact tblbWith_abortsIn
  | tblx => exact tblxWith_abortsIn
  | cfile => exact cfileWith_abortsIn
  | dfile => exact dfileWith_abortsIn
  | bfold => exact bfoldWith_abortsIn
  | xfold => exact xfoldWith_abortsIn
  | rhdr => exact abortsIn_settle loadHeader_raisesIn

/-- Settles O56: every instruction raises what its parts can raise. -/
theorem causesOfEachInstruction : Obligations.CausesOfEachInstruction := exec_abortsIn

end Sys2Proof.Machine
end

section
/-! The reset and the accesses that wait (spec/70_reset_and_hazards.md R340, R347), and the one refusal of an instruction
(spec/93_implementation_defined.md I15): what the engine's step leaves of the host's side, and when a command has its records. -/

namespace Sys2Proof.Machine

variable {cfg : Config} {s t u : State} {a : HostAccess} {rest : List HostAccess} {k : Nat} {i : Instr}

/-! What the engine leaves of the host's side. -/

/-- `t` has the accesses of `s` still to come, the value last read, and at least the records of `s`. -/
structure KeepsHostSide (s t : State) : Prop where
  pending : t.pending = s.pending
  hostData : t.hostData = s.hostData
  fout : s.fout <+: t.fout

theorem settle_keepsHostSide {b : Body} (h : KeepsHostSide s b.state) : KeepsHostSide s b.settle := by
  rw [(leaves_writes (settle_leaves b) : b.settle = takeEnd b.state b.settle)]
  exact ⟨h.pending, h.hostData, h.fout⟩

theorem exec_keepsHostSide (h : exec i s = .next t) : KeepsHostSide s t := by
  have hfout : s.fout <+: t.fout := (foutOnlyGrows i s t h).1
  obtain ⟨u, hu, hl⟩ := exec_ran i s t h
  obtain ⟨-, -, -, -, hpending, hdata⟩ := takeInstr_outside hu
  have ht : t = takeEnd u t := leaves_writes hl
  exact ⟨(congrArg State.pending ht).trans hpending, (congrArg State.hostData ht).trans hdata, hfout⟩

theorem resumeExtract_emits : Emits (2 ^ 32 + 1) s (resumeExtract cfg s).state := by
  have hloop : ∀ u : State, Emits (2 ^ 32) u (extractLoop cfg (u.ecnt.toNat - u.eidx.toNat) u).state := fun u =>
    emits_mono ((Nat.sub_le _ _).trans u.ecnt.isLt.le) (extractLoop_emits _)
  have hend : ∀ u, Emits 0 u (endExtract u).state := fun _ => emits_none rfl rfl
  exact emits_mono (by omega) (emits_andThen (emits_andThen afterTokens_emits hloop) hend)

theorem resumeExtract_keepsHostSide : KeepsHostSide s (resumeExtract cfg s).state := by
  obtain ⟨recs, -, hfout, -⟩ := resumeExtract_emits (cfg := cfg) (s := s)
  have hw : (resumeExtract cfg s).state = takeExtracted s (resumeExtract cfg s).state := resumeExtract_writes
  exact ⟨(congrArg State.pending hw :), (congrArg State.hostData hw :), hfout ▸ List.prefix_append _ _⟩

theorem haltTokens_keepsHostSide (next : After) (s : State) : KeepsHostSide s (haltTokens next s) := by
  cases next with
  | command => exact ⟨rfl, rfl, List.prefix_rfl⟩
  | entry path blen => exact settle_keepsHostSide resumeExtract_keepsHostSide

/-- The engine serves no access, answers no read and takes no record back. -/
theorem engineStep_keepsHostSide (h : engineStep s = .next t) : KeepsHostSide s t := by
  unfold engineStep at h
  split at h
  · unfold stepCommand at h
    split at h
    · exact exec_keepsHostSide h
    · cases h
      exact ⟨rfl, rfl, List.prefix_rfl⟩
  · unfold stepTokens at h
    dsimp only at h
    split at h
    · cases h
      exact haltTokens_keepsHostSide _ _
    · split at h
      · cases h
      · split at h
        · exact exec_keepsHostSide h
        · cases h
          exact ⟨rfl, rfl, List.prefix_rfl⟩

/-! Reset. -/

theorem emittedBefore_of_not_busy (h : s.status ≠ .busy) : emittedBefore k s = s.fout := if_neg h

theorem emittedBefore_next (hb : s.status = .busy) (h : engineStep s = .next t) :
    emittedBefore k s = t.fout.take (s.fout.length + k) := by
  simp only [emittedBefore, hb, if_true, h]

/-- The command in which the reset lands has only added records to those that were there. -/
theorem prefix_emittedBefore (k : Nat) (s : State) : s.fout <+: emittedBefore k s := by
  unfold emittedBefore
  split
  · split
    · rename_i t ht
      exact List.prefix_take_iff.mpr ⟨(engineStep_keepsHostSide ht).fout, Nat.le_add_right _ _⟩
    · exact List.prefix_rfl
    · exact List.prefix_rfl
  · exact List.prefix_rfl

/-- A reset is served whatever `STATUS` is, on a state that differs by the records emitted until then. -/
theorem step_resets (hp : s.pending = a :: rest) (ha : a = .reset ∨ ∃ k, a = .resetDuring k) :
    ∃ u, step s = .next (resetTo rest u) ∧ (a = .reset → u.fout = s.fout) ∧
      ∀ k, a = .resetDuring k → u.fout = emittedBefore k s := by
  rcases ha with rfl | ⟨k, rfl⟩
  · exact ⟨_, step_servesBusy rfl hp, fun _ => rfl, nofun⟩
  · refine ⟨_, (step_servesBusy rfl hp).trans (serveAccess_resetDuring k rest s), nofun, ?_⟩
    rintro _ ⟨⟩
    rfl

/-- Settles O10: the values are those of `resetTo`; the records are the old ones, or those emitted before the reset. -/
theorem resetAtAnyMoment : Obligations.ResetAtAnyMoment := by
  unfold Obligations.ResetAtAnyMoment
  intro s a rest hp ha
  obtain ⟨u, hstep, hreset, hduring⟩ := step_resets hp ha
  have hgrow : s.fout <+: u.fout := by
    rcases ha with rfl | ⟨k, rfl⟩
    · exact hreset rfl ▸ List.prefix_rfl
    · exact hduring k rfl ▸ prefix_emittedBefore k s
  refine ⟨resetTo rest u, hstep, rfl, rfl, rfl, rfl, rfl, rfl, rfl, rfl, rfl, rfl, rfl, rfl, rfl, rfl, rfl, rfl, rfl,
    hgrow, hreset, fun k hk => ⟨fun hb => ?_, fun hb hrun i v hdecode hexec => ?_⟩, step_waits (s := resetTo rest u) nofun⟩
  · exact (hduring k hk).trans (emittedBefore_of_not_busy hb)
  · exact (hduring k hk).trans (emittedBefore_next hb ((engineStep_command hrun hdecode).trans hexec))

/-! The accesses that wait. -/

theorem servedWhileBusy_eq_false (hreset : a ≠ .reset) (hduring : ∀ k, a ≠ .resetDuring k) (hread : a ≠ .readReg 1) :
    servedWhileBusy a = false := by
  by_contra h
  rcases servedWhileBusy_cases (Bool.eq_true_of_not_eq_false h) with ha | ha | ⟨k, ha⟩
  · exact hreset ha
  · exact hread ha
  · exact hduring k ha

theorem nextAccess_waiting (hb : s.status = .busy) (hp : s.pending = a :: rest) (ha : servedWhileBusy a = false) :
    nextAccess s = none := by
  simp [nextAccess, hp, hb, ha]

/-- Settles O13: with the access waiting the engine moves; a read of `STATUS` is among the accesses served at any moment. -/
theorem busyAccessHasNoMove : Obligations.BusyAccessHasNoMove := by
  unfold Obligations.BusyAccessHasNoMove
  refine ⟨fun s t a rest hb hp hreset hduring hread hstep => ?_, fun s rest hp => ?_⟩
  · have hnone : nextAccess s = none := nextAccess_waiting hb hp (servedWhileBusy_eq_false hreset hduring hread)
    have hkeeps : KeepsHostSide s t := engineStep_keepsHostSide ((step_engine hb hnone).symm.trans hstep)
    exact ⟨hkeeps.pending, hkeeps.hostData⟩
  · rw [step_servesBusy rfl hp, serveAccess_plain (a := .readReg 1) nofun]
    simp only [hostAccess, hostReadReg, regValue]
    cases s.status <;> rfl

/-! The records a command asks for. -/

theorem mapM_eq_none {α β : Type} (f : α → Option β) (xs : List α) : xs.mapM f = none ↔ ∃ x ∈ xs, f x = none := by
  induction xs with
  | nil => simp
  | cons x xs ih =>
    cases hx : f x with
    | none => simp [hx]
    | some y => cases hxs : xs.mapM f <;> simpa [hx, hxs] using ih

theorem finRecords_eq_none : finRecords s = none ↔ ∃ e, e < s.finCnt.toNat ∧ getEntry s.fin e = none := by
  simp only [finRecords, mapM_eq_none, List.mem_range]

/-- The two commands that read `FIN` refuse for want of a record alone. -/
theorem exec_build_missing (hi : i = .tblb ∨ i = .bfold) (h : finRecords s = none) :
    exec i s = .refused .finRecordMissing := by
  rcases hi with rfl | rfl
  · change tblbWith Config.block s = _
    rw [tblbWith, h]
  · change bfoldWith Config.block s = _
    rw [bfoldWith, h]

theorem exec_build_supplied {recs : List FinRecord} (hi : i = .tblb ∨ i = .bfold) (h : finRecords s = some recs) :
    ∃ t, exec i s = .next t := by
  rcases hi with rfl | rfl
  · change ∃ t, tblbWith Config.block s = _
    rw [tblbWith, h]
    exact ⟨_, rfl⟩
  · change ∃ t, bfoldWith Config.block s = _
    rw [bfoldWith, h]
    exact ⟨_, rfl⟩

theorem exec_next (hi : ¬(i = .tblb ∨ i = .bfold)) : ∃ t, exec i s = .next t := by
  cases i with
  | tblb => exact absurd (.inl rfl) hi
  | bfold => exact absurd (.inr rfl) hi
  | _ => exact ⟨_, rfl⟩

/-- Settles O39: `TBLB` and `BFOLD` by whether `FIN` has their records; every other instruction is a next state as defined. -/
theorem onlyMissingRecordsRefused : Obligations.OnlyMissingRecordsRefused := by
  unfold Obligations.OnlyMissingRecordsRefused
  refine ⟨fun s i e hi he hmissing => exec_build_missing hi (finRecords_eq_none.mpr ⟨e, he, hmissing⟩), fun s i => ?_⟩
  by_cases hi : i = .tblb ∨ i = .bfold
  · cases hrecs : finRecords s with
    | none => exact .inr ⟨hi, exec_build_missing hi hrecs, finRecords_eq_none.mp hrecs⟩
    | some recs => exact .inl (exec_build_supplied hi hrecs)
  · exact .inl (exec_next hi)

end Sys2Proof.Machine
end
